-- ==== Sys2Proof/Word.lean ====
section
/-! DEFINITION. The one datum the TLC moves: the byte (rule R9), and the 6-bit chip address of a header (rule R91). -/

namespace Sys2Proof

/-- A byte: an unsigned integer 0..255, bit 7 the most significant (rule R9). -/
abbrev Byte := BitVec 8

/-- The address field `A`, bits 5:0 of a header byte (rule R91). -/
abbrev ChipAddr := BitVec 6

end Sys2Proof
end

