-- ==== Sys2Proof/Config.lean ====
section
/-! DEFINITION. The parameters of the block (rule R8), the alphabet of its environment (the chip's answers, the
moments at which the external agents act: rules R6, R11, R12), and the free values. A constant declared `opaque` has
no body: it is an OPEN parameter or a `draw`, and no proof can see its value (log entries 1, 2, 4, 6, 9, 10, 16). -/

namespace Sys2Proof

/-! ## Names used by the parameters -/

/-- The modulation kind of rule R8 (`KIND_OF`). -/
inductive Kind where
  | fsk2 | ook
  deriving DecidableEq, Repr, Inhabited

/-- The three settle delays of rule R154. -/
inductive Settle where
  | resetPulse | postReset | postCal
  deriving DecidableEq, Repr, Inhabited

/-- The four private byte arrays of rule R60. -/
inductive BufId where
  | txbuf | rxbuf | hrx | htx
  deriving DecidableEq, Repr, Inhabited

/-! ## The chip side (rules R37 to R39, R75 to R82) -/

/-- The chip's state, as far as the source names it: what the strobes ask of it (rule R81), and two that say less.
`unknown` is a state that is chip-defined (rules R43, R283), `aborted` the one after a TX underflow, whose state code "an
underflowed chip may never show" as 0 (rules R80, R291). -/
inductive ChipMode where
  | unknown | idle | calibrating | receiving | transmitting | aborted
  deriving DecidableEq, Repr, Inhabited

/-- What the bus primitive answers to one transaction (rules R11, R68, R120, R136). -/
inductive Answer where
  /-- The exchange completed: the chip took the sent bytes, and these bytes came back. -/
  | reply (bytes : List Byte)
  /-- The exchange timed out. Whether the chip took the sent bytes is not known to the TLC (rules R68, R136). That it took
  all of them or none, never a part, is DEDUCED, unsafe (log entry 38). -/
  | timeout (bytes : List Byte) (taken : Bool)
  deriving DecidableEq, Repr, Inhabited

/-- What the chip does on its own, between transactions (rules R75, R80, R81). -/
inductive ChipMove where
  /-- A received byte enters the RX FIFO. -/
  | rxByte (b : Byte)
  /-- The oldest byte of the TX FIFO goes on air; `more` says that bytes of the frame are still to come (rule R80; log
  entry 36). -/
  | txByte (more : Bool)
  /-- The chip changes its state. -/
  | mode (m : ChipMode)
  deriving DecidableEq, Repr, Inhabited

/-- Who acts next (rules R6, R12): the sequencer with its next micro-step, or one external agent. -/
inductive Move where
  /-- The loop context takes one micro-step. At `LOOP` it starts the `k`-th enabled service, counted round and round
  (rule R287); inside an operation `k` is not read. -/
  | loop (k : Nat)
  /-- The chip drives `sync_in` to a level (rule R82). -/
  | syncLevel (level : Bool)
  /-- The chip drives `cca_in` to a level (rule R82). -/
  | ccaLevel (level : Bool)
  /-- The host sends a byte (rule R230). -/
  | hostByte (b : Byte)
  /-- The free-running counter advances by one tick (rule R261). -/
  | tick
  /-- The chip acts on its own FIFOs or state. -/
  | chip (m : ChipMove)
  deriving DecidableEq, Repr, Inhabited

/-! ## CODES: the numbers of the chip bus (rule R96) -/

/-- The `CODES` parameter as a record (rule R96). -/
structure Codes where
  rwBit : Byte
  bBit : Byte
  addrMask : Byte
  aSres : Byte
  aScal : Byte
  aSrx : Byte
  aStx : Byte
  aSidle : Byte
  aSfrx : Byte
  aSnop : Byte
  aMarcstate : Byte
  aTxbytes : Byte
  aRxbytes : Byte
  aPatable : Byte
  aFifo : Byte
  deriving DecidableEq, Repr

/-- The default `CODES` of rule R96 (PRESUMED by the spec itself: general knowledge, log entry 3). -/
def Config.codes : Codes where
  rwBit := 0x80
  bBit := 0x40
  addrMask := 0x3F
  aSres := 0x30
  aScal := 0x33
  aSrx := 0x34
  aStx := 0x35
  aSidle := 0x36
  aSfrx := 0x3A
  aSnop := 0x3D
  aMarcstate := 0x35
  aTxbytes := 0x3A
  aRxbytes := 0x3B
  aPatable := 0x3E
  aFifo := 0x3F

/-! ## Parameters with a value (rule R8) -/

/-- `N_CFG`: entries of the RegisterConfigTable. -/
abbrev Config.nCfg : Nat := 39
/-- The configuration registers are 0x00 to 0x28: 41 addresses (rules R37, R61). -/
abbrev Config.nCfgRegs : Nat := 41
/-- `PA_LEN`: the PowerAmplifierTable with its header byte. -/
abbrev Config.paLen : Nat := 9
/-- `TX_SINGLE_MAX`. -/
abbrev Config.txSingleMax : Nat := 63
/-- `TX_FIRST_BURST`. -/
abbrev Config.txFirstBurst : Nat := 65
/-- `TX_REFILL_AT`. -/
abbrev Config.txRefillAt : Nat := 32
/-- `TX_CHUNK`. -/
abbrev Config.txChunk : Nat := 24
/-- `RX_GATE`. -/
abbrev Config.rxGate : Nat := 1
/-- `SENTINEL`. -/
abbrev Config.sentinel : Byte := 0xFF
/-- `TAG_CFG`. -/
abbrev Config.tagCfg : Byte := 0x01
/-- `TAG_DATA`. -/
abbrev Config.tagData : Byte := 0x02
/-- `TAG_BOOT`. -/
abbrev Config.tagBoot : Byte := 0x03
/-- `TICKS_PER_UNIT`. -/
abbrev Config.ticksPerUnit : Nat := 1000
/-- `MARC_IDLE`: the MARCSTATE value for "idle, ready". -/
abbrev Config.marcIdle : Byte := 1
/-- `FILL`: the byte sent while reading. -/
abbrev Config.fill : Byte := 0x00
/-- `OCC_MASK`: no masking (log entry 22). -/
abbrev Config.occMask : Byte := 0xFF
/-- The largest channel-select code of the 2FSK profile (rule R150). -/
abbrev Config.fskMax : Nat := 7

/-- The capacities of the four buffers: `TXBUF_CAP` = 257, the others 255 (rule R8; log entry 17). -/
abbrev Config.cap : BufId → Nat
  | .txbuf => 257
  | .rxbuf => 255
  | .hrx => 255
  | .htx => 255

/-! ## OPEN parameters (rule R8; log entry 4) -/

/-- Which one of the addresses 0x01..0x27 `CFG_ADDR` skips first, counted from 0x01 (decision D4). -/
opaque Config.skipOne : Fin 39
/-- Which of the 38 addresses of 0x01..0x27 that remain it skips besides (decision D4). -/
opaque Config.skipTwo : Fin 38
/-- `IDX_CHAN`: the table position that depends on the channel. -/
opaque Config.idxChan : Fin 39
/-- `IDX_MOD`: the set of positions that depend on the modulation kind. -/
opaque Config.idxMod : Fin 39 → Bool
/-- The value at `IDX_CHAN`, a function of the channel alone. -/
opaque Config.profileChan : Byte → Byte
/-- The values at `IDX_MOD`, a function of the kind alone. -/
opaque Config.profileMod : Kind → Fin 39 → Byte
/-- The fixed profile constants at every other position. -/
opaque Config.profileConst : Fin 39 → Byte
/-- `PA_FSK[0..7]`. -/
opaque Config.paFsk : Fin 8 → Byte
/-- `PA_OOK[0..7]`. -/
opaque Config.paOok : Fin 8 → Byte
/-- `CHAN_OF`: the channel number of a channel-select code (decision D6). -/
opaque Config.chanOf : Byte → Byte
/-- `CCA_CLEAR_LEVEL` (decision D35). -/
opaque Config.ccaClearLevel : Bool
/-- `T_RESET_PULSE`, `T_POST_RESET`, `T_POST_CAL`: durations no rule's outcome depends on (rules R154, R300). -/
opaque Config.settleTime : Settle → Nat
/-- `BUS_TIMEOUT`: the bus primitive's fixed per-call time-out, on which no rule's outcome depends (rules R136, R300). -/
opaque Config.busTimeout : Nat

/-! ## Free values: a `draw` (rules R10, R12) -/

/-- What a buffer byte that nothing has written since reset holds: a `draw` fixed at reset (rule R43; log entry 6). -/
opaque Config.unwrittenByte : BufId → Nat → Byte
/-- Who acts next, where the script of moves says nothing (rule R12; log entry 2). -/
opaque Config.freeMove : Nat → Move
/-- The chip's answer to a transaction, where the script of answers says nothing (rule R11; log entry 1). -/
opaque Config.freeAnswer : Nat → Answer
/-- Byte `i` of an exchange for which the answer gives no byte (rules R11, R68). -/
opaque Config.freeByte : Nat → Nat → Byte
/-- The outcome of a choice both sides of which rule R29 admits (log entry 9). -/
opaque Config.freeChoice : Nat → Bool
/-- The level of a status LED after a transaction (rules R40, R135; log entry 16). -/
opaque Config.freeLed : Nat → Bool → Bool
/-- `HRX[i]` read beyond the end of a short configuration frame (rules R104, R232; log entry 10). -/
opaque Config.staleByte : Nat → Nat → Byte
/-- What configuration register `a` holds that nothing has written since the chip's reset: chip-defined (rules R37, R43).
The first argument is the reset's draw, `Chip.regDraw` (log entry 14). -/
opaque Config.freeChipReg : Nat → Nat → Byte
/-- What entry `k` of the power table holds that nothing has written since the chip's reset: chip-defined (rules R38, R43).
The first argument is the reset's draw, `Chip.paDraw` (log entry 14). -/
opaque Config.freePaLevel : Nat → Nat → Byte
/-- A chip FIFO's content after an event that leaves it chip-defined: `true` the TX FIFO, `false` the RX FIFO (rules R37,
R43; log entry 14). -/
opaque Config.freeFifo : Nat → Bool → List Byte

end Sys2Proof
end

