-- ==== Sys2Proof/Syntax.lean ====
section
/-! DEFINITION. The instructions: one constructor for each of the 31 rows of spec/opcode_table.json (rules R90, R100, R102). -/

namespace Sys2Proof

/-- The TLC's operations: the bus transactions, the host frames, and the operations of the sequencer and of the two
interrupt handlers, which have no encoding. -/
inductive Instr where
  /-- `SRES`, soft-reset (rule R122). -/
  | sres
  /-- `SCAL`, calibrate (rule R124). -/
  | scal
  /-- `SRX`, enable-RX (rule R126). -/
  | srx
  /-- `STX`, enable-TX (rule R127). -/
  | stx
  /-- `SIDLE`, idle (rule R123). -/
  | sidle
  /-- `SFRX`, flush-RX (rule R125). -/
  | sfrx
  /-- `SNOP`, no-op (rule R128). -/
  | snop
  /-- `WREG a, v`: single-register write, `a` in 0x00..0x28 (rule R129). -/
  | wreg (a : Fin 41) (v : Byte)
  /-- `WBURST PATABLE, levels`: the power table from entry 0 on; a whole table is 8 levels (rules R38, R130). -/
  | wburstPatable (levels : List Byte)
  /-- `WBURST FIFO, data`: bytes appended to the TX FIFO in order (rule R130). -/
  | wburstFifo (data : List Byte)
  /-- `RFIFO1`: one byte from the RX FIFO (rule R132). -/
  | rfifo1
  /-- `RBURST a, n`: `n` bytes read from address `a` on (rule R133). -/
  | rburst (a : ChipAddr) (n : Nat)
  /-- `RSTATUS MARCSTATE` (rule R131). -/
  | rstatusMarcstate
  /-- `RSTATUS TXBYTES` (rule R131). -/
  | rstatusTxbytes
  /-- `RSTATUS RXBYTES` (rule R131). -/
  | rstatusRxbytes
  /-- The host frame `[0x01, csc, backoff, 0xFF]` (rules R100, R232). -/
  | hostConfig (csc : Byte) (backoff : Byte)
  /-- The host frame `0x02 :: rest`: `rest` is every accumulated byte after the tag, the sentinel among them (rule R233). -/
  | hostData (rest : List Byte)
  /-- The outbound frame `[0x03, 0xFF]`, queued at boot (rule R237). -/
  | hostBootnote
  /-- A host frame with any other tag (rule R234). -/
  | hostOther (tag : Byte) (rest : List Byte)
  /-- `CONFIGURE csc` (rule R153). -/
  | configure (csc : Byte)
  /-- `writeConfig(table)`: 39 single-register writes (rule R134). -/
  | writeConfig (table : List Byte)
  /-- `TRANSMIT` (rule R171). -/
  | transmit
  /-- `SYNC_EDGE`: a rising edge of `sync_in` (rule R191). -/
  | syncEdge
  /-- `RX_STEP` (rule R192). -/
  | rxStep
  /-- `RX_LAST` (rule R194). -/
  | rxLast
  /-- `RX_COMPLETE` (rule R196). -/
  | rxComplete
  /-- `RX_SERVICE` (rule R197). -/
  | rxService
  /-- `CSMA_SERVICE` (rule R224). -/
  | csmaService
  /-- `HOST_RX_BYTE b`: the byte-received handler (rule R230). -/
  | hostRxByte (b : Byte)
  /-- `HOST_DISPATCH` (rule R231). -/
  | hostDispatch
  /-- `HOST_TX_DRAIN` (rule R236). -/
  | hostTxDrain
  deriving DecidableEq, Repr

/-- The three places where a byte sequence stands for an instruction: the chip bus (rule R90), the host link inbound and
the host link outbound (rule R100). -/
inductive Link where
  | chipBus | hostIn | hostOut
  deriving DecidableEq, Repr

/-- Where an instruction's encoding is found; `none` for an operation that has no encoding (introduction of
spec/30_encoding.md). -/
def Instr.link : Instr → Option Link
  | .sres | .scal | .srx | .stx | .sidle | .sfrx | .snop => some .chipBus
  | .wreg _ _ | .wburstPatable _ | .wburstFifo _ | .rfifo1 | .rburst _ _ => some .chipBus
  | .rstatusMarcstate | .rstatusTxbytes | .rstatusRxbytes => some .chipBus
  | .hostConfig _ _ | .hostData _ | .hostOther _ _ => some .hostIn
  | .hostBootnote => some .hostOut
  | .configure _ | .writeConfig _ | .transmit | .syncEdge | .rxStep | .rxLast | .rxComplete | .rxService => none
  | .csmaService | .hostRxByte _ | .hostDispatch | .hostTxDrain => none

end Sys2Proof
end

