-- ==== Sys2Proof/WellFormed.lean ====
section
/-! DEFINITION. When an instruction is one the TLC or the host can form (rules R65, R97, R100, R134). -/

namespace Sys2Proof

/-- The bytes after the tag of a host frame: any bytes but the sentinel, then the sentinel (rule R100: "no byte of a
frame before the last can be 0xFF"), and the whole frame fits the accumulator (rule R35). -/
def frameTailOk (rest : List Byte) : Bool :=
  rest.getLast? == some Config.sentinel && !(rest.dropLast.contains Config.sentinel) &&
    decide (rest.length + 1 ≤ Config.cap .hrx)

/-- Well-formed instructions. -/
def Instr.wf : Instr → Bool
  | .sres | .scal | .srx | .stx | .sidle | .sfrx | .snop => true
  | .wreg _ _ => true
  | .wburstPatable levels => decide (1 ≤ levels.length ∧ levels.length ≤ 8)
  | .wburstFifo data => decide (1 ≤ data.length ∧ data.length ≤ 64)
  | .rfifo1 => true
  | .rburst a n => decide (1 ≤ n) && (decide (a.toNat < Config.nCfgRegs) || decide (a.toNat = Config.codes.aFifo.toNat))
  | .rstatusMarcstate | .rstatusTxbytes | .rstatusRxbytes => true
  | .hostConfig csc backoff => decide (csc ≠ Config.sentinel) && decide (backoff ≠ Config.sentinel)
  | .hostData rest => frameTailOk rest
  | .hostBootnote => true
  | .hostOther tag rest =>
    decide (tag ≠ Config.tagCfg) && decide (tag ≠ Config.tagData) &&
      (if tag = Config.sentinel then rest.isEmpty else frameTailOk rest)
  | .configure _ => true
  | .writeConfig table => decide (table.length = Config.nCfg)
  | .transmit | .syncEdge | .rxStep | .rxLast | .rxComplete | .rxService => true
  | .csmaService | .hostRxByte _ | .hostDispatch | .hostTxDrain => true

end Sys2Proof
end

