-- ==== Sys2Proof/Decode.lean ====
section
/-! DEFINITION. The header bytes (rules R91 to R95), the classification of recorded bytes (rules R97, R98, R231), the
encoder (rules R90, R100), and the reading of an opcode-table word. -/

namespace Sys2Proof

/-! ## Header bytes (rules R91, R99 a) -/

/-- A single write or a strobe: `RW = 0`, `B = 0` (rules R92, R93). -/
def hdrSingleWrite (a : Byte) : Byte := a &&& Config.codes.addrMask

/-- A burst write: `RW = 0`, `B = 1` (rule R95). -/
def hdrBurstWrite (a : Byte) : Byte := hdrSingleWrite a ||| Config.codes.bBit

/-- A single read: `RW = 1`, `B = 0` (rule R95). -/
def hdrSingleRead (a : Byte) : Byte := hdrSingleWrite a ||| Config.codes.rwBit

/-- A burst read or a status read: `RW = 1`, `B = 1` (rules R94, R95). -/
def hdrBurstRead (a : Byte) : Byte := hdrSingleWrite a ||| Config.codes.rwBit ||| Config.codes.bBit

/-- `HDR_PA_WB` (rule R95). -/
def hdrPaWb : Byte := hdrBurstWrite Config.codes.aPatable
/-- `HDR_FIFO_WB`, the burst-FIFO command tag (rule R95). -/
def hdrFifoWb : Byte := hdrBurstWrite Config.codes.aFifo
/-- `HDR_FIFO_R1` (rule R95). -/
def hdrFifoR1 : Byte := hdrSingleRead Config.codes.aFifo
/-- `HDR_FIFO_RB` (rule R95). -/
def hdrFifoRb : Byte := hdrBurstRead Config.codes.aFifo

/-! ## Decoding -/

/-- Why a byte sequence stands for no instruction. -/
inductive Reject where
  /-- No byte at all: a transaction has a header and a host frame a tag. -/
  | empty
  /-- A header the TLC never issues (rule R97 case 8, rule R101). -/
  | notIssued (header : Byte)
  /-- A header the TLC issues, with a number of further bytes that it never sends with it (rules R97, R98), or a host
  frame too short for its tag. -/
  | wrongLength (header : Byte) (following : Nat)
  /-- An outbound frame other than the boot notification. -/
  | notBootnote
  deriving DecidableEq, Repr

/-- What a header byte says (rule R97). -/
inductive Header where
  /-- An instruction without an operand in its bytes, and how many bytes follow the header. -/
  | fixed (i : Instr) (following : Nat)
  /-- `HDR_PA_WB`: at least one data byte follows, 8 in every burst the TLC sends (case 3; rule R130: "n >= 1"; log entry
  28). -/
  | paWrite
  /-- `HDR_FIFO_WB`: at least one data byte follows (case 4). -/
  | fifoWrite
  /-- A bare configuration register address: one byte follows (case 1). -/
  | cfgWrite (a : Fin 41)
  /-- A burst read: at least one byte follows (case 7). -/
  | burstRead (a : ChipAddr)
  deriving DecidableEq, Repr

/-- The strobes' headers (rule R92, case 2 of rule R97). -/
def classifyStrobe (h : Byte) : Option Instr :=
  if h = hdrSingleWrite Config.codes.aSres then some .sres
  else if h = hdrSingleWrite Config.codes.aScal then some .scal
  else if h = hdrSingleWrite Config.codes.aSrx then some .srx
  else if h = hdrSingleWrite Config.codes.aStx then some .stx
  else if h = hdrSingleWrite Config.codes.aSidle then some .sidle
  else if h = hdrSingleWrite Config.codes.aSfrx then some .sfrx
  else if h = hdrSingleWrite Config.codes.aSnop then some .snop
  else none

/-- The status registers' headers (rule R94, case 6 of rule R97). -/
def classifyStatus (h : Byte) : Option Instr :=
  if h = hdrBurstRead Config.codes.aMarcstate then some .rstatusMarcstate
  else if h = hdrBurstRead Config.codes.aTxbytes then some .rstatusTxbytes
  else if h = hdrBurstRead Config.codes.aRxbytes then some .rstatusRxbytes
  else none

/-- The classification of a header byte (rule R97); none for case 8. -/
def classify (h : Byte) : Option Header :=
  match classifyStrobe h, classifyStatus h with
  | some i, _ => some (.fixed i 0)
  | none, some i => some (.fixed i 2)
  | none, none =>
    if h = hdrPaWb then some .paWrite
    else if h = hdrFifoWb then some .fifoWrite
    else if h = hdrFifoR1 then some (.fixed .rfifo1 1)
    else if h = hdrFifoRb then some (.burstRead (h.truncate 6))
    else if hr : h.toNat < 41 then some (.cfgWrite ⟨h.toNat, hr⟩)
    else if h = hdrBurstRead h ∧ (hdrSingleWrite h).toNat < Config.nCfgRegs then some (.burstRead (h.truncate 6))
    else none

/-- The bytes `d` after a header `h` of a known kind (rules R97, R98, R130). -/
def decodeData (h : Byte) (d : List Byte) : Header → Except Reject Instr
  | .fixed i n => if d.length = n then .ok i else .error (.wrongLength h d.length)
  | .paWrite => if 1 ≤ d.length then .ok (.wburstPatable d) else .error (.wrongLength h d.length)
  | .fifoWrite => if 1 ≤ d.length then .ok (.wburstFifo d) else .error (.wrongLength h d.length)
  | .cfgWrite a => if d.length = 1 then .ok (.wreg a (d.headD 0)) else .error (.wrongLength h d.length)
  | .burstRead a => if 1 ≤ d.length then .ok (.rburst a d.length) else .error (.wrongLength h d.length)

/-- The classification of rule R97: the header and the bytes that follow it before deselect. -/
def decodeBus : List Byte → Except Reject Instr
  | [] => .error .empty
  | h :: d =>
    match classify h with
    | some k => decodeData h d k
    | none => .error (.notIssued h)

/-- The switch of rule R231 on the first accumulated byte. The sentinel is framing: the dispatcher does not look for it. -/
def decodeHostIn : List Byte → Except Reject Instr
  | [] => .error .empty
  | t :: rest =>
    if t = Config.tagCfg then
      match rest with
      | csc :: backoff :: _ => .ok (.hostConfig csc backoff)
      | _ => .error (.wrongLength t rest.length)
    else if t = Config.tagData then .ok (.hostData rest)
    else .ok (.hostOther t rest)

/-- The one outbound frame that has a layout of its own (rules R100, R237). -/
def decodeHostOut (bytes : List Byte) : Except Reject Instr :=
  match bytes with
  | [] => .error .empty
  | _ => if bytes = [Config.tagBoot, Config.sentinel] then .ok .hostBootnote else .error .notBootnote

/-- Decoding, by the place where the bytes are found. -/
def decode : Link → List Byte → Except Reject Instr
  | .chipBus, bytes => decodeBus bytes
  | .hostIn, bytes => decodeHostIn bytes
  | .hostOut, bytes => decodeHostOut bytes

/-! ## Encoding (rules R90 to R95, R100) -/

/-- The bytes of an instruction: those the TLC sends between select and deselect, or those of the host frame; none for an
operation that has no encoding. -/
def encode : Instr → List Byte
  | .sres => [hdrSingleWrite Config.codes.aSres]
  | .scal => [hdrSingleWrite Config.codes.aScal]
  | .srx => [hdrSingleWrite Config.codes.aSrx]
  | .stx => [hdrSingleWrite Config.codes.aStx]
  | .sidle => [hdrSingleWrite Config.codes.aSidle]
  | .sfrx => [hdrSingleWrite Config.codes.aSfrx]
  | .snop => [hdrSingleWrite Config.codes.aSnop]
  | .wreg a v => [hdrSingleWrite (BitVec.ofNat 8 a.val), v]
  | .wburstPatable levels => hdrPaWb :: levels
  | .wburstFifo data => hdrFifoWb :: data
  | .rfifo1 => [hdrFifoR1, Config.fill]
  | .rburst a n => hdrBurstRead (a.zeroExtend 8) :: List.replicate n Config.fill
  | .rstatusMarcstate => [hdrBurstRead Config.codes.aMarcstate, Config.fill, Config.fill]
  | .rstatusTxbytes => [hdrBurstRead Config.codes.aTxbytes, Config.fill, Config.fill]
  | .rstatusRxbytes => [hdrBurstRead Config.codes.aRxbytes, Config.fill, Config.fill]
  | .hostConfig csc backoff => [Config.tagCfg, csc, backoff, Config.sentinel]
  | .hostData rest => Config.tagData :: rest
  | .hostBootnote => [Config.tagBoot, Config.sentinel]
  | .hostOther tag rest => tag :: rest
  | .configure _ | .writeConfig _ | .transmit | .syncEdge | .rxStep | .rxLast | .rxComplete | .rxService => []
  | .csmaService | .hostRxByte _ | .hostDispatch | .hostTxDrain => []

/-! ## A word of the opcode table (log entry 12) -/

/-- The bytes of an opcode-table word: the first byte is bits 7..0. -/
def wordBytes (nbits w : Nat) : List Byte :=
  (List.range (nbits / 8)).map fun i => BitVec.ofNat 8 (w >>> (8 * i))

/-- `bytes` with zeros after it up to length `n`. -/
def padTo (n : Nat) (bytes : List Byte) : List Byte :=
  bytes ++ List.replicate (n - bytes.length) 0

/-- Where the bytes of a table word are found. The rows of the chip bus and of the host link overlap (0x01 to 0x03 are
tags and bare register addresses): the row that fixes more bits is taken (log entry 12). -/
def tableLink (bytes : List Byte) : Link :=
  match bytes with
  | [] => .chipBus
  | h :: _ =>
    if h = Config.tagCfg ∨ h = Config.tagData then .hostIn
    else if h = Config.tagBoot then .hostOut
    else .chipBus

/-- The fewest bytes a transaction with this header has (rules R97, R98). -/
def minLength (h : Byte) : Nat :=
  if h = hdrPaWb then 9
  else if h = hdrBurstRead Config.codes.aMarcstate ∨ h = hdrBurstRead Config.codes.aTxbytes ∨
      h = hdrBurstRead Config.codes.aRxbytes then 3
  else if 0x30 ≤ h.toNat ∧ h.toNat ≤ 0x3D then 1
  else 2

/-- The whole byte sequence of a table word: bytes beyond the word are 0, but for the sentinel that ends a host frame. -/
def tableBytes (nbits w : Nat) : List Byte :=
  let bytes := wordBytes nbits w
  match bytes with
  | [] => []
  | h :: _ =>
    if h = Config.tagCfg then (padTo 3 bytes).take 3 ++ [Config.sentinel]
    else if h = Config.tagData then bytes ++ [Config.sentinel]
    else if h = Config.tagBoot then [h, Config.sentinel]
    else padTo (minLength h) bytes

/-- The instruction the decoder reads from an opcode-table word. -/
def decodeTableWord (nbits w : Nat) : Option Instr :=
  match decode (tableLink (tableBytes nbits w)) (tableBytes nbits w) with
  | .ok i => some i
  | .error _ => none

end Sys2Proof
end

