-- ==== Sys2Proof/Machine/Memory.lean ====
section
/-! DEFINITION. A byte-addressed space as plain data (rule R60): the bytes something has written, addresses strictly
rising. An address that is not listed holds no written byte; what a rule reads there is said once, by `State.readBuf`
(log entry 6). -/

namespace Sys2Proof.Machine

/-- A byte-addressed space: the written bytes. -/
abbrev Memory := List Host.Cell

/-- The byte written last at `a`, if any. -/
def Memory.read : Memory → Nat → Option Byte
  | [], _ => none
  | (b, w) :: m, a => if a = b then some w else if a < b then none else Memory.read m a

/-- `v` at `a`, every other address as before. -/
def Memory.write : Memory → Nat → Byte → Memory
  | [], a, v => [(a, v)]
  | (b, w) :: m, a, v =>
    if a < b then (a, v) :: (b, w) :: m
    else if a = b then (a, v) :: m
    else (b, w) :: Memory.write m a v

/-- Every listed address is at least `n`, and the addresses rise strictly. -/
def Memory.wfFrom : Nat → Memory → Bool
  | _, [] => true
  | n, (a, _) :: m => decide (n ≤ a) && Memory.wfFrom (a + 1) m

/-- The canonical form: addresses strictly rising. -/
def Memory.wf (m : Memory) : Bool := Memory.wfFrom 0 m

/-- Every listed address is below `n`. -/
def Memory.below (n : Nat) (m : Memory) : Bool := m.all fun c => decide (c.1 < n)

/-- `vs` written from `a` on, lowest address first (rule R63). -/
def Memory.writeRun : Memory → Nat → List Byte → Memory
  | m, _, [] => m
  | m, a, v :: vs => Memory.writeRun (Memory.write m a v) (a + 1) vs

end Sys2Proof.Machine
end

