-- ==== Sys2Proof/Machine/State.lean ====
section
/-! DEFINITION. The state of the TLC (spec/10_state.md), its value after reset (rule R43), and the reasons a step can
stop. -/

namespace Sys2Proof.Machine

/-! ## The sequencer's position (rule R30): the labels of the pseudocode -/

/-- Labels of CONFIGURE (rule R153). -/
inductive CfgLabel where
  | c0 | c1 | c2 | c3 | c4
  | c5 (i : Fin 39)
  | c6 | c7 | c8 | c9 | c10 | c11 | c12 | c13 | c14
  deriving DecidableEq, Repr

/-- Labels of the pseudo-operation writeConfig (rule R134): entry `i`, and the return. -/
inductive WcLabel where
  | entry (i : Fin 39)
  | done
  deriving DecidableEq, Repr

/-- Labels of TRANSMIT (rule R171); a `p` stands for the prime of the chunked path. -/
inductive TxLabel where
  | t1 | t2 | t3 | t4 | t2p | t3p | t4p | t4pa | t4pb | t5 | t6 | t7 | t8
  deriving DecidableEq, Repr

/-- Labels of RX_STEP (rule R192). -/
inductive RxStepLabel where
  | s1 | s2 | s3 | s4 | s5
  deriving DecidableEq, Repr

/-- Labels of RX_LAST (rule R194). -/
inductive RxLastLabel where
  | z1 | z2 | z3 | z4
  deriving DecidableEq, Repr

/-- Labels of RX_COMPLETE (rule R196). -/
inductive RxCompleteLabel where
  | k1 | k2 | k3 | k4 | k5 | k6
  deriving DecidableEq, Repr

/-- Labels of RX_SERVICE (rule R197): the test, and V2 where RX_LAST has returned and RX_COMPLETE is next. -/
inductive RxServiceLabel where
  | v1 | v2
  deriving DecidableEq, Repr

/-- Labels of CSMA_SERVICE (rule R224). -/
inductive CsmaLabel where
  | a1 | a2 | a3 | a4 | a5 | a6 | a7 | a8 | a9 | a10 | a11 | a12
  deriving DecidableEq, Repr

/-- Labels of HOST_DISPATCH (rule R231). -/
inductive DispatchLabel where
  | h1 | h2 | h3 | h4
  deriving DecidableEq, Repr

/-- The sequencer's position: `LOOP`, or an operation and the label of its next micro-step (rule R30). -/
inductive Pos where
  /-- Between services (rule R287). -/
  | loop
  /-- The boot action of rule R281 is next: the notification is queued (rule R237; log entry 13). -/
  | boot
  /-- One bus transaction of the register protocol, whose bytes stand in `request`, is next (rules R102, R120; log
  entry 11). -/
  | direct
  | configure (l : CfgLabel)
  | writeConfig (l : WcLabel)
  | transmit (l : TxLabel)
  | rxStep (l : RxStepLabel)
  | rxLast (l : RxLastLabel)
  | rxComplete (l : RxCompleteLabel)
  | rxService (l : RxServiceLabel)
  | csma (l : CsmaLabel)
  | dispatch (l : DispatchLabel)
  deriving DecidableEq, Repr

/-! ## Marks and the trace -/

/-- The names of the model fault marks (rule R252). -/
inductive Mark where
  | rxLenZero | bufOverrun | txOverwrite | hostTxOverwrite | busTimeout
  deriving DecidableEq, Repr

/-- The set of marks (rule R33), one bit a mark. -/
structure Marks where
  rxLenZero : Bool := false
  bufOverrun : Bool := false
  txOverwrite : Bool := false
  hostTxOverwrite : Bool := false
  busTimeout : Bool := false
  deriving DecidableEq, Repr

/-- Is the mark set? -/
def Marks.has (m : Marks) : Mark → Bool
  | .rxLenZero => m.rxLenZero
  | .bufOverrun => m.bufOverrun
  | .txOverwrite => m.txOverwrite
  | .hostTxOverwrite => m.hostTxOverwrite
  | .busTimeout => m.busTimeout

/-- The set with one mark more. A mark is never cleared (rule R33). -/
def Marks.add (m : Marks) : Mark → Marks
  | .rxLenZero => { m with rxLenZero := true }
  | .bufOverrun => { m with bufOverrun := true }
  | .txOverwrite => { m with txOverwrite := true }
  | .hostTxOverwrite => { m with hostTxOverwrite := true }
  | .busTimeout => { m with busTimeout := true }

/-- What the outside sees of the TLC (rule R7): the trace is their list, oldest first. -/
inductive Event where
  /-- A bus transaction: the bytes sent and the bytes received (rule R120). -/
  | xact (tx rx : List Byte)
  /-- A settle delay (rule R154). -/
  | delay (d : Settle)
  /-- A completed RX frame given to the host link (rule R196). -/
  | handoff (bytes : List Byte)
  /-- A byte sent to the host (rules R236, R260). -/
  | sendByte (b : Byte)
  deriving DecidableEq, Repr

/-! ## The chip side (rules R37 to R39) -/

/-- The chip-side state that the TLC reaches only through bus transactions (rules R20, R37 to R39): the image that the
TLC's own transactions leave. A register nothing has written since the chip's reset is not listed: its value is a free
value, read by `Chip.readReg` and `Chip.readPa` (log entry 14). DESIGN CHOICE, unsafe: the FIFOs have no capacity, which
the source never states (rules R38, R301; log entry 34). -/
structure Chip where
  /-- The bytes written in configuration registers 0x00 to 0x28, write-only from the TLC (rule R37). -/
  cfgRegs : Memory
  /-- The draw that the other registers' values come from: 0 since the device's reset, `k + 1` since a reset of the chip
  at draw `k` (rules R37, R43). -/
  regDraw : Nat
  /-- The bytes written in the power-amplifier table, 8 entries (rule R38). -/
  paTable : Memory
  /-- The draw that the table's other entries come from, counted as `regDraw` is (rules R38, R43). -/
  paDraw : Nat
  /-- The TX FIFO, oldest byte first (rule R38). -/
  txFifo : List Byte
  /-- The RX FIFO, oldest byte first (rule R38). -/
  rxFifo : List Byte
  /-- The state the chip is in or was last asked for (rules R39, R80, R81). -/
  mode : ChipMode
  deriving DecidableEq, Repr

/-! ## The environment's script (log entries 1, 2, 9) -/

/-- What the external agents will do. Where a list is empty the free values of Config speak, at index `draws`. -/
structure Env where
  /-- Who acts next, the next one first (rule R12). -/
  moves : List Move
  /-- The chip's answers to the coming transactions (rule R11). -/
  answers : List Answer
  /-- The coming choices of rule R29. -/
  choices : List Bool
  /-- How many draws there have been: the index of the next free value. -/
  draws : Nat
  deriving DecidableEq, Repr

/-! ## The state -/

/-- Every element of spec/10_state.md, then the fields the model itself needs. INVENTORY.md lists each with its rule. -/
structure State where
  /-- `TXBUF`, indices 0..256 (rule R21). -/
  txbuf : Memory
  /-- `RXBUF`, indices 0..254 (rule R22). -/
  rxbuf : Memory
  /-- `rx_cursor`, 0..255 (rule R23). -/
  rxCursor : Nat
  /-- `rx_expected` (rule R24). -/
  rxExpected : Byte
  /-- `new_packet` (rule R25). -/
  newPacket : Bool
  /-- `rx_active` (rule R26). -/
  rxActive : Bool
  /-- `irq_en` (rule R28). -/
  irqEn : Bool
  /-- `edge_pending` (rule R29). -/
  edgePending : Bool
  /-- `seq` (rule R30). -/
  seq : Pos
  /-- The caller an operation returns to: `seq <- caller` of rules R171, R192, R194. Its value at reset, `LOOP`, is the
  model's (log entry 5). -/
  caller : Pos
  /-- `marks` (rule R33). -/
  marks : Marks
  /-- `tx_sent` (rule R31). -/
  txSent : Nat
  /-- The operand `csc` of the CONFIGURE in progress (rule R150). -/
  csc : Byte
  /-- `cfg_table` (rule R32). -/
  cfgTable : List Byte
  /-- `pa_table` with its header (rule R32). -/
  paTable : List Byte
  /-- `tx_pending` (rule R34). -/
  txPending : Bool
  /-- `backing_off` (rule R34). -/
  backingOff : Bool
  /-- `backoff_byte` (rule R34). -/
  backoffByte : Byte
  /-- `backoff_period`, 0..255000 (rule R34). -/
  backoffPeriod : Nat
  /-- `backoff_elapsed` (rules R34, R226). -/
  backoffElapsed : Nat
  /-- `c`, the CCA sample between A2 and A3 (rule R224). -/
  ccaSample : Bool
  /-- `HRX`, indices 0..254 (rule R35). -/
  hrx : Memory
  /-- `hrx_cursor`, 0..255 (rule R35). -/
  hrxCursor : Nat
  /-- `dispatch_flag` (rule R35). -/
  dispatchFlag : Bool
  /-- `tag`, read at H1 and used at H2 (rule R231). -/
  dispTag : Byte
  /-- `n`, read at H1 and used at H2 (rule R231). -/
  dispLen : Nat
  /-- `HTX`, indices 0..254 (rule R36). -/
  htx : Memory
  /-- `htx_cursor`, 0..255 (rule R36). -/
  htxCursor : Nat
  /-- `htx_len`, 0..255 (rule R36). -/
  htxLen : Nat
  /-- `send_pending` (rule R36). -/
  sendPending : Bool
  /-- Output pin `cs_n`, active low (rule R40). -/
  csN : Bool
  /-- Output pin `led_rx` (rule R40). -/
  ledRx : Bool
  /-- Output pin `led_s0` (rule R40). -/
  ledS0 : Bool
  /-- Output pin `led_s1` (rule R40). -/
  ledS1 : Bool
  /-- Input pin `sync_in` (rule R40). -/
  syncIn : Bool
  /-- Input pin `cca_in` (rule R40). -/
  ccaIn : Bool
  /-- The free-running microsecond counter (rule R261). -/
  tickCount : Nat
  /-- `rx`, the bytes received in the last transaction, from which a transaction's result is read (rule R120). -/
  rx : List Byte
  /-- The bytes of the transaction that position `direct` runs (log entry 11). -/
  request : List Byte
  /-- The ordered trace (rules R7, R70, R120). -/
  trace : List Event
  /-- The chip-side state (rules R37 to R39). -/
  chip : Chip
  /-- The environment's script (rule R12). -/
  env : Env
  deriving DecidableEq, Repr

/-! ## Reasons to stop -/

/-- The TLC has no fault: "no synchronous exception, no error code, no error flag and no error output" (rule R250). No
step answers with a fault. -/
inductive Fault where
  deriving DecidableEq, Repr

/-- Reasons a step gives no meaning. -/
inductive Refusal where
  /-- An instruction without a meaning in this model. Raised by an arm of `exec` alone; safe: the model stops. -/
  | notModelled (mnemonic : String)
  /-- Position `direct` holds bytes that no bus transaction of the TLC has. Raised by the fetch, never by a meaning (rule
  R101, U16: "the model's transaction type has no such constructor"); safe: the model stops. -/
  | notATransaction (why : Reject)
  deriving DecidableEq, Repr

/-! ## Reset (rules R43, R281) -/

/-- The chip side at reset: chip-defined (rules R43, R283). Nothing is written, so every register and table entry holds
the free value of draw 0 (log entry 14); the FIFOs and the state are named (log entry 5). -/
def Chip.atReset : Chip where
  cfgRegs := []
  regDraw := 0
  paTable := []
  paDraw := 0
  txFifo := []
  rxFifo := []
  mode := .unknown

/-- The machine right after reset, the boot actions done (rules R43, R281). An element that rule R43 calls unspecified or
does not list, `caller` among them, has a named value here (log entry 5); `Safety.ResetState` is the set of all that rule R43 admits. -/
def State.reset : State where
  txbuf := [(0, hdrFifoWb), (1, 0)]
  rxbuf := []
  rxCursor := 0
  rxExpected := 0
  newPacket := false
  rxActive := false
  irqEn := false
  edgePending := false
  seq := .loop
  caller := .loop
  marks := {}
  txSent := 0
  csc := 0
  cfgTable := []
  paTable := []
  txPending := false
  backingOff := false
  backoffByte := 0
  backoffPeriod := 0
  backoffElapsed := 0
  ccaSample := false
  hrx := []
  hrxCursor := 0
  dispatchFlag := false
  dispTag := 0
  dispLen := 0
  htx := [(0, Config.tagBoot), (1, Config.sentinel)]
  htxCursor := 0
  htxLen := 2
  sendPending := true
  csN := true
  ledRx := false
  ledS0 := false
  ledS1 := false
  syncIn := false
  ccaIn := false
  tickCount := 0
  rx := []
  request := []
  trace := []
  chip := Chip.atReset
  env := { moves := [], answers := [], choices := [], draws := 0 }

end Sys2Proof.Machine
end

