-- ==== Sys2Proof/Machine/Flags.lean ====
section
/-! DEFINITION. The conditions the rules test: occupancies, the state nibble, the completion test of the driving loop, the
enabling conditions of the services, and the RX state read off the flags. -/

namespace Sys2Proof.Machine

/-! ## What a transaction's received bytes say (rules R39, R131) -/

/-- `rx[i]` of the last transaction. A transaction receives as many bytes as it sends (rule R120), so on every path of the
rules the byte is there. -/
def State.rxAt (s : State) (i : Nat) : Byte := s.rx.getD i (Config.freeByte s.env.draws i)

/-- The chip status byte, `rx[0]` of a strobe (rule R121). -/
def State.chipStatus (s : State) : Byte := s.rxAt 0

/-- The first status byte `s0`, `rx[1]` of an RSTATUS (rule R131). -/
def State.statusByte0 (s : State) : Byte := s.rxAt 1

/-- The second status byte `s1`, `rx[2]` of an RSTATUS, which no rule uses (rule R131). -/
def State.statusByte1 (s : State) : Byte := s.rxAt 2

/-- The data byte of an RFIFO1, `rx[1]` (rule R132). -/
def State.fifoByte (s : State) : Byte := s.rxAt 1

/-- The occupancy a TXBYTES or RXBYTES read reports: `s0 & OCC_MASK`, an unsigned integer (rules R9, R131). -/
def State.occupancy (s : State) : Nat := (s.statusByte0 &&& Config.occMask).toNat

/-- The state code `s[7:4]` of a chip status byte (rules R39, R174). -/
def stateCode (status : Byte) : Nat := (status >>> 4).toNat

/-- "the upper nibble (state code) reads 0": the chip is idle (rule R174). -/
def chipIsIdle (status : Byte) : Bool := decide (stateCode status = 0)

/-! ## RX (rules R27, R192, R197) -/

/-- The RX states of rules R27 and R190, but COMPLETE, which is a position of `seq`. -/
inductive RxState where
  | idle | armed | draining
  deriving DecidableEq, Repr

/-- The RX state read off the flags (rule R27). -/
def State.rxState (s : State) : RxState :=
  if s.rxActive then (if s.newPacket then .armed else .draining) else .idle

/-- The gate of RX_STEP: occupancy above 1 (rule R192). -/
def State.rxGateOpen (s : State) : Bool := decide (s.occupancy > Config.rxGate)

/-- The test V1: the last-byte path is due (rule R197). -/
def State.lastByteDue (s : State) : Bool := !s.newPacket && decide (s.rxCursor + 1 ≥ s.rxExpected.toNat)

/-! ## Channel access (rule R224) -/

/-- The test A3: the sample says that the channel is clear. -/
def State.channelClear (s : State) : Bool := decide (s.ccaSample = Config.ccaClearLevel)

/-- The test A11: the period has passed, strictly (rule R227). -/
def State.backoffOver (s : State) : Bool := decide (s.backoffElapsed > s.backoffPeriod)

/-! ## The main loop (rule R287) -/

/-- The services that are enabled at `LOOP`, as instructions (rule R287). -/
def State.enabledServices (s : State) : List Instr :=
  (if s.rxActive then [.rxService] else []) ++ (if s.txPending then [.csmaService] else []) ++
    (if s.dispatchFlag then [.hostDispatch] else []) ++ (if s.sendPending then [.hostTxDrain] else [])

end Sys2Proof.Machine
end

