-- ==== Sys2Proof/Machine/Operands.lean ====
section
/-! DEFINITION. How the operands of the operations are formed (rules R8, R99, R150 to R152), and how the buffers are read
(rule R60). -/

namespace Sys2Proof.Machine

/-! ## Buffers (rules R60, R63) -/

/-- The bytes written in a buffer. -/
def State.bufMem (s : State) : BufId → Memory
  | .txbuf => s.txbuf
  | .rxbuf => s.rxbuf
  | .hrx => s.hrx
  | .htx => s.htx

/-- Byte `i` of a buffer: what was written there last, else what it held at reset (log entry 6). -/
def State.readBuf (s : State) (b : BufId) (i : Nat) : Byte :=
  ((s.bufMem b).read i).getD (Config.unwrittenByte b i)

/-- `n` bytes of a buffer from index `i` on (rule R63). -/
def State.readRun (s : State) (b : BufId) (i : Nat) : Nat → List Byte
  | 0 => []
  | n + 1 => s.readBuf b i :: s.readRun b (i + 1) n

/-! ## The chip's registers and power table (rules R37, R38, R43) -/

/-- What configuration register `a` of the chip holds: the byte written last, else the chip's own (log entry 14). -/
def Chip.readReg (c : Chip) (a : Nat) : Byte := (Memory.read c.cfgRegs a).getD (Config.freeChipReg c.regDraw a)

/-- What entry `k` of the chip's power table holds: the level written last, else the chip's own (log entry 14). -/
def Chip.readPa (c : Chip) (k : Nat) : Byte := (Memory.read c.paTable k).getD (Config.freePaLevel c.paDraw k)

/-! ## TRANSMIT (rules R99 b to e, R171) -/

/-- `L = TXBUF[1]`, the payload length (rule R21). -/
def State.txLength (s : State) : Nat := (s.readBuf .txbuf 1).toNat

/-- The bytes of the single burst, `TXBUF[0 .. L+2)` (rule R171 T2). -/
def State.singleBurst (s : State) : List Byte := s.readRun .txbuf 0 (s.txLength + 2)

/-- The bytes of the first burst of the chunked path, `TXBUF[0 .. 65)` (rule R171 T2'). -/
def State.firstBurst (s : State) : List Byte := s.readRun .txbuf 0 Config.txFirstBurst

/-- The size of the next top-up, `min(24, L - tx_sent)` (rule R99 d). -/
def State.chunkSize (s : State) : Nat := min Config.txChunk (s.txLength - s.txSent)

/-- The bytes of the next top-up (rule R171 T4'b). -/
def State.topUp (s : State) : List Byte := hdrFifoWb :: s.readRun .txbuf (2 + s.txSent) s.chunkSize

/-! ## CONFIGURE (rules R99 g, R150 to R152) -/

/-- `KIND_OF`: 2FSK for a code up to 7, else OOK (rule R150). -/
def kindOf (csc : Byte) : Kind := if csc.toNat ≤ Config.fskMax then .fsk2 else .ook

/-- `CFG_ADDR`: entry `i`'s register address. The 41 addresses 0x00..0x28 without two of 0x01..0x27, in rising order, so
that the first is 0x00 and the last 0x28 (rule R8, decision D4; log entry 4). -/
def cfgAddr (i : Fin 39) : Fin 41 :=
  let lo := min (Config.skipOne.val + 1) (Config.skipTwo.val + 1)
  let hi := max (Config.skipOne.val + 1) (Config.skipTwo.val + 2)
  if i.val < lo then ⟨i.val, by omega⟩
  else if i.val + 1 < hi then ⟨i.val + 1, by omega⟩
  else ⟨i.val + 2, by omega⟩

/-- `PROFILE(kind, chan)(i)` (rule R151). -/
def profile (kind : Kind) (chan : Byte) (i : Fin 39) : Byte :=
  if i = Config.idxChan then Config.profileChan chan
  else if Config.idxMod i then Config.profileMod kind i
  else Config.profileConst i

/-- `cfg_table` for a channel-select code (rule R151). -/
def cfgTableOf (csc : Byte) : List Byte := (List.finRange 39).map (profile (kindOf csc) (Config.chanOf csc))

/-- The 8 power-ramp levels of a kind (rule R152). -/
def paLevels : Kind → List Byte
  | .fsk2 => (List.finRange 8).map Config.paFsk
  | .ook => (List.finRange 8).map Config.paOok

/-- `pa_table` for a channel-select code: the header, then the levels (rule R152). -/
def paTableOf (csc : Byte) : List Byte := hdrPaWb :: paLevels (kindOf csc)

/-! ## Channel access (rule R99 f) -/

/-- `backoff_period = backoff_byte * 1000` (rule R99 f). -/
def periodOf (b : Byte) : Nat := b.toNat * Config.ticksPerUnit

/-! ## Host frames (rules R100, R104, R231) -/

/-- `HRX[i]` of the frame being dispatched: beyond the frame's end "a `draw`" (rules R104, R232; log entry 10). -/
def State.frameByte (s : State) (i : Nat) : Byte :=
  if i < s.dispLen then s.readBuf .hrx i else Config.staleByte s.env.draws i

/-- The bytes HOST_DISPATCH works on at H2: the tag read at H1, and `HRX[1]`, `HRX[2]` for a configuration command (rule
R232), `HRX[1 .. n)` for any other tag (rules R233, R234). -/
def State.hostFrame (s : State) : List Byte :=
  s.dispTag ::
    (if s.dispTag = Config.tagCfg then [s.frameByte 1, s.frameByte 2] else s.readRun .hrx 1 (s.dispLen - 1))

end Sys2Proof.Machine
end

