-- ==== Sys2Proof/Machine/Ops.lean ====
section
/-! DEFINITION. The named operations that the meanings share: marks, buffer writes, the bus transaction and its kinds,
delays, the hand-off, and taking an interrupt and returning from it. -/

namespace Sys2Proof.Machine

/-! ## Position, marks, trace -/

/-- `seq <- p` (rule R10). -/
def State.goto (s : State) (p : Pos) : State := { s with seq := p }

/-- `seq <- caller`. -/
def State.ret (s : State) : State := { s with seq := s.caller }

/-- An operation is started: it will return to `p` (rules R171, R192, R194). -/
def State.callFrom (s : State) (p : Pos) : State := { s with caller := p }

/-- `mark m`: a sticky model fault mark (rules R10, R252). -/
def State.mark (s : State) (m : Mark) : State := { s with marks := s.marks.add m }

/-- An event is appended to the trace (rule R120). -/
def State.log (s : State) (e : Event) : State := { s with trace := s.trace ++ [e] }

/-- `Delay(T)`: an event in the trace and nothing else (rules R10, R12). -/
def State.delay (s : State) (d : Settle) : State := s.log (.delay d)

/-! ## Buffer writes (rules R60, R64) -/

/-- A buffer's bytes replaced. -/
def State.setBuf (s : State) (b : BufId) (m : Memory) : State :=
  match b with
  | .txbuf => { s with txbuf := m }
  | .rxbuf => { s with rxbuf := m }
  | .hrx => { s with hrx := m }
  | .htx => { s with htx := m }

/-- `BUF[i] <- v`. Outside the buffer: `mark BufOverrun`, and the access is not performed (rule R64). -/
def State.writeBuf (s : State) (b : BufId) (i : Nat) (v : Byte) : State :=
  if i < Config.cap b then s.setBuf b ((s.bufMem b).write i v) else s.mark .bufOverrun

/-- `BUF[i + k] <- vs[k]` for every `k`, in order. -/
def State.writeRun (s : State) (b : BufId) : Nat → List Byte → State
  | _, [] => s
  | i, v :: vs => (s.writeBuf b i v).writeRun b (i + 1) vs

/-! ## The chip side of a transaction (rules R37, R38, R81, R130, R132; log entry 14) -/

/-- The chip side where what it holds is chip-defined: after its reset, or after bytes the TLC's transactions never have.
Every register, table entry and FIFO holds a free value, drawn at `k`. -/
def Chip.chipDefined (k : Nat) : Chip where
  cfgRegs := []
  regDraw := k + 1
  paTable := []
  paDraw := k + 1
  txFifo := Config.freeFifo k true
  rxFifo := Config.freeFifo k false
  mode := .unknown

/-- The power table takes a burst: byte `k` goes to entry `k` (rule R130). A burst of more than 8 bytes has bytes without
an entry, of which the source says nothing: the table is drawn anew (log entry 14). -/
def Chip.takeLevels (c : Chip) (k : Nat) (levels : List Byte) : Chip :=
  if levels.length ≤ 8 then { c with paTable := Memory.writeRun c.paTable 0 levels }
  else { c with paTable := [], paDraw := k + 1 }

/-- The chip takes one transaction of the TLC (rules R75 to R81, R129 to R133). A FIFO write appends whatever the FIFO
holds already: DESIGN CHOICE, unsafe, the source states no capacity (rules R38, R130; log entry 34). -/
def Chip.takeInstr (c : Chip) (k : Nat) : Instr → Chip
  | .sres => Chip.chipDefined k
  | .scal => { c with mode := .calibrating }
  | .srx => { c with mode := .receiving }
  | .stx => { c with mode := .transmitting }
  | .sidle => { c with mode := .idle }
  | .sfrx => { c with rxFifo := [] }
  | .wreg a v => { c with cfgRegs := Memory.write c.cfgRegs a.val v }
  | .wburstPatable levels => c.takeLevels k levels
  | .wburstFifo data => { c with txFifo := c.txFifo ++ data }
  | .rfifo1 => { c with rxFifo := c.rxFifo.drop 1 }
  | .rburst a n => if a.toNat = Config.codes.aFifo.toNat then { c with rxFifo := c.rxFifo.drop n } else c
  | .snop | .rstatusMarcstate | .rstatusTxbytes | .rstatusRxbytes => c
  -- No bus transaction.
  | .hostConfig _ _ | .hostData _ | .hostBootnote | .hostOther _ _ | .configure _ | .writeConfig _ | .transmit => c
  | .syncEdge | .rxStep | .rxLast | .rxComplete | .rxService | .csmaService | .hostRxByte _ | .hostDispatch => c
  | .hostTxDrain => c

/-- The chip takes the bytes of one transaction, which it tells apart as rule R97 does. What it does with any others is
outside the spec (rule R101). -/
def Chip.take (c : Chip) (k : Nat) (tx : List Byte) : Chip :=
  match decodeBus tx with
  | .ok i => c.takeInstr k i
  | .error _ => Chip.chipDefined k

/-- The oldest byte of the TX FIFO goes on air. If that leaves the FIFO empty while bytes of the frame are still to come,
"the chip would underflow and abort the frame" (rule R80; log entry 36). -/
def Chip.sendByte (c : Chip) (more : Bool) : Chip :=
  { c with
    txFifo := c.txFifo.drop 1
    mode := if c.mode = .transmitting ∧ more = true ∧ c.txFifo.length ≤ 1 then .aborted else c.mode }

/-- The chip acts on its own (rules R75, R80, R81). A received byte is appended whatever the RX FIFO holds already: DESIGN
CHOICE, unsafe, the image never overflows (rule R301; log entry 34). -/
def Chip.act (c : Chip) : ChipMove → Chip
  | .rxByte b => { c with rxFifo := c.rxFifo ++ [b] }
  | .txByte more => c.sendByte more
  | .mode m => { c with mode := m }

/-! ## The bus transaction (rules R120, R135, R136) -/

/-- The bytes an answer gives. -/
def answerBytes : Answer → List Byte
  | .reply bytes => bytes
  | .timeout bytes _ => bytes

/-- Does the chip take the sent bytes, all of them or none? After a time-out, the answer says (rule R68; log entry 38). -/
def answerTaken : Answer → Bool
  | .reply _ => true
  | .timeout _ taken => taken

/-- Did the exchange time out? -/
def answerTimedOut : Answer → Bool
  | .reply _ => false
  | .timeout _ _ => true

/-- The chip's answer to the next transaction: the script's, else a free one (rule R11). -/
def State.nextAnswer (s : State) : Answer := s.env.answers.headD (Config.freeAnswer s.env.draws)

/-- The bytes received while `n` are sent: `len(rx) = len(tx)` (rule R120). -/
def State.received (s : State) (n : Nat) : List Byte :=
  (List.range n).map fun i => (answerBytes s.nextAnswer).getD i (Config.freeByte s.env.draws i)

/-- `select()`: the active-low select line goes low (rules R40, R120). -/
def State.select (s : State) : State := { s with csN := false }

/-- `deselect()`: the select line goes high (rules R40, R120). -/
def State.deselect (s : State) : State := { s with csN := true }

/-- The exchange of rule R120: `tx` goes out in index order and `rx` comes back; the status LEDs change in a way the source
does not describe (rule R135); a time-out changes nothing but the informational mark (rule R136). -/
def State.exchange (s : State) (tx : List Byte) : State :=
  { s with
    rx := s.received tx.length
    trace := s.trace ++ [.xact tx (s.received tx.length)]
    ledS0 := Config.freeLed s.env.draws false
    ledS1 := Config.freeLed s.env.draws true
    chip := if answerTaken s.nextAnswer then s.chip.take s.env.draws tx else s.chip
    marks := if answerTimedOut s.nextAnswer then s.marks.add .busTimeout else s.marks
    env := { s.env with answers := s.env.answers.tail, draws := s.env.draws + 1 } }

/-- `Xact(tx) -> rx`, the one primitive under all transactions (rule R120). -/
def State.xact (s : State) (tx : List Byte) : State := ((s.select).exchange tx).deselect

/-- `Strobe(c) -> s`; the result is `chipStatus` (rule R121). -/
def State.strobe (s : State) (a : Byte) : State := s.xact [hdrSingleWrite a]

/-- `WReg(a, v)` (rule R129). -/
def State.wreg (s : State) (a : Fin 41) (v : Byte) : State := s.xact [hdrSingleWrite (BitVec.ofNat 8 a.val), v]

/-- `WBurst(a, bytes)` (rule R130). -/
def State.wburst (s : State) (a : Byte) (bytes : List Byte) : State := s.xact (hdrBurstWrite a :: bytes)

/-- `RStatus(a) -> (s0, s1)`; the results are `statusByte0`, `statusByte1` (rule R131). -/
def State.rstatus (s : State) (a : Byte) : State := s.xact [hdrBurstRead a, Config.fill, Config.fill]

/-- `RFifo1() -> b`; the result is `fifoByte` (rule R132). -/
def State.rfifo1 (s : State) : State := s.xact [hdrFifoR1, Config.fill]

/-- `RBurst(a, n) -> bytes`; the result is `rx` without its first byte (rule R133). -/
def State.rburst (s : State) (a : Byte) (n : Nat) : State := s.xact (hdrBurstRead a :: List.replicate n Config.fill)

/-- Entry `i` of writeConfig: `WReg(CFG_ADDR(i), table[i])` (rule R134). A table without an entry `i` has no meaning in
the source: `mark BufOverrun`, and the access is not performed (rule R64). -/
def State.writeEntry (s : State) (i : Fin 39) : State :=
  match s.cfgTable[i.val]? with
  | some v => s.wreg (cfgAddr i) v
  | none => s.mark .bufOverrun

/-! ## Taking an interrupt, and the return from it (rules R191, R253 to R258) -/

/-- The next choice of rule R29: the script's, else a free one. -/
def State.nextChoice (s : State) : Bool := s.env.choices.headD (Config.freeChoice s.env.draws)

/-- The choice has been made. -/
def State.dropChoice (s : State) : State :=
  { s with env := { s.env with choices := s.env.choices.tail, draws := s.env.draws + 1 } }

/-- Interrupt entry and return in one, for either source. Entry "saves and changes nothing ... except what the handler's
rule writes; the sequencer's position `seq` is unchanged" (rule R255); there is no return instruction: the handler ends
when its atomic step is done (rule R257). -/
def State.takeInterrupt (s : State) (handler : State → State) : State :=
  let t := handler s
  { t with seq := s.seq, caller := s.caller }

/-- The body of the sync-edge handler (rule R191). -/
def State.syncHandler (s : State) : State := { s with newPacket := true, rxActive := true, ledRx := true }

/-- A rising edge of `sync_in`: with the interrupt enabled the handler runs (rule R191); masked, the edge is remembered or
not, as the choice says (rule R29). -/
def State.takeSyncEdge (s : State) : State :=
  if s.irqEn then s.takeInterrupt State.syncHandler
  else if s.nextChoice then { s.dropChoice with edgePending := true } else s.dropChoice

/-- `irq_en <- 1`, and the pending-edge choice: a remembered edge is delivered once or dropped (rule R29). -/
def State.rearm (s : State) : State :=
  if s.edgePending then
    if s.nextChoice then ({ s.dropChoice with irqEn := true, edgePending := false }).takeInterrupt State.syncHandler
    else { s.dropChoice with irqEn := true, edgePending := false }
  else { s with irqEn := true }

/-- `irq_en <- 0`. -/
def State.maskIrq (s : State) : State := { s with irqEn := false }

/-- The body of the byte-received handler (rule R230); a byte that finds the accumulator full is dropped and marked. -/
def State.byteHandler (s : State) (b : Byte) : State :=
  if s.hrxCursor < Config.cap .hrx then
    { s.writeBuf .hrx s.hrxCursor b with
      hrxCursor := s.hrxCursor + 1
      dispatchFlag := if b = Config.sentinel then true else s.dispatchFlag }
  else s.mark .bufOverrun

/-! ## RX and the host link -/

/-- `RXBUF[rx_cursor] <- b; rx_cursor <- rx_cursor + 1` (rules R192, R194). Outside RXBUF: `mark BufOverrun` and no store
(log entry 23). -/
def State.storeRx (s : State) (b : Byte) : State :=
  if s.rxCursor < Config.cap .rxbuf then { s.writeBuf .rxbuf s.rxCursor b with rxCursor := s.rxCursor + 1 }
  else s.mark .bufOverrun

/-- A frame is placed in the host TX accumulator to be drained (rules R235, R237). -/
def State.queueToHost (s : State) (bytes : List Byte) : State :=
  { s.writeRun .htx 0 bytes with htxLen := bytes.length, htxCursor := 0, sendPending := true }

/-- `mark HostTxOverwrite` where the previous frame is still being sent (rule R235). -/
def State.markHostTx (s : State) : State := if s.sendPending then s.mark .hostTxOverwrite else s

/-- `handoff(bytes)`: a completed RX frame goes to the host link (rule R235). -/
def State.handoff (s : State) (bytes : List Byte) : State := ((s.markHostTx).log (.handoff bytes)).queueToHost bytes

/-- `mark TxOverwrite` where the earlier frame has not been sent (rule R233). -/
def State.markTx (s : State) : State := if s.txPending then s.mark .txOverwrite else s

/-- The frame is copied into TXBUF and is pending: `TXBUF[1] <- n; TXBUF[2 + i] <- HRX[i]` (rule R233). -/
def State.loadTx (s : State) (frame : List Byte) : State :=
  { ((s.markTx).writeBuf .txbuf 1 (BitVec.ofNat 8 frame.length)).writeRun .txbuf 2 frame with txPending := true }

end Sys2Proof.Machine
end

