-- ==== Sys2Proof/Machine/Strobe.lean ====
section
/-! DEFINITION. The seven strobes (rules R121 to R128). Each is one bus transaction of one byte; the chip status byte it
returns is `State.chipStatus` of the next state. -/

namespace Sys2Proof.Machine

/-- What a step answers. -/
abbrev Result : Type := Host.Outcome State Fault Refusal

/-- `SRES`, soft-reset: asks the chip to reset itself; the TLC's own state is not changed by it (rule R122). -/
def execSres (s : State) : Result := .next (s.strobe Config.codes.aSres)

/-- `SCAL`, calibrate (rule R124). -/
def execScal (s : State) : Result := .next (s.strobe Config.codes.aScal)

/-- `SRX`, enable-RX (rule R126). -/
def execSrx (s : State) : Result := .next (s.strobe Config.codes.aSrx)

/-- `STX`, enable-TX (rule R127). -/
def execStx (s : State) : Result := .next (s.strobe Config.codes.aStx)

/-- `SIDLE`, idle (rule R123). -/
def execSidle (s : State) : Result := .next (s.strobe Config.codes.aSidle)

/-- `SFRX`, flush-RX: it does not touch RXBUF, `rx_cursor` or any TLC flag (rule R125). -/
def execSfrx (s : State) : Result := .next (s.strobe Config.codes.aSfrx)

/-- `SNOP`, no-op: its returned status byte is the only thing used (rule R128). -/
def execSnop (s : State) : Result := .next (s.strobe Config.codes.aSnop)

end Sys2Proof.Machine
end

