-- ==== Sys2Proof/Machine/Access.lean ====
section
/-! DEFINITION. The register, burst, FIFO and status accesses (rules R129 to R133). Each is one bus transaction; the bytes
it returns are read from `rx` of the next state. -/

namespace Sys2Proof.Machine

/-- `WREG a, v` (rule R129). -/
def execWreg (a : Fin 41) (v : Byte) (s : State) : Result := .next (s.wreg a v)

/-- `WBURST PATABLE, levels` (rule R130). -/
def execWburstPatable (levels : List Byte) (s : State) : Result := .next (s.wburst Config.codes.aPatable levels)

/-- `WBURST FIFO, data` (rule R130). -/
def execWburstFifo (data : List Byte) (s : State) : Result := .next (s.wburst Config.codes.aFifo data)

/-- `RFIFO1` (rule R132). -/
def execRfifo1 (s : State) : Result := .next s.rfifo1

/-- `RBURST a, n` (rule R133). -/
def execRburst (a : ChipAddr) (n : Nat) (s : State) : Result := .next (s.rburst (a.zeroExtend 8) n)

/-- `RSTATUS MARCSTATE` (rule R131). -/
def execRstatusMarcstate (s : State) : Result := .next (s.rstatus Config.codes.aMarcstate)

/-- `RSTATUS TXBYTES` (rule R131). -/
def execRstatusTxbytes (s : State) : Result := .next (s.rstatus Config.codes.aTxbytes)

/-- `RSTATUS RXBYTES` (rule R131). -/
def execRstatusRxbytes (s : State) : Result := .next (s.rstatus Config.codes.aRxbytes)

end Sys2Proof.Machine
end

