-- ==== Sys2Proof/Machine/Transmit.lean ====
section
/-! DEFINITION. TRANSMIT, the TX packet FIFO fill engine (rules R170 to R178). Its meaning is its next micro-step (log
entry 7); a poll label is one micro-step an iteration. -/

namespace Sys2Proof.Machine

/-- The path selection after T1: one unsigned comparison of `L` with 63 (rule R171). -/
def State.txPath (s : State) : TxLabel := if s.txLength ≤ Config.txSingleMax then .t2 else .t2p

/-- T3': enable-TX, and 63 payload bytes are counted as written (rule R171). -/
def State.startChunks (s : State) : State := { s.strobe Config.codes.aStx with txSent := 63 }

/-- T4'b: with the occupancy at most 32 the next chunk is written, else nothing (rule R173). -/
def State.refill (s : State) : State :=
  if s.occupancy ≤ Config.txRefillAt then { s.xact s.topUp with txSent := s.txSent + s.chunkSize } else s

/-- One micro-step of TRANSMIT (rule R171). -/
def transmitStep (l : TxLabel) (s : State) : State :=
  match l with
  | .t1 => (s.strobe Config.codes.aSidle).goto (.transmit s.txPath)
  | .t2 => (s.xact s.singleBurst).goto (.transmit .t3)
  | .t3 => (s.strobe Config.codes.aStx).goto (.transmit .t4)
  | .t4 =>
    let t := s.rstatus Config.codes.aTxbytes
    t.goto (.transmit (if t.occupancy = 0 then .t5 else .t4))
  | .t2p => (s.xact s.firstBurst).goto (.transmit .t3p)
  | .t3p => s.startChunks.goto (.transmit .t4p)
  | .t4p => s.goto (.transmit (if s.txSent < s.txLength then .t4pa else .t5))
  | .t4pa => (s.rstatus Config.codes.aTxbytes).goto (.transmit .t4pb)
  | .t4pb => s.refill.goto (.transmit .t4p)
  | .t5 =>
    let t := s.strobe Config.codes.aSnop
    t.goto (.transmit (if chipIsIdle t.chipStatus then .t6 else .t5))
  | .t6 => (s.strobe Config.codes.aSfrx).goto (.transmit .t7)
  | .t7 => (s.strobe Config.codes.aSrx).goto (.transmit .t8)
  | .t8 => s.ret

/-- TRANSMIT is started and will return to `back`. -/
def startTransmit (back : Pos) (s : State) : State := transmitStep .t1 (s.callFrom back)

/-- `TRANSMIT` (rule R171). -/
def execTransmit (s : State) : Result :=
  match s.seq with
  | .transmit l => .next (transmitStep l s)
  | p => .next (startTransmit p s)

end Sys2Proof.Machine
end

