-- ==== Sys2Proof/Machine/Csma.lean ====
section
/-! DEFINITION. CSMA_SERVICE, the channel access scheduler (rules R223 to R228). Its meaning is its next micro-step (log
entry 7); at A5 and until TRANSMIT returns, that is TRANSMIT's. -/

namespace Sys2Proof.Machine

/-- One micro-step of CSMA_SERVICE (rule R224). -/
def csmaStep (l : CsmaLabel) (s : State) : State :=
  match l with
  | .a1 => s.goto (.csma (if s.backingOff then .a11 else .a2))
  | .a2 => { s with ccaSample := s.ccaIn }.goto (.csma .a3)
  | .a3 => s.goto (.csma (if s.channelClear then .a4 else .a8))
  | .a4 => s.maskIrq.goto (.csma .a5)
  | .a5 => startTransmit (.csma .a6) s
  | .a6 => s.rearm.goto (.csma .a7)
  | .a7 => { s with txPending := false }.goto (.csma .a12)
  | .a8 => { s with backoffElapsed := 0 }.goto (.csma .a9)
  | .a9 => { s with backoffPeriod := periodOf s.backoffByte }.goto (.csma .a10)
  | .a10 => { s with backingOff := true }.goto (.csma .a12)
  | .a11 => { s with backingOff := s.backingOff && !s.backoffOver }.goto (.csma .a12)
  | .a12 => s.goto .loop

/-- `CSMA_SERVICE` (rule R224). -/
def execCsmaService (s : State) : Result :=
  match s.seq with
  | .csma l => .next (csmaStep l s)
  | _ => .next (csmaStep .a1 s)

end Sys2Proof.Machine
end

