-- ==== Sys2Proof/Machine/Configure.lean ====
section
/-! DEFINITION. CONFIGURE (rules R150 to R156) and the pseudo-operation writeConfig (rule R134). An operation's meaning is
its next micro-step: where `seq` stands inside the operation, the one labelled there; anywhere else the operation is
started, which is its first micro-step (log entry 7). -/

namespace Sys2Proof.Machine

/-- The label after C5.i: the next entry, or C6 after the last one. -/
def cfgAfterEntry (i : Fin 39) : CfgLabel := if h : i.val + 1 < 39 then .c5 ⟨i.val + 1, h⟩ else .c6

/-- C0: both tables are built, complete before the first transaction (rules R151 to R153). -/
def State.buildTables (s : State) (csc : Byte) : State :=
  { s with csc := csc, cfgTable := cfgTableOf csc, paTable := paTableOf csc }

/-- One micro-step of CONFIGURE (rule R153). -/
def configureStep (csc : Byte) (l : CfgLabel) (s : State) : State :=
  match l with
  | .c0 => (s.buildTables csc).goto (.configure .c1)
  | .c1 => s.maskIrq.goto (.configure .c2)
  | .c2 => (s.delay .resetPulse).goto (.configure .c3)
  | .c3 => (s.strobe Config.codes.aSres).goto (.configure .c4)
  | .c4 => (s.delay .postReset).goto (.configure (.c5 0))
  | .c5 i => (s.writeEntry i).goto (.configure (cfgAfterEntry i))
  | .c6 => (s.xact s.paTable).goto (.configure .c7)
  | .c7 => (s.strobe Config.codes.aSidle).goto (.configure .c8)
  | .c8 => (s.strobe Config.codes.aScal).goto (.configure .c9)
  | .c9 => (s.delay .postCal).goto (.configure .c10)
  | .c10 => (s.strobe Config.codes.aSidle).goto (.configure .c11)
  | .c11 => (s.strobe Config.codes.aSfrx).goto (.configure .c12)
  | .c12 => (s.strobe Config.codes.aSrx).goto (.configure .c13)
  | .c13 => s.rearm.goto (.configure .c14)
  -- Rule R153 writes `seq <- LOOP`; the caller HOST_DISPATCH still has H3 to do (rule R231; log entry 8).
  | .c14 => s.ret

/-- CONFIGURE is started and will return to `back`. -/
def startConfigure (csc : Byte) (back : Pos) (s : State) : State := configureStep csc .c0 (s.callFrom back)

/-- `CONFIGURE csc` (rule R153). -/
def execConfigure (csc : Byte) (s : State) : Result :=
  match s.seq with
  | .configure l => .next (configureStep csc l s)
  | p => .next (startConfigure csc p s)

/-- The label after entry `i` of writeConfig. -/
def wcAfterEntry (i : Fin 39) : WcLabel := if h : i.val + 1 < 39 then .entry ⟨i.val + 1, h⟩ else .done

/-- One micro-step of writeConfig (rule R134): one transaction a register. -/
def writeConfigStep (l : WcLabel) (s : State) : State :=
  match l with
  | .entry i => (s.writeEntry i).goto (.writeConfig (wcAfterEntry i))
  | .done => s.ret

/-- writeConfig is started: its table is the operand, and entry 0 is written. -/
def startWriteConfig (table : List Byte) (back : Pos) (s : State) : State :=
  writeConfigStep (.entry 0) ({ s with cfgTable := table }.callFrom back)

/-- `writeConfig(table)` (rule R134). -/
def execWriteConfig (table : List Byte) (s : State) : Result :=
  match s.seq with
  | .writeConfig l => .next (writeConfigStep l s)
  | p => .next (startWriteConfig table p s)

end Sys2Proof.Machine
end

