-- ==== Sys2Proof/Machine/HostLink.lean ====
section
/-! DEFINITION. The host link: the byte-received handler, HOST_DISPATCH with the commands it switches to, HOST_TX_DRAIN
and the boot notification (rules R230 to R237). -/

namespace Sys2Proof.Machine

/-- `HOST_RX_BYTE b`, never masked (rules R230, R253). -/
def execHostRxByte (b : Byte) (s : State) : Result := .next (s.takeInterrupt fun t => t.byteHandler b)

/-! ## The commands of H2 (rules R232 to R234) -/

/-- The configuration command: `backoff_byte` is stored and CONFIGURE is called with its operand, to return to H3 (rule
R232). That is all of H2: CONFIGURE's first labelled line C0 is the next micro-step, and a handler can run between the two
(rule R258). -/
def execHostConfig (csc backoff : Byte) (s : State) : Result :=
  .next (({ s with backoffByte := backoff, csc := csc }.callFrom (.dispatch .h3)).goto (.configure .c0))

/-- The data-to-send command: the whole accumulated frame, its tag included, becomes the TX payload (rule R233). -/
def execHostData (rest : List Byte) (s : State) : Result :=
  .next ((s.loadTx (Config.tagData :: rest)).goto (.dispatch .h3))

/-- Any other tag: nothing, and H3 is next (rule R234). -/
def execHostOther (_tag : Byte) (_rest : List Byte) (s : State) : Result := .next (s.goto (.dispatch .h3))

/-- The boot notification `[0x03, 0xFF]` is queued to the host (rules R36, R237). -/
def execHostBootnote (s : State) : Result := .next (s.queueToHost [Config.tagBoot, Config.sentinel])

/-! ## HOST_DISPATCH (rule R231) -/

/-- H1: `tag <- HRX[0]; n <- hrx_cursor`. A new index for the draws of rule R232 (log entry 10). -/
def State.readCommand (s : State) : State :=
  { s with
    dispTag := s.readBuf .hrx 0
    dispLen := s.hrxCursor
    env := { s.env with draws := s.env.draws + 1 } }

/-- H2 for the frame in the accumulator, by its tag (rule R231). -/
def dispatchFrame (s : State) : Result :=
  match decodeHostIn s.hostFrame with
  | .ok (.hostConfig csc backoff) => execHostConfig csc backoff s
  | .ok (.hostData rest) => execHostData rest s
  | _ => execHostOther s.dispTag [] s

/-- One micro-step of HOST_DISPATCH (rule R231). -/
def execHostDispatch (s : State) : Result :=
  match s.seq with
  | .dispatch .h2 => dispatchFrame s
  | .dispatch .h3 => .next ({ s with hrxCursor := 0, dispatchFlag := false }.goto (.dispatch .h4))
  | .dispatch .h4 => .next (s.goto .loop)
  | _ => .next (s.readCommand.goto (.dispatch .h2))

/-! ## HOST_TX_DRAIN (rule R236) -/

/-- One byte goes to the host, if one is left. -/
def State.sendNext (s : State) : State :=
  if s.htxCursor < s.htxLen then
    { s.log (.sendByte (s.readBuf .htx s.htxCursor)) with htxCursor := s.htxCursor + 1 }
  else s

/-- The frame is done when the cursor equals its length. -/
def State.endDrain (s : State) : State :=
  if s.htxCursor = s.htxLen then { s with sendPending := false, htxCursor := 0 } else s

/-- `HOST_TX_DRAIN` (rule R236). -/
def execHostTxDrain (s : State) : Result := .next s.sendNext.endDrain

end Sys2Proof.Machine
end

