-- ==== Sys2Proof/Machine/Rx.lean ====
section
/-! DEFINITION. The RX packet FIFO drain: SYNC_EDGE, RX_STEP, RX_LAST, RX_COMPLETE and RX_SERVICE (rules R190 to R201). The
meaning of an operation of the sequencer is its next micro-step (log entry 7). -/

namespace Sys2Proof.Machine

/-- `SYNC_EDGE`: a rising edge of `sync_in`, taken or masked (rules R29, R191). -/
def execSyncEdge (s : State) : Result := .next s.takeSyncEdge

/-! ## RX_STEP (rules R192, R193) -/

/-- S4: the length-taking branch or the storing branch, as `new_packet` says at this moment (rule R192). -/
def State.takeFifoByte (s : State) : State :=
  if s.newPacket then { s with rxExpected := s.fifoByte, newPacket := false } else s.storeRx s.fifoByte

/-- One micro-step of RX_STEP (rule R192). -/
def rxStepStep (l : RxStepLabel) (s : State) : State :=
  match l with
  | .s1 => (s.rstatus Config.codes.aRxbytes).goto (.rxStep .s2)
  | .s2 => s.goto (.rxStep (if s.rxGateOpen then .s3 else .s5))
  | .s3 => s.rfifo1.goto (.rxStep .s4)
  | .s4 => s.takeFifoByte.goto (.rxStep .s5)
  | .s5 => s.ret

/-- RX_STEP is started and will return to `back`. -/
def startRxStep (back : Pos) (s : State) : State := rxStepStep .s1 (s.callFrom back)

/-- `RX_STEP` (rule R192). -/
def execRxStep (s : State) : Result :=
  match s.seq with
  | .rxStep l => .next (rxStepStep l s)
  | p => .next (startRxStep p s)

/-! ## RX_LAST (rules R194, R195) -/

/-- One micro-step of RX_LAST (rule R194): the read bypasses the occupancy gate. -/
def rxLastStep (l : RxLastLabel) (s : State) : State :=
  match l with
  | .z1 => s.rfifo1.goto (.rxLast .z2)
  | .z2 => (s.storeRx s.fifoByte).goto (.rxLast .z3)
  | .z3 => (s.strobe Config.codes.aSidle).goto (.rxLast .z4)
  | .z4 => s.ret

/-- RX_LAST is started and will return to `back`. -/
def startRxLast (back : Pos) (s : State) : State := rxLastStep .z1 (s.callFrom back)

/-- `RX_LAST` (rule R194). -/
def execRxLast (s : State) : Result :=
  match s.seq with
  | .rxLast l => .next (rxLastStep l s)
  | p => .next (startRxLast p s)

/-! ## RX_COMPLETE (rule R196) -/

/-- The completed frame, `RXBUF[0 .. rx_expected)` (rule R196). -/
def State.rxFrame (s : State) : List Byte := s.readRun .rxbuf 0 s.rxExpected.toNat

/-- One micro-step of RX_COMPLETE (rule R196). A sync edge between K2 and K5 lights the LED again, and nothing puts it off:
rules R191 and R196 as they are written, against the words of rule R297. DEDUCED, unsafe (log entry 37). -/
def rxCompleteStep (l : RxCompleteLabel) (s : State) : State :=
  match l with
  | .k1 => (s.handoff s.rxFrame).goto (.rxComplete .k2)
  | .k2 => { s with ledRx := false }.goto (.rxComplete .k3)
  | .k3 => (s.strobe Config.codes.aSfrx).goto (.rxComplete .k4)
  | .k4 => (s.strobe Config.codes.aSrx).goto (.rxComplete .k5)
  | .k5 => { s with rxActive := false, rxCursor := 0 }.goto (.rxComplete .k6)
  | .k6 => s.goto .loop

/-- `RX_COMPLETE` (rule R196). -/
def execRxComplete (s : State) : Result :=
  match s.seq with
  | .rxComplete l => .next (rxCompleteStep l s)
  | _ => .next (rxCompleteStep .k1 s)

/-! ## RX_SERVICE (rules R197 to R199) -/

/-- `mark RxLenZero` after the last-byte path of a packet with expected length 0 (rule R199). -/
def State.markLenZero (s : State) : State := if s.rxExpected = 0 then s.mark .rxLenZero else s

/-- One micro-step of RX_SERVICE: the test V1 together with the start of the chosen step, and V2 where RX_LAST has
returned (rule R197). -/
def rxServiceStep (l : RxServiceLabel) (s : State) : State :=
  match l with
  | .v1 => if s.lastByteDue then startRxLast (.rxService .v2) s else startRxStep .loop s
  | .v2 => rxCompleteStep .k1 s.markLenZero

/-- `RX_SERVICE` (rule R197). -/
def execRxService (s : State) : Result :=
  match s.seq with
  | .rxService l => .next (rxServiceStep l s)
  | _ => .next (rxServiceStep .v1 s)

end Sys2Proof.Machine
end

