-- ==== Sys2Proof/Machine/Dispatch.lean ====
section
/-! DEFINITION. One arm for each constructor of Instr: the call of its meaning. -/

namespace Sys2Proof.Machine

def exec (i : Instr) (s : State) : Host.Outcome State Fault Refusal :=
  match i with
  -- Strobes (rules R121 to R128)
  | .sres => Sys2Proof.Machine.execSres s
  | .scal => Sys2Proof.Machine.execScal s
  | .srx => Sys2Proof.Machine.execSrx s
  | .stx => Sys2Proof.Machine.execStx s
  | .sidle => Sys2Proof.Machine.execSidle s
  | .sfrx => Sys2Proof.Machine.execSfrx s
  | .snop => Sys2Proof.Machine.execSnop s
  -- Accesses (rules R129 to R133)
  | .wreg a v => Sys2Proof.Machine.execWreg a v s
  | .wburstPatable levels => Sys2Proof.Machine.execWburstPatable levels s
  | .wburstFifo data => Sys2Proof.Machine.execWburstFifo data s
  | .rfifo1 => Sys2Proof.Machine.execRfifo1 s
  | .rburst a n => Sys2Proof.Machine.execRburst a n s
  | .rstatusMarcstate => Sys2Proof.Machine.execRstatusMarcstate s
  | .rstatusTxbytes => Sys2Proof.Machine.execRstatusTxbytes s
  | .rstatusRxbytes => Sys2Proof.Machine.execRstatusRxbytes s
  -- Host frames (rules R232 to R234, R237)
  | .hostConfig csc backoff => Sys2Proof.Machine.execHostConfig csc backoff s
  | .hostData rest => Sys2Proof.Machine.execHostData rest s
  | .hostBootnote => Sys2Proof.Machine.execHostBootnote s
  | .hostOther tag rest => Sys2Proof.Machine.execHostOther tag rest s
  -- Operations of the sequencer and the interrupt handlers
  | .configure csc => Sys2Proof.Machine.execConfigure csc s
  | .writeConfig table => Sys2Proof.Machine.execWriteConfig table s
  | .transmit => Sys2Proof.Machine.execTransmit s
  | .syncEdge => Sys2Proof.Machine.execSyncEdge s
  | .rxStep => Sys2Proof.Machine.execRxStep s
  | .rxLast => Sys2Proof.Machine.execRxLast s
  | .rxComplete => Sys2Proof.Machine.execRxComplete s
  | .rxService => Sys2Proof.Machine.execRxService s
  | .csmaService => Sys2Proof.Machine.execCsmaService s
  | .hostRxByte b => Sys2Proof.Machine.execHostRxByte b s
  | .hostDispatch => Sys2Proof.Machine.execHostDispatch s
  | .hostTxDrain => Sys2Proof.Machine.execHostTxDrain s

end Sys2Proof.Machine
end

