-- ==== Sys2Proof/Machine/Fetch.lean ====
section
/-! DEFINITION. Who acts next, and with what instruction: the move the environment makes (rules R6, R12, R258), the service
the main loop starts (rule R287), and the bytes that are fetched and decoded (rules R97, R231). Step.lean only calls this. -/

namespace Sys2Proof.Machine

/-! ## The move -/

/-- Who acts next: the script's move, else a free one (rule R12). -/
def State.nextMove (s : State) : Move := s.env.moves.headD (Config.freeMove s.env.draws)

/-- The move has been taken off the script. -/
def State.afterMove (s : State) : State :=
  { s with env := { s.env with moves := s.env.moves.tail, draws := s.env.draws + 1 } }

/-- What a step does: a change of the outside alone, an instruction to run on a state, or nothing with a reason. -/
inductive Action where
  | outside (s : State)
  | run (i : Instr) (s : State)
  | refuse (why : Refusal)

/-! ## External agents (rules R6, R40, R261) -/

/-- `sync_in` takes a level: a rising edge is an interrupt request (rules R191, R253). -/
def syncAction (level : Bool) (s : State) : Action :=
  if level && !s.syncIn then .run .syncEdge { s with syncIn := level } else .outside { s with syncIn := level }

/-- The counter advances: one more tick since the backoff was armed (rules R226, R261). -/
def State.tickOnce (s : State) : State :=
  { s with tickCount := s.tickCount + 1, backoffElapsed := s.backoffElapsed + 1 }

/-! ## The sequencer (rules R287, R30) -/

/-- The service that the `k`-th choice starts, counted round the enabled ones (rule R287). -/
def State.pickService (s : State) (k : Nat) : Option Instr :=
  s.enabledServices[k % s.enabledServices.length]?

/-- At `LOOP`: one enabled service is started; with none enabled the loop idles (rule R287). -/
def loopAction (k : Nat) (s : State) : Action :=
  match s.pickService k with
  | some i => .run i s
  | none => .outside s

/-- Where an instruction is fetched as bytes: the transaction at `direct`, the frame at H2, the notification at `boot`. -/
def State.fetchBytes (s : State) : Option (Link × List Byte) :=
  match s.seq with
  | .direct => some (.chipBus, s.request)
  | .boot => some (.hostOut, [Config.tagBoot, Config.sentinel])
  | .dispatch .h2 => some (.hostIn, s.hostFrame)
  | _ => none

/-- The position after a fetched instruction, where the instruction itself sets none. -/
def State.pastFetch (s : State) : State :=
  match s.seq with
  | .direct => s.ret
  | .boot => s.goto .loop
  | _ => s

/-- Fetched bytes are decoded and run. -/
def fetchAction (l : Link) (bytes : List Byte) (s : State) : Action :=
  match decode l bytes with
  | .ok i => .run i s.pastFetch
  | .error why => .refuse (.notATransaction why)

/-- Inside an operation: its next micro-step. -/
def opAction (s : State) : Action :=
  match s.seq with
  | .configure _ => .run (.configure s.csc) s
  | .writeConfig _ => .run (.writeConfig s.cfgTable) s
  | .transmit _ => .run .transmit s
  | .rxStep _ => .run .rxStep s
  | .rxLast _ => .run .rxLast s
  | .rxComplete _ => .run .rxComplete s
  | .rxService _ => .run .rxService s
  | .csma _ => .run .csmaService s
  | .dispatch _ => .run .hostDispatch s
  | .loop | .boot | .direct => .outside s

/-- One micro-step of the loop context. -/
def sequencerAction (k : Nat) (s : State) : Action :=
  match s.seq with
  | .loop => loopAction k s
  | _ =>
    match s.fetchBytes with
    | some (l, bytes) => fetchAction l bytes s
    | none => opAction s

/-- What a move makes the machine do. -/
def moveAction (m : Move) (s : State) : Action :=
  match m with
  | .loop k => sequencerAction k s
  | .syncLevel level => syncAction level s
  | .ccaLevel level => .outside { s with ccaIn := level }
  | .hostByte b => .run (.hostRxByte b) s
  | .tick => .outside s.tickOnce
  | .chip m => .outside { s with chip := s.chip.act m }

/-- What the next step does. -/
def State.nextAction (s : State) : Action := moveAction s.nextMove s.afterMove

/-! ## Where the next instruction's bytes are put (log entry 12) -/

/-- `bytes` where the next step fetches them: in `request` for a bus transaction, in the accumulator with its frame
complete and H1 done for a host frame, at `boot` for the notification. -/
def State.placeBytes (s : State) (l : Link) (bytes : List Byte) : State :=
  match l with
  | .chipBus => { s with request := bytes, seq := .direct }
  | .hostOut => { s with seq := .boot }
  | .hostIn =>
    { s with
      hrx := Memory.writeRun s.hrx 0 bytes
      hrxCursor := bytes.length
      dispatchFlag := true
      dispTag := bytes.headD 0
      dispLen := bytes.length
      seq := .dispatch .h2 }

/-- The sequencer acts next. -/
def State.sequencerNext (s : State) : State := { s with env := { s.env with moves := .loop 0 :: s.env.moves } }

/-- The opcode-table word's instruction stands where the next step fetches it, and the sequencer acts next. -/
def State.placeTableWord (s : State) (nbits w : Nat) : State :=
  (s.placeBytes (tableLink (tableBytes nbits w)) (tableBytes nbits w)).sequencerNext

end Sys2Proof.Machine
end

