-- ==== Sys2Proof/Machine/Step.lean ====
section
/-! DEFINITION. One step of the machine: one micro-step of the sequencer, one interrupt, or one act of the outside (rules
R6, R7, R258). -/

namespace Sys2Proof.Machine

/-- One step. -/
def step (s : State) : Host.Outcome State Fault Refusal :=
  match s.nextAction with
  | .outside t => .next t
  | .run i t => exec i t
  | .refuse why => .refused why

/-- `s` with the opcode-table word's instruction where the very next step fetches and runs it (log entry 12). -/
def State.withFetchWord (s : State) (nbits w : Nat) : State := s.placeTableWord nbits w

end Sys2Proof.Machine
end

