-- ==== Sys2Proof/Safety.lean ====
section
/-! DEFINITION. The terms claims use: good and quiescent states, the states rule R43 admits after reset, runs, views of
the trace, the chip contract, and the invariants. -/

namespace Sys2Proof.Machine

/-! ## Good and quiescent states (rules R252, R288) -/

/-- No mark but the informational one is set: the run has kept to the behaviour the source defines (rule R252). -/
def Marks.good (m : Marks) : Bool := !m.rxLenZero && !m.bufOverrun && !m.txOverwrite && !m.hostTxOverwrite

/-- Quiescent: at `LOOP` with no service enabled (rule R288). -/
def State.quiescent (s : State) : Bool :=
  decide (s.seq = .loop) && !s.rxActive && !s.txPending && !s.dispatchFlag && !s.sendPending

/-- A good final state: "a quiescent state with `marks` empty" (rules R33, R288), the informational mark included. -/
def State.goodFinal (s : State) : Bool := s.quiescent && decide (s.marks = {})

/-! ## Reset (rule R43) -/

/-- The states rule R43 admits right after reset: what it gives has that value, what it calls unspecified has any. -/
structure ResetState (s : State) : Prop where
  tag : s.readBuf .txbuf 0 = hdrFifoWb
  length : s.readBuf .txbuf 1 = 0
  rxCursor : s.rxCursor = 0
  rxExpected : s.rxExpected = 0
  newPacket : s.newPacket = false
  rxActive : s.rxActive = false
  edgePending : s.edgePending = false
  seq : s.seq = .loop
  marks : s.marks = {}
  txPending : s.txPending = false
  backingOff : s.backingOff = false
  hrxCursor : s.hrxCursor = 0
  dispatchFlag : s.dispatchFlag = false
  note0 : s.readBuf .htx 0 = Config.tagBoot
  note1 : s.readBuf .htx 1 = Config.sentinel
  htxLen : s.htxLen = 2
  htxCursor : s.htxCursor = 0
  sendPending : s.sendPending = true
  csN : s.csN = true
  ledRx : s.ledRx = false

/-! ## Runs of the loop context -/

/-- One micro-step of the loop context, with no interrupt and no act of the outside before it; at `LOOP` it starts the
first enabled service. -/
def State.solo (s : State) : Host.Outcome State Fault Refusal :=
  match sequencerAction 0 s with
  | .outside t => .next t
  | .run i t => exec i t
  | .refuse why => .refused why

/-- `n` micro-steps of the loop context in a row. -/
def State.soloRun : Nat → State → Host.Outcome State Fault Refusal
  | 0, s => .next s
  | n + 1, s =>
    match s.solo with
    | .next t => t.soloRun n
    | .fault r => .fault r
    | .refused r => .refused r

/-- `n` micro-steps of one operation in a row: `exec i` again and again. -/
def runInstr (i : Instr) : Nat → State → Host.Outcome State Fault Refusal
  | 0, s => .next s
  | n + 1, s =>
    match exec i s with
    | .next t => runInstr i n t
    | .fault r => .fault r
    | .refused r => .refused r

/-! ## Infinite runs and weak fairness (rules R287, R300) -/

/-- A run: each step answers the next state. -/
def IsRun (run : Nat → State) : Prop := ∀ n, step (run n) = .next (run (n + 1))

/-- The next step starts this service (rule R287). -/
def State.starts (s : State) (i : Instr) : Prop :=
  s.seq = .loop ∧ ∃ k, s.nextMove = .loop k ∧ s.afterMove.pickService k = some i

/-- The sequencer is at `LOOP` again and again from `n` on: no operation goes on for ever (rules R287, R292). -/
def ReturnsToLoop (run : Nat → State) (n : Nat) : Prop := ∀ m, n ≤ m → ∃ m', m ≤ m' ∧ (run m').seq = .loop

/-- "a service that stays enabled is eventually started" (rule R287): the premise of a claim that something happens. A
service is enabled when `seq = LOOP` and its flag is 1 (rules R197, R223): it stays enabled where every later visit to
`LOOP` finds the flag 1, and where such visits never end. A run that hangs inside TRANSMIT is weakly fair (rule R292; log
entry 24). -/
def WeaklyFair (run : Nat → State) : Prop :=
  ∀ i n, ReturnsToLoop run n → (∀ m, n ≤ m → (run m).seq = .loop → i ∈ (run m).enabledServices) →
    ∃ m, n ≤ m ∧ (run m).starts i

/-! ## The launch premise (rule R282) -/

/-- "CONFIGURE has completed at least once" before the `n`-th state of the run: the sequencer has taken its last
micro-step, C14. The named launch premise of any claim about packets (rule R282). -/
def ConfigureHasCompleted (run : Nat → State) (n : Nat) : Prop :=
  ∃ m, m < n ∧ (run m).seq = .configure .c14 ∧ ∃ k, (run m).nextMove = .loop k

/-! ## Views of the trace (rule R7) -/

/-- An event as the TLC causes it: without the bytes the chip answers. -/
def Event.outward : Event → Event
  | .xact tx _ => .xact tx []
  | e => e

/-- The trace without the chip's answers. -/
def outward (t : List Event) : List Event := t.map Event.outward

/-- The transaction that sends `tx`, without the chip's answer. -/
def sends (tx : List Byte) : Event := .xact tx []

/-- Is the event a bus transaction? -/
def Event.isXact : Event → Bool
  | .xact _ _ => true
  | _ => false

/-- The data bytes an event puts into the chip's TX FIFO. -/
def Event.fifoData : Event → List Byte
  | .xact (h :: d) _ => if h = hdrFifoWb then d else []
  | _ => []

/-- The bytes a trace puts into the chip's TX FIFO, in order. -/
def fifoData (t : List Event) : List Byte := t.flatMap Event.fifoData

/-- The byte an event takes from the chip's RX FIFO. -/
def Event.fifoRead : Event → List Byte
  | .xact (h :: _) rx => if h = hdrFifoR1 then (rx.drop 1).take 1 else []
  | _ => []

/-- The bytes a trace takes from the chip's RX FIFO with single reads, in order. -/
def fifoReads (t : List Event) : List Byte := t.flatMap Event.fifoRead

/-- What CONFIGURE shows to the outside: 3 delays and 46 transactions (rule R153). -/
def configureTrace (csc : Byte) : List Event :=
  [.delay .resetPulse, sends [0x30], .delay .postReset] ++
    (List.finRange 39).map (fun i =>
      sends [BitVec.ofNat 8 (cfgAddr i).val, profile (kindOf csc) (Config.chanOf csc) i]) ++
    [sends (0x7E :: paLevels (kindOf csc)), sends [0x36], sends [0x33], .delay .postCal, sends [0x36], sends [0x3A],
      sends [0x34]]

/-- What several bus transactions in a row do, the trace apart: the bus side moves on as in `Transacts`, and all else is
as in `s`. -/
def OnlyBusDiffers (s t : State) : Prop :=
  ∃ csN rx trace led0 led1 chip marks env,
    t = { s with csN := csN, rx := rx, trace := trace, ledS0 := led0, ledS1 := led1, chip := chip, marks := marks,
                 env := env } ∧
    (marks = s.marks ∨ marks = s.marks.add .busTimeout) ∧ env.moves = s.env.moves

/-- What one bus transaction that sends `tx` does to the machine (rules R120, R135, R136): the select line is high again,
as many bytes come back as go out, the trace has one event more, the status LEDs, the chip side and the environment's
script move on, and no mark but the informational one can be new. All else is as before. -/
def Transacts (tx : List Byte) (s t : State) : Prop :=
  ∃ rx led0 led1 chip marks env,
    t = { s with csN := true, rx := rx, trace := s.trace ++ [.xact tx rx], ledS0 := led0, ledS1 := led1, chip := chip,
                 marks := marks, env := env } ∧
    rx.length = tx.length ∧ (marks = s.marks ∨ marks = s.marks.add .busTimeout) ∧
    env.moves = s.env.moves ∧ env.choices = s.env.choices

/-! ## The chip contract (rules R75 to R80): named assumptions on a chip side and one exchange with it, or on a run -/

/-- Does the source say what the chip answers about its state? Not while that is chip-defined (rules R43, R283), and not
after a TX underflow (rule R291). DEDUCED, log entry 35. -/
def Chip.modeIsKnown (c : Chip) : Prop := c.mode ≠ .unknown ∧ c.mode ≠ .aborted

/-- The bytes that enter the RX FIFO with the next step. -/
def State.arrival (s : State) : List Byte :=
  match s.nextMove with
  | .chip (.rxByte b) => [b]
  | _ => []

/-- The bytes that enter the RX FIFO during `k` steps of a run from its `n`-th state on, in order. -/
def arrivals (run : Nat → State) (n : Nat) : Nat → List Byte
  | 0 => []
  | k + 1 => (run n).arrival ++ arrivals run (n + 1) k

/-- What the RX FIFO delivers from here on is, in this order, its content and then what arrives: `bytes` come first. -/
def Chip.deliversFirst (c : Chip) (arriving bytes : List Byte) : Prop := bytes <+: c.rxFifo ++ arriving

/-- CA1: the RX FIFO delivers a received packet as its length and then its payload "in transmission order", whatever part
of it is in the FIFO already and whatever part is still arriving (rule R75). -/
def Chip.deliversPacket (c : Chip) (arriving payload : List Byte) : Prop :=
  payload.length ≤ 255 ∧ c.deliversFirst arriving (BitVec.ofNat 8 payload.length :: payload)

/-- CA1 where the whole packet stands in the RX FIFO (rule R75). -/
def Chip.holdsPacket (c : Chip) (payload : List Byte) : Prop := c.deliversPacket [] payload

/-- CA1 on a run: the packet arrives within `k` steps from the `n`-th state on, be it drained meanwhile or not (rule R75). -/
def PacketArrives (run : Nat → State) (n k : Nat) (payload : List Byte) : Prop :=
  (run n).chip.deliversPacket (arrivals run n k) payload

/-- How many bytes of the RX FIFO a transaction reads: one with an RFIFO1, `n` with an RBURST of the FIFO (rules R132,
R133). -/
def fifoReadCount (tx : List Byte) : Nat :=
  match decodeBus tx with
  | .ok .rfifo1 => 1
  | .ok (.rburst a n) => if a.toNat = Config.codes.aFifo.toNat then n else 0
  | _ => 0

/-- CA1 and CA3 on one exchange: a read of the RX FIFO returns its oldest bytes, the oldest first, but for the single
remaining byte of a packet in flight (rules R75, R77). -/
def Chip.givesOldest (c : Chip) (inFlight : Bool) (tx rx : List Byte) : Prop :=
  ∀ k, k < fifoReadCount tx → k < c.rxFifo.length → (inFlight = true → k + 1 < c.rxFifo.length) →
    rx[k + 1]? = c.rxFifo[k]?

/-- CA2 on one exchange: TXBYTES and RXBYTES read as the occupancies (rule R76). A chip whose FIFO has overflowed is no
chip of this premise (rule R301; log entry 34). -/
def Chip.tellsOccupancy (c : Chip) (tx rx : List Byte) : Prop :=
  (decodeBus tx = .ok .rstatusRxbytes → (rx[1]?).map BitVec.toNat = some c.rxFifo.length) ∧
    (decodeBus tx = .ok .rstatusTxbytes → (rx[1]?).map BitVec.toNat = some c.txFifo.length)

/-- The seven strobes (rule R92). -/
def isStrobe : Instr → Bool
  | .sres | .scal | .srx | .stx | .sidle | .sfrx | .snop => true
  | _ => false

/-- CA4 on one exchange: the byte that any strobe returns has state code 0 exactly when the chip is idle (rule R78). It
comes back while the strobe goes out (rule R63), so the state it tells is the one the strobe finds: DEDUCED, log entry 35. -/
def Chip.tellsIdle (c : Chip) (tx rx : List Byte) : Prop :=
  c.modeIsKnown → ∀ i, decodeBus tx = .ok i → isStrobe i = true →
    (rx[0]?).map chipIsIdle = some (decide (c.mode = .idle))

/-- CA5 on one exchange: MARCSTATE reads 1 exactly when the chip is idle (rule R79). Of a chip whose state is not known
nothing is said: it may read 1 or any other value (DEDUCED, log entry 35). -/
def Chip.tellsMarcstate (c : Chip) (tx rx : List Byte) : Prop :=
  c.modeIsKnown → decodeBus tx = .ok .rstatusMarcstate →
    (rx[1]?).map (fun b => decide (b = Config.marcIdle)) = some (decide (c.mode = .idle))

/-- CA6 on one act of the chip: a TX FIFO that empties with bytes of the frame still to come aborts the frame (rule R80).
Every act of the model's chip is so: `Chip.act_abortsOnUnderflow`. -/
def Chip.abortsOnUnderflow (c : Chip) (m : ChipMove) (d : Chip) : Prop :=
  c.mode = .transmitting → m = .txByte true → d.txFifo = [] → d.mode = .aborted

/-! ## Invariants -/

/-- Every byte space is in its canonical form and within its capacity (rules R60, R64). -/
structure MemoryOk (s : State) : Prop where
  wf : ∀ b, (s.bufMem b).wf = true
  below : ∀ b, (s.bufMem b).below (Config.cap b) = true
  cfgRegs : Memory.wf s.chip.cfgRegs = true ∧ Memory.below Config.nCfgRegs s.chip.cfgRegs = true
  paTable : Memory.wf s.chip.paTable = true ∧ Memory.below 8 s.chip.paTable = true

/-- The ranges of rules R23, R31 and R34 to R36, and the select line between transactions (rule R40). -/
structure InRange (s : State) : Prop where
  rxCursor : s.rxCursor ≤ 255
  txSent : s.txSent ≤ 255
  backoffPeriod : s.backoffPeriod ≤ 255000
  hrxCursor : s.hrxCursor ≤ 255
  dispLen : s.dispLen ≤ 255
  htxLen : s.htxLen ≤ 255
  htxCursor : s.htxCursor ≤ s.htxLen
  csN : s.csN = true

/-- The labels of CONFIGURE between the masking of C1 and the re-arming of C13 (rules R72, R153). -/
def CfgLabel.masked : CfgLabel → Bool
  | .c0 | .c1 | .c14 => false
  | _ => true

/-- The sequencer's discipline (rules R72, R221, R222, R231): who called the operation in progress, the interrupt mask
during CONFIGURE and around TRANSMIT, the tables CONFIGURE sends, and that a top-up has bytes left to send. -/
def Disciplined (s : State) : Prop :=
  match s.seq with
  | .direct | .boot | .writeConfig _ | .rxStep _ => s.caller = .loop
  | .rxLast _ => s.caller = .rxService .v2
  | .configure l =>
    s.caller = .dispatch .h3 ∧ (l.masked = true → s.irqEn = false) ∧
      (l ≠ .c0 → s.cfgTable = cfgTableOf s.csc ∧ s.paTable = paTableOf s.csc)
  | .transmit .t4pa | .transmit .t4pb => s.caller = .csma .a6 ∧ s.irqEn = false ∧ s.txSent < s.txLength
  | .transmit _ => s.caller = .csma .a6 ∧ s.irqEn = false
  | .csma .a5 | .csma .a6 => s.irqEn = false
  | _ => True

/-- The burst-FIFO command tag stands in `TXBUF[0]` (rules R21, R222). -/
def TagInPlace (s : State) : Prop := s.readBuf .txbuf 0 = hdrFifoWb

/-- How far TRANSMIT has filled the TX FIFO, `base` being what the trace had put there before (rules R171 to R173, R177):
the length byte and the payload bytes written so far, each once and in order. -/
def TxProgress (base : List Byte) (s : State) : Prop :=
  match s.seq with
  | .transmit .t1 => fifoData s.trace = base
  | .transmit .t2 => fifoData s.trace = base ∧ s.txLength ≤ 63
  | .transmit .t2p => fifoData s.trace = base ∧ 63 < s.txLength
  | .transmit .t3p => fifoData s.trace = base ++ s.readRun .txbuf 1 64 ∧ 63 < s.txLength
  | .transmit .t4p | .transmit .t4pa | .transmit .t4pb =>
    fifoData s.trace = base ++ s.readRun .txbuf 1 (1 + s.txSent) ∧ 63 ≤ s.txSent ∧ s.txSent ≤ s.txLength
  | .transmit _ => fifoData s.trace = base ++ s.readRun .txbuf 1 (1 + s.txLength)
  | _ => False

/-- A FIFO byte that has been read and is about to be stored (S4 of RX_STEP, Z2 of RX_LAST). -/
def State.rxInHand (s : State) : List Byte :=
  match s.seq with
  | .rxStep .s4 | .rxLast .z2 => (s.rx.drop 1).take 1
  | _ => []

/-- The reconstruction of the packet being drained, `base` being what had been read before it (rules R193, R200): the
bytes read since are its length byte, then the bytes of RXBUF, then at most one byte in hand. -/
structure RxProgress (base : List Byte) (s : State) : Prop where
  lengthKnown : s.newPacket = false
  noDirect : s.seq ≠ .direct
  inHand : s.seq = .rxStep .s4 ∨ s.seq = .rxLast .z2 → s.rx.length = 2
  reads : fifoReads s.trace = base ++ s.rxExpected :: s.readRun .rxbuf 0 s.rxCursor ++ s.rxInHand

end Sys2Proof.Machine
end

