-- ==== Sys2Proof/Certificates/Slice0/Obligations.lean ====
section
/-! DEFINITION. The statements for the provers, each a rule of spec/ said of the model. Statements about every state hold
in states that no run reaches too, unless an invariant stated here is their premise. -/

open Sys2Proof Sys2Proof.Machine

/-! ## Encodings -/

/-- Decoding an encoded well-formed instruction gives it back (rules R90, R97, R100). -/
def Obligations.DecodeEncodeRoundTrip : Prop :=
  ∀ (i : Instr) (l : Link), i.link = some l → i.wf = true → decode l (encode i) = .ok i

/-- Words written out from the tables of spec/30_encoding.md decode to what they stand for. -/
def Obligations.SampleEncodingsDecode : Prop :=
  decodeBus [0x36] = .ok .sidle ∧ decodeBus [0x3D] = .ok .snop ∧ decodeBus [0x0A, 0x03] = .ok (.wreg 0x0A 0x03) ∧
    decodeBus [0x7E, 0xC0, 0xC1, 0xC2, 0xC3, 0xC4, 0xC5, 0xC6, 0xC7] =
      .ok (.wburstPatable [0xC0, 0xC1, 0xC2, 0xC3, 0xC4, 0xC5, 0xC6, 0xC7]) ∧
    decodeBus [0x7F, 0x02, 0xAA, 0xBB] = .ok (.wburstFifo [0x02, 0xAA, 0xBB]) ∧ decodeBus [0xBF, 0x00] = .ok .rfifo1 ∧
    decodeBus [0xFA, 0x00, 0x00] = .ok .rstatusTxbytes ∧ decodeBus [0xFF, 0x00, 0x00] = .ok (.rburst 0x3F 2) ∧
    decodeHostIn [0x01, 0x03, 0x0A, 0xFF] = .ok (.hostConfig 0x03 0x0A) ∧
    decodeHostIn [0x02, 0x48, 0x69, 0xFF] = .ok (.hostData [0x48, 0x69, 0xFF]) ∧
    decodeHostOut [0x03, 0xFF] = .ok .hostBootnote

/-- Rule R97, all eight cases: the header and the count of bytes that follow it before deselect give the transaction. The
power-table burst of case 3 is stated for every count that rule R130 gives it, the 8 of rule R97 among them (log entry 28). -/
def Obligations.HeaderClassification : Prop :=
  (∀ (a : Fin 41) (v : Byte), decodeBus [BitVec.ofNat 8 a.val, v] = .ok (.wreg a v)) ∧
    (decodeBus [0x30] = .ok .sres ∧ decodeBus [0x33] = .ok .scal ∧ decodeBus [0x34] = .ok .srx ∧
      decodeBus [0x35] = .ok .stx ∧ decodeBus [0x36] = .ok .sidle ∧ decodeBus [0x3A] = .ok .sfrx ∧
      decodeBus [0x3D] = .ok .snop) ∧
    (∀ d : List Byte, 1 ≤ d.length → decodeBus (0x7E :: d) = .ok (.wburstPatable d)) ∧
    (∀ d : List Byte, 1 ≤ d.length → decodeBus (0x7F :: d) = .ok (.wburstFifo d)) ∧
    (∀ x : Byte, decodeBus [0xBF, x] = .ok .rfifo1) ∧
    (∀ x y : Byte, decodeBus [0xF5, x, y] = .ok .rstatusMarcstate ∧ decodeBus [0xFA, x, y] = .ok .rstatusTxbytes ∧
      decodeBus [0xFB, x, y] = .ok .rstatusRxbytes) ∧
    (∀ d : List Byte, 1 ≤ d.length → decodeBus (0xFF :: d) = .ok (.rburst 0x3F d.length) ∧
      ∀ a : Fin 41, decodeBus (BitVec.ofNat 8 (0xC0 + a.val) :: d) = .ok (.rburst (BitVec.ofNat 6 a.val) d.length)) ∧
    (∀ (h : Byte) (d : List Byte),
      decodeBus (h :: d) = .error (.notIssued h) ↔
        ¬(h.toNat ≤ 0x28 ∨ h.toNat ∈ [0x30, 0x33, 0x34, 0x35, 0x36, 0x3A, 0x3D, 0x7E, 0x7F, 0xBF, 0xF5, 0xFA, 0xFB, 0xFF] ∨
          (0xC0 ≤ h.toNat ∧ h.toNat ≤ 0xC0 + 0x28))) ∧
    (∀ (bytes : List Byte) (i : Instr), decodeBus bytes = .ok i →
      bytes.length = (encode i).length ∧ bytes.head? = (encode i).head?)

/-- The transactions the TLC issues are those of rule R97 cases 1 to 6, MARCSTATE apart (rule R101): from a disciplined
state with the tag in place, whatever a step puts on the bus is one of them. -/
def Obligations.OnlyListedTransactionsIssued : Prop :=
  ∀ s t : State, Disciplined s → TagInPlace s → s.seq ≠ .direct → step s = .next t →
    ∀ tx rx, t.trace = s.trace ++ [.xact tx rx] →
      ∃ i, decodeBus tx = .ok i ∧ i ≠ .rstatusMarcstate ∧ (∀ a n, i ≠ .rburst a n) ∧
        ∀ levels, i = .wburstPatable levels → levels.length = 8

/-! ## Bus transactions (rules R120 to R136) -/

/-- Each strobe is one transaction of one byte, and changes nothing else (rules R121 to R128). -/
def Obligations.StrobesComplete : Prop :=
  ∀ s : State,
    (∃ t : State, exec .sres s = .next t ∧ Transacts [0x30] s t) ∧
    (∃ t : State, exec .scal s = .next t ∧ Transacts [0x33] s t) ∧
    (∃ t : State, exec .srx s = .next t ∧ Transacts [0x34] s t) ∧
    (∃ t : State, exec .stx s = .next t ∧ Transacts [0x35] s t) ∧
    (∃ t : State, exec .sidle s = .next t ∧ Transacts [0x36] s t) ∧
    (∃ t : State, exec .sfrx s = .next t ∧ Transacts [0x3A] s t) ∧
    (∃ t : State, exec .snop s = .next t ∧ Transacts [0x3D] s t)

/-- Each write is one transaction that sends its header and its data, and changes nothing else (rules R129, R130). -/
def Obligations.WritesComplete : Prop :=
  ∀ s : State,
    (∀ (a : Fin 41) (v : Byte), ∃ t : State, exec (.wreg a v) s = .next t ∧ Transacts [BitVec.ofNat 8 a.val, v] s t) ∧
    (∀ levels : List Byte, ∃ t : State, exec (.wburstPatable levels) s = .next t ∧ Transacts (0x7E :: levels) s t) ∧
    (∀ data : List Byte, ∃ t : State, exec (.wburstFifo data) s = .next t ∧ Transacts (0x7F :: data) s t)

/-- Each read is one transaction that sends its header and fill bytes and returns the bytes received after the header, and
changes nothing else (rules R131 to R133). -/
def Obligations.ReadsComplete : Prop :=
  ∀ s : State,
    (∃ t : State, exec .rfifo1 s = .next t ∧ Transacts [0xBF, 0x00] s t ∧ t.rx[1]? = some t.fifoByte) ∧
    (∀ (a : ChipAddr) (n : Nat), ∃ t : State, exec (.rburst a n) s = .next t ∧
      Transacts ((0xC0#8 ||| a.zeroExtend 8) :: List.replicate n 0x00) s t) ∧
    (∀ c : Instr × Byte, c ∈ [(.rstatusMarcstate, 0xF5), (.rstatusTxbytes, 0xFA), (.rstatusRxbytes, 0xFB)] →
      ∃ t : State, exec c.1 s = .next t ∧ Transacts [c.2, 0x00, 0x00] s t ∧ t.rx[1]? = some t.statusByte0 ∧
        t.rx[2]? = some t.statusByte1)

/-- A transaction sends its encoding, and with a scripted answer of that length it receives that answer (rules R11, R90,
R120). -/
def Obligations.TransactionSendsEncoding : Prop :=
  ∀ (i : Instr) (s : State), i.link = some .chipBus →
    ∃ t : State, exec i s = .next t ∧ Transacts (encode i) s t ∧
      ∀ bytes rest, s.env.answers = .reply bytes :: rest → bytes.length = (encode i).length →
        t.rx = bytes ∧ t.env.answers = rest

/-- A time-out changes nothing in what the TLC does next: only the informational mark, and whether the chip took the bytes
(rules R68, R136; that it took all of them or none is log entry 38). -/
def Obligations.TimeoutChangesNothingElse : Prop :=
  ∀ (i : Instr) (s : State) (bytes : List Byte) (rest : List Answer) (taken : Bool), i.link = some .chipBus →
    ∃ t : State, exec i { s with env := { s.env with answers := .reply bytes :: rest } } = .next t ∧
      exec i { s with env := { s.env with answers := .timeout bytes taken :: rest } } =
        .next { t with marks := t.marks.add .busTimeout, chip := if taken then t.chip else s.chip }

/-- The chip side after a transaction that the chip took (rules R37, R38, R67, R81, R122, R130, R132, R133; the immediate
image, and that what is chip-defined is a free value of the reset's draw, are the model's choice, log entry 14). -/
def Obligations.ChipSideFollowsTransactions : Prop :=
  ∀ (s : State) (bytes : List Byte) (rest : List Answer), s.env.answers = .reply bytes :: rest →
    (∀ (a : Fin 41) (v : Byte), ∃ t : State, exec (.wreg a v) s = .next t ∧
      t.chip = { s.chip with cfgRegs := t.chip.cfgRegs } ∧
      ∀ b, t.chip.readReg b = if b = a.val then v else s.chip.readReg b) ∧
    (∀ levels : List Byte, 1 ≤ levels.length → ∃ t : State, exec (.wburstPatable levels) s = .next t ∧
      t.chip = { s.chip with paTable := t.chip.paTable, paDraw := t.chip.paDraw } ∧
      (levels.length ≤ 8 → ∀ k, t.chip.readPa k = levels.getD k (s.chip.readPa k)) ∧
      (8 < levels.length → ∀ k, t.chip.readPa k = Config.freePaLevel (s.env.draws + 1) k)) ∧
    (∀ data : List Byte, 1 ≤ data.length → ∃ t : State, exec (.wburstFifo data) s = .next t ∧
      t.chip = { s.chip with txFifo := s.chip.txFifo ++ data }) ∧
    (∃ t : State, exec .rfifo1 s = .next t ∧ t.chip = { s.chip with rxFifo := s.chip.rxFifo.drop 1 }) ∧
    (∀ n : Nat, 1 ≤ n → ∃ t : State, exec (.rburst 0x3F n) s = .next t ∧
      t.chip = { s.chip with rxFifo := s.chip.rxFifo.drop n }) ∧
    (∀ (a : Fin 41) (n : Nat), 1 ≤ n → ∃ t : State, exec (.rburst (BitVec.ofNat 6 a.val) n) s = .next t ∧
      t.chip = s.chip) ∧
    (∃ t : State, exec .sres s = .next t ∧ t.chip.mode = .unknown ∧
      (∀ a, t.chip.readReg a = Config.freeChipReg (s.env.draws + 1) a) ∧
      (∀ k, t.chip.readPa k = Config.freePaLevel (s.env.draws + 1) k) ∧
      t.chip.txFifo = Config.freeFifo s.env.draws true ∧ t.chip.rxFifo = Config.freeFifo s.env.draws false) ∧
    (∃ t : State, exec .sfrx s = .next t ∧ t.chip = { s.chip with rxFifo := [] }) ∧
    (∃ t : State, exec .sidle s = .next t ∧ t.chip = { s.chip with mode := .idle }) ∧
    (∃ t : State, exec .srx s = .next t ∧ t.chip = { s.chip with mode := .receiving }) ∧
    (∃ t : State, exec .stx s = .next t ∧ t.chip = { s.chip with mode := .transmitting }) ∧
    (∃ t : State, exec .scal s = .next t ∧ t.chip = { s.chip with mode := .calibrating }) ∧
    (∃ t : State, exec .snop s = .next t ∧ t.chip = s.chip) ∧
    (∃ t : State, exec .rstatusRxbytes s = .next t ∧ t.chip = s.chip) ∧
    (∃ t : State, exec .rstatusTxbytes s = .next t ∧ t.chip = s.chip) ∧
    (∃ t : State, exec .rstatusMarcstate s = .next t ∧ t.chip = s.chip)

/-! ## CONFIGURE (rules R150 to R156) -/

/-- `CFG_ADDR` is strictly increasing from 0x00 to 0x28 (rule R8, decision D4; the parameter's form is log entry 4). -/
def Obligations.CfgAddrAdmissible : Prop :=
  (∀ i j : Fin 39, i < j → (cfgAddr i).val < (cfgAddr j).val) ∧ (cfgAddr 0).val = 0x00 ∧ (cfgAddr 38).val = 0x28

/-- The tables of CONFIGURE: the kind, the structure of the profile, the power table (rules R150 to R152). -/
def Obligations.ConfigurationTables : Prop :=
  (∀ csc : Byte, kindOf csc = if csc.toNat ≤ 7 then .fsk2 else .ook) ∧
    (∀ csc : Byte, (cfgTableOf csc).length = 39 ∧
      ∀ i : Fin 39, (cfgTableOf csc)[i.val]? = some (profile (kindOf csc) (Config.chanOf csc) i)) ∧
    (∀ (k k' : Kind) (c c' : Byte) (i : Fin 39),
      i = Config.idxChan ∨ Config.idxMod i = true ∨ profile k c i = profile k' c' i) ∧
    (∀ (k k' : Kind) (c : Byte), profile k c Config.idxChan = profile k' c Config.idxChan) ∧
    (∀ (k : Kind) (c c' : Byte) (i : Fin 39), i = Config.idxChan ∨ profile k c i = profile k c' i) ∧
    (∀ csc : Byte, (paTableOf csc).length = 9 ∧ (paTableOf csc)[0]? = some 0x7E ∧
      ∀ k : Fin 8, (paTableOf csc)[k.val + 1]? =
        some (if csc.toNat ≤ 7 then Config.paFsk k else Config.paOok k))

/-- CONFIGURE run alone: 53 micro-steps, 46 transactions and 3 delays in the order of rule R153, `irq_en` 1 at the end, a
remembered edge delivered or dropped, and no other TLC state changed; it returns where it was started (log entry 8). -/
def Obligations.ConfigureWholeRun : Prop :=
  ∀ (csc : Byte) (s : State), (∀ l, s.seq ≠ .configure l) →
    ∃ t : State, runInstr (.configure csc) 53 s = .next t ∧ outward t.trace = outward s.trace ++ configureTrace csc ∧
      (configureTrace csc).countP Event.isXact = 46 ∧ (configureTrace csc).length = 49 ∧
      ∃ edge : Bool, (s.edgePending = false → edge = false) ∧
        OnlyBusDiffers
          { s with irqEn := true, edgePending := false, newPacket := edge || s.newPacket, rxActive := edge || s.rxActive,
                   ledRx := edge || s.ledRx, caller := s.seq, csc := csc, cfgTable := cfgTableOf csc,
                   paTable := paTableOf csc } t

/-- The start of CONFIGURE, C0 where a configuration command has called it, its masking and its re-arming (rule R153 C0, C1,
C13, C14). -/
def Obligations.ConfigureStartMaskRearm : Prop :=
  ∀ (csc : Byte) (s : State),
    ((∀ l, s.seq ≠ .configure l) →
      exec (.configure csc) s =
        .next { s with caller := s.seq, csc := csc, cfgTable := cfgTableOf csc, paTable := paTableOf csc,
                       seq := .configure .c1 }) ∧
    (s.seq = .configure .c0 →
      exec (.configure csc) s =
        .next { s with csc := csc, cfgTable := cfgTableOf csc, paTable := paTableOf csc, seq := .configure .c1 }) ∧
    (s.seq = .configure .c1 → exec (.configure csc) s = .next { s with irqEn := false, seq := .configure .c2 }) ∧
    (s.seq = .configure .c13 → s.edgePending = false →
      exec (.configure csc) s = .next { s with irqEn := true, seq := .configure .c14 }) ∧
    (s.seq = .configure .c14 → exec (.configure csc) s = .next { s with seq := s.caller })

/-- writeConfig: it starts with entry 0; and run alone it is 39 single-register writes in `CFG_ADDR` order, then the return
(rule R134). -/
def Obligations.WriteConfigWholeRun : Prop :=
  ∀ (table : List Byte) (s : State), table.length = 39 → (∀ l, s.seq ≠ .writeConfig l) →
    (∃ u : State, Transacts [0x00, table.getD 0 0] s u ∧
      exec (.writeConfig table) s =
        .next { u with caller := s.seq, cfgTable := table, seq := .writeConfig (.entry 1) }) ∧
    ∃ t : State, runInstr (.writeConfig table) 40 s = .next t ∧
      outward t.trace = outward s.trace ++
        (List.finRange 39).map (fun i => sends [BitVec.ofNat 8 (cfgAddr i).val, table.getD i.val 0]) ∧
      OnlyBusDiffers { s with caller := s.seq, cfgTable := table } t

/-! ## TRANSMIT (rules R170 to R178) -/

/-- The micro-steps of the single-burst path (rules R171, R172). -/
def Obligations.TransmitSinglePathSteps : Prop :=
  ∀ s : State,
    (s.seq = .transmit .t1 → ∃ t : State, Transacts [0x36] s t ∧
      exec .transmit s = .next { t with seq := .transmit (if (s.readBuf .txbuf 1).toNat ≤ 63 then .t2 else .t2p) }) ∧
    (s.seq = .transmit .t2 → ∃ t : State, Transacts (s.readRun .txbuf 0 ((s.readBuf .txbuf 1).toNat + 2)) s t ∧
      exec .transmit s = .next { t with seq := .transmit .t3 }) ∧
    (s.seq = .transmit .t3 → ∃ t : State, Transacts [0x35] s t ∧ exec .transmit s = .next { t with seq := .transmit .t4 }) ∧
    (s.seq = .transmit .t4 → ∃ t : State, Transacts [0xFA, 0x00, 0x00] s t ∧
      exec .transmit s = .next { t with seq := .transmit (if t.rx[1]? = some 0 then .t5 else .t4) })

/-- The micro-steps of the chunked path (rules R171, R173). -/
def Obligations.TransmitChunkedPathSteps : Prop :=
  ∀ s : State,
    (s.seq = .transmit .t2p → ∃ t : State, Transacts (s.readRun .txbuf 0 65) s t ∧
      exec .transmit s = .next { t with seq := .transmit .t3p }) ∧
    (s.seq = .transmit .t3p → ∃ t : State, Transacts [0x35] s t ∧
      exec .transmit s = .next { t with seq := .transmit .t4p, txSent := 63 }) ∧
    (s.seq = .transmit .t4p →
      exec .transmit s =
        .next { s with seq := .transmit (if s.txSent < (s.readBuf .txbuf 1).toNat then .t4pa else .t5) }) ∧
    (s.seq = .transmit .t4pa → ∃ t : State, Transacts [0xFA, 0x00, 0x00] s t ∧
      exec .transmit s = .next { t with seq := .transmit .t4pb }) ∧
    (∀ b : Byte, s.seq = .transmit .t4pb → s.rx[1]? = some b → 32 < b.toNat →
      exec .transmit s = .next { s with seq := .transmit .t4p }) ∧
    (∀ b : Byte, s.seq = .transmit .t4pb → s.rx[1]? = some b → b.toNat ≤ 32 →
      ∃ t : State, Transacts (0x7F :: s.readRun .txbuf (2 + s.txSent) (min 24 ((s.readBuf .txbuf 1).toNat - s.txSent))) s t ∧
        exec .transmit s = .next { t with seq := .transmit .t4p,
                                          txSent := s.txSent + min 24 ((s.readBuf .txbuf 1).toNat - s.txSent) })

/-- The completion poll T5 (rule R174): one no-op strobe an iteration, until the upper nibble of the returned status byte
reads 0; and the number of iterations has no bound. -/
def Obligations.TransmitCompletionPoll : Prop :=
  (∀ s : State, s.seq = .transmit .t5 → ∃ (t : State) (b : Byte), Transacts [0x3D] s t ∧ t.rx[0]? = some b ∧
    exec .transmit s = .next { t with seq := .transmit (if b.extractLsb' 4 4 = 0#4 then .t6 else .t5) }) ∧
    ∀ (n : Nat) (s : State) (rest : List Answer), s.seq = .transmit .t5 →
      s.env.answers = List.replicate n (.reply [0x1F]) ++ rest →
        ∃ t : State, s.soloRun n = .next t ∧ t.seq = .transmit .t5 ∧
          outward t.trace = outward s.trace ++ List.replicate n (sends [0x3D])

/-- Return to receive (rule R175): flush-RX, then enable-RX, then the return to the caller. -/
def Obligations.TransmitReturnsToReceive : Prop :=
  ∀ s : State,
    (s.seq = .transmit .t6 → ∃ t : State, Transacts [0x3A] s t ∧ exec .transmit s = .next { t with seq := .transmit .t7 }) ∧
    (s.seq = .transmit .t7 → ∃ t : State, Transacts [0x34] s t ∧ exec .transmit s = .next { t with seq := .transmit .t8 }) ∧
    (s.seq = .transmit .t8 → exec .transmit s = .next { s with seq := s.caller })

/-- The start of TRANSMIT from any other position: T1, with the return position kept (rule R171). -/
def Obligations.TransmitStarts : Prop :=
  ∀ s : State, (∀ l, s.seq ≠ .transmit l) → ∃ t : State, Transacts [0x36] s t ∧
    exec .transmit s =
      .next { t with caller := s.seq, seq := .transmit (if (s.readBuf .txbuf 1).toNat ≤ 63 then .t2 else .t2p) } ∧
    ∀ u, exec .transmit s = .next u → TxProgress (fifoData s.trace) u

/-- While TRANSMIT runs, whatever happens between its micro-steps, what it has put into the TX FIFO is the length byte and
the payload bytes in order, each once (rules R171 to R173, R177). -/
def Obligations.TransmitFillsFifoInOrder : Prop :=
  ∀ (base : List Byte) (s t : State), Disciplined s → TagInPlace s → TxProgress base s → step s = .next t →
    (∃ l, t.seq = .transmit l) → TxProgress base t

/-- With a chip that answers zeros (FIFO empty, idle), TRANSMIT runs to its end for every payload length, the FIFO writes
carry the length byte and exactly the payload, and no TLC state but its own loop variable is changed (rules R175, R177). -/
def Obligations.TransmitRunsToItsEnd : Prop :=
  ∀ (s : State) (rest : List Answer), (∀ l, s.seq ≠ .transmit l) → TagInPlace s →
    s.env.answers = List.replicate 22 (.reply [0x00, 0x00, 0x00]) ++ rest →
      ∃ n t, n ≤ 32 ∧ runInstr .transmit n s = .next t ∧
        fifoData t.trace = fifoData s.trace ++ s.readRun .txbuf 1 (1 + (s.readBuf .txbuf 1).toNat) ∧
        OnlyBusDiffers { s with caller := s.seq, txSent := t.txSent } t

/-! ## The sync edge and the RX drain (rules R190 to R201, R29) -/

/-- SYNC_EDGE (rules R29, R191): taken on a rising edge with the interrupt enabled, and on the delivery of a remembered
edge; it sets the three flags, whatever they were, and changes nothing else. That the pin's change and the handler are one
step is log entry 2; that the choice of rule R29 is drawn is log entry 9. -/
def Obligations.SyncEdgeHandler : Prop :=
  (∀ s : State, s.irqEn = true → exec .syncEdge s = .next { s with newPacket := true, rxActive := true, ledRx := true }) ∧
    (∀ s : State, s.irqEn = true → s.nextMove = .syncLevel true → s.syncIn = false →
      step s = .next { s.afterMove with syncIn := true, newPacket := true, rxActive := true, ledRx := true }) ∧
    (∀ s : State, s.edgePending = true → s.nextChoice = true →
      s.rearm = { s.dropChoice with irqEn := true, edgePending := false, newPacket := true, rxActive := true, ledRx := true })

/-- The hidden latch (rule R29): a masked edge is remembered or not, at re-arm a remembered edge is delivered once or
dropped, both outcomes are admitted, and the latch is 0 at reset. A step on a rising edge of `sync_in` runs SYNC_EDGE whether
the interrupt is masked or not (rules R191, R253; that the pin's change is in the same step is log entry 2). -/
def Obligations.PendingEdgeBothOutcomes : Prop :=
  (∀ s : State, s.nextMove = .syncLevel true → s.syncIn = false →
    step s = exec .syncEdge { s.afterMove with syncIn := true }) ∧
    (∀ (s : State) (c : Bool) (rest : List Bool), s.irqEn = false → s.env.choices = c :: rest →
    exec .syncEdge s = .next { s.dropChoice with edgePending := c || s.edgePending }) ∧
    (∀ (s : State) (c : Bool) (rest : List Bool), s.edgePending = true → s.env.choices = c :: rest →
      s.seq = .csma .a6 →
      exec .csmaService s =
        .next { s.dropChoice with irqEn := true, edgePending := false, newPacket := c || s.newPacket,
                                  rxActive := c || s.rxActive, ledRx := c || s.ledRx, seq := .csma .a7 }) ∧
    (∀ (csc : Byte) (s : State) (c : Bool) (rest : List Bool), s.edgePending = true → s.env.choices = c :: rest →
      s.seq = .configure .c13 →
      exec (.configure csc) s =
        .next { s.dropChoice with irqEn := true, edgePending := false, newPacket := c || s.newPacket,
                                  rxActive := c || s.rxActive, ledRx := c || s.ledRx, seq := .configure .c14 }) ∧
    State.reset.edgePending = false

/-- The micro-steps of RX_STEP: one poll, at most one FIFO read behind the gate, the length-taking or the storing branch,
and the mark outside RXBUF (rules R64, R192, R193). That the cursor stays where the store is not performed is log entry 23. -/
def Obligations.RxStepMicroSteps : Prop :=
  ∀ s : State,
    ((∀ l, s.seq ≠ .rxStep l) → ∃ t : State, Transacts [0xFB, 0x00, 0x00] s t ∧
      exec .rxStep s = .next { t with caller := s.seq, seq := .rxStep .s2 }) ∧
    (∀ b : Byte, s.seq = .rxStep .s2 → s.rx[1]? = some b →
      exec .rxStep s = .next { s with seq := .rxStep (if b.toNat > 1 then .s3 else .s5) }) ∧
    (s.seq = .rxStep .s3 → ∃ t : State, Transacts [0xBF, 0x00] s t ∧ exec .rxStep s = .next { t with seq := .rxStep .s4 }) ∧
    (∀ b : Byte, s.seq = .rxStep .s4 → s.rx[1]? = some b → s.newPacket = true →
      exec .rxStep s = .next { s with rxExpected := b, newPacket := false, seq := .rxStep .s5 }) ∧
    (∀ b : Byte, s.seq = .rxStep .s4 → s.rx[1]? = some b → s.newPacket = false → s.rxCursor < 255 →
      ∃ m : Memory, exec .rxStep s = .next { s with rxbuf := m, rxCursor := s.rxCursor + 1, seq := .rxStep .s5 } ∧
        ∀ i, ({ s with rxbuf := m } : State).readBuf .rxbuf i = if i = s.rxCursor then b else s.readBuf .rxbuf i) ∧
    (s.seq = .rxStep .s4 → s.newPacket = false → 255 ≤ s.rxCursor →
      exec .rxStep s = .next { s with marks := s.marks.add .bufOverrun, seq := .rxStep .s5 }) ∧
    (s.seq = .rxStep .s5 → exec .rxStep s = .next { s with seq := s.caller })

/-- RX_LAST: it starts with the ungated read; and run alone it is that read, the store, the idle strobe, the return (rules
R194, R195). With `rx_cursor` at 255, which rule R201 makes reachable, the store is not performed and BufOverrun is marked
(rules R64, R194); that the cursor stays then is log entry 23. -/
def Obligations.RxLastWholeRun : Prop :=
  ∀ s : State, (∀ l, s.seq ≠ .rxLast l) →
    (∃ u : State, Transacts [0xBF, 0x00] s u ∧
      exec .rxLast s = .next { u with caller := s.seq, seq := .rxLast .z2 }) ∧
    ∃ (t : State) (x b y : Byte), runInstr .rxLast 4 s = .next t ∧
      t.trace = s.trace ++ [.xact [0xBF, 0x00] [x, b], .xact [0x36] [y]] ∧
      (s.rxCursor < 255 →
        (∃ m : Memory, OnlyBusDiffers { s with caller := s.seq, rxbuf := m, rxCursor := s.rxCursor + 1 } t) ∧
        ∀ i, t.readBuf .rxbuf i = if i = s.rxCursor then b else s.readBuf .rxbuf i) ∧
      (255 ≤ s.rxCursor → OnlyBusDiffers { s with caller := s.seq, marks := s.marks.add .bufOverrun } t)

/-- RX_COMPLETE: it starts with the hand-off; and run alone it is the hand-off of `RXBUF[0 .. rx_expected)`, the LED off,
flush-RX, enable-RX, the flags, the loop; `rx_expected` and `new_packet` are kept; a hand-off over an unfinished one is
marked (rules R196, R235). -/
def Obligations.RxCompleteWholeRun : Prop :=
  ∀ s : State, (∀ l, s.seq ≠ .rxComplete l) →
    ∃ m : Memory,
      exec .rxComplete s =
        .next { s with htx := m, htxLen := s.rxExpected.toNat, htxCursor := 0, sendPending := true,
                       trace := s.trace ++ [.handoff (s.readRun .rxbuf 0 s.rxExpected.toNat)],
                       marks := if s.sendPending then s.marks.add .hostTxOverwrite else s.marks,
                       seq := .rxComplete .k2 } ∧
      (∀ i, ({ s with htx := m } : State).readBuf .htx i =
        if i < s.rxExpected.toNat then s.readBuf .rxbuf i else s.readBuf .htx i) ∧
      ∃ t : State, runInstr .rxComplete 6 s = .next t ∧
        outward t.trace = outward s.trace ++
          [.handoff (s.readRun .rxbuf 0 s.rxExpected.toNat), sends [0x3A], sends [0x34]] ∧
        OnlyBusDiffers
          { s with htx := m, htxLen := s.rxExpected.toNat, htxCursor := 0, sendPending := true, ledRx := false,
                   rxActive := false, rxCursor := 0, seq := .loop,
                   marks := if s.sendPending then s.marks.add .hostTxOverwrite else s.marks } t

/-- RX_SERVICE's choice, with the start of the chosen step (rule R197). -/
def Obligations.RxServiceChoice : Prop :=
  ∀ s : State, s.seq = .loop →
    (s.newPacket = false → s.rxExpected.toNat ≤ s.rxCursor + 1 → ∃ t : State, Transacts [0xBF, 0x00] s t ∧
      exec .rxService s = .next { t with caller := .rxService .v2, seq := .rxLast .z2 }) ∧
    (s.newPacket = true ∨ s.rxCursor + 1 < s.rxExpected.toNat → ∃ t : State, Transacts [0xFB, 0x00, 0x00] s t ∧
      exec .rxService s = .next { t with caller := .loop, seq := .rxStep .s2 })

/-- Expected length 1 goes directly to the last-byte path (rule R198): no RXBYTES poll, one ungated read, `rx_cursor` 1,
and one byte handed off; of the marks of undefined behaviour only the hand-off's can be new (rule R235). -/
def Obligations.ExpectedLengthOne : Prop :=
  ∀ s : State, s.seq = .loop → s.rxActive = true → s.newPacket = false → s.rxExpected = 1 → s.rxCursor = 0 →
    ∃ (u t : State) (x b y z w : Byte), s.soloRun 2 = .next u ∧ u.rxCursor = 1 ∧ u.rxCursor = u.rxExpected.toNat ∧
      s.soloRun 10 = .next t ∧
      t.trace = s.trace ++ [.xact [0xBF, 0x00] [x, b], .xact [0x36] [y], .handoff [b], .xact [0x3A] [z], .xact [0x34] [w]] ∧
      t.seq = .loop ∧ t.rxActive = false ∧ t.rxCursor = 0 ∧ t.marks.rxLenZero = s.marks.rxLenZero ∧
      t.marks.bufOverrun = s.marks.bufOverrun ∧ t.marks.txOverwrite = s.marks.txOverwrite ∧
      t.marks.hostTxOverwrite = (s.sendPending || s.marks.hostTxOverwrite)

/-- Expected length 0 (rule R199): the last-byte path with one ungated read stored at `RXBUF[0]`, the mark, and the hand-off
of an empty frame. -/
def Obligations.ExpectedLengthZero : Prop :=
  ∀ s : State, s.seq = .loop → s.rxActive = true → s.newPacket = false → s.rxExpected = 0 → s.rxCursor = 0 →
    ∃ (u t : State) (x b y z w : Byte), s.soloRun 2 = .next u ∧ u.rxCursor = 1 ∧ u.readBuf .rxbuf 0 = b ∧
      s.soloRun 10 = .next t ∧
      t.trace = s.trace ++ [.xact [0xBF, 0x00] [x, b], .xact [0x36] [y], .handoff [], .xact [0x3A] [z], .xact [0x34] [w]] ∧
      t.marks.rxLenZero = true ∧ t.htxLen = 0 ∧ t.seq = .loop ∧ t.rxActive = false ∧ t.rxCursor = 0

/-- Idle before flush (rule R195): from the test V1 on, the order on the bus is RFIFO1, SIDLE, SFRX, SRX, and RX_COMPLETE
runs immediately after RX_LAST. -/
def Obligations.IdleBeforeFlush : Prop :=
  ∀ s : State, s.seq = .loop → s.rxActive = true → s.newPacket = false → s.rxExpected.toNat ≤ s.rxCursor + 1 →
    ∃ t : State, s.soloRun 10 = .next t ∧ t.seq = .loop ∧
      outward t.trace = outward s.trace ++
        [sends [0xBF, 0x00], sends [0x36], .handoff (t.readRun .rxbuf 0 s.rxExpected.toNat), sends [0x3A], sends [0x34]] ∧
      (∃ u : State, s.soloRun 3 = .next u ∧ u.seq = .rxLast .z4 ∧
        outward u.trace = outward s.trace ++ [sends [0xBF, 0x00], sends [0x36]]) ∧
      (∃ u : State, s.soloRun 4 = .next u ∧ u.seq = .rxService .v2) ∧
      ∃ u : State, s.soloRun 5 = .next u ∧ u.seq = .rxComplete .k2

/-- Taking the length prefix begins a reconstruction: it is not written to RXBUF and does not advance the cursor (rules
R192, R193). -/
def Obligations.LengthPrefixBeginsPacket : Prop :=
  ∀ (base : List Byte) (s : State) (b : Byte), s.seq = .rxStep .s4 → s.newPacket = true → s.rxCursor = 0 →
    s.rx[1]? = some b → fifoReads s.trace = base ++ [b] →
      ∃ t : State, exec .rxStep s = .next t ∧ RxProgress base t ∧ t.rxExpected = b ∧ t.rxCursor = 0 ∧
        (∀ i, t.readBuf .rxbuf i = s.readBuf .rxbuf i)

/-- Reconstruction (rules R193, R200): between the length prefix and completion, with no further sync edge taken and no
overrun, RXBUF holds the bytes read since the length byte, in transmission order, whatever else runs in between. -/
def Obligations.ReconstructionKept : Prop :=
  ∀ (base : List Byte) (s t : State), Disciplined s → TagInPlace s → RxProgress base s → step s = .next t →
    t.newPacket = false → t.marks.bufOverrun = false → s.seq ≠ .rxComplete .k5 → RxProgress base t

/-! ## Channel access (rules R223 to R228) -/

/-- CSMA_SERVICE: the test A1; and on a clear channel the sample, the mask, TRANSMIT's first micro-step; and after TRANSMIT
the re-arming and the end of the request (rules R221, R224). -/
def Obligations.CsmaClearChannel : Prop :=
  (∀ s : State, s.seq = .loop →
    exec .csmaService s = .next { s with seq := .csma (if s.backingOff then .a11 else .a2) }) ∧
    (∀ s : State, s.seq = .loop → s.backingOff = false → s.ccaIn = Config.ccaClearLevel →
      runInstr .csmaService 4 s = .next { s with ccaSample := s.ccaIn, irqEn := false, seq := .csma .a5 }) ∧
    (∀ s : State, s.seq = .csma .a5 → ∃ t : State, Transacts [0x36] s t ∧
      exec .csmaService s =
        .next { t with caller := .csma .a6,
                       seq := .transmit (if (s.readBuf .txbuf 1).toNat ≤ 63 then .t2 else .t2p) }) ∧
    (∀ s : State, s.seq = .csma .a6 → s.edgePending = false →
      runInstr .csmaService 3 s = .next { s with irqEn := true, txPending := false, seq := .loop })

/-- CSMA_SERVICE on a busy channel: the backoff is armed with a period of 1000 ticks a unit, and nothing is sent (rules R99,
R224). -/
def Obligations.CsmaBusyArmsBackoff : Prop :=
  ∀ s : State, s.seq = .loop → s.backingOff = false → s.ccaIn ≠ Config.ccaClearLevel →
    runInstr .csmaService 7 s =
      .next { s with ccaSample := s.ccaIn, backoffElapsed := 0, backoffPeriod := s.backoffByte.toNat * 1000,
                     backingOff := true }

/-- CSMA_SERVICE while backing off: released at the first invocation where more ticks than the period have passed, and that
invocation does nothing else (rules R224, R227). -/
def Obligations.CsmaBackoffRelease : Prop :=
  ∀ s : State, s.seq = .loop → s.backingOff = true →
    runInstr .csmaService 3 s = .next { s with backingOff := decide (s.backoffElapsed ≤ s.backoffPeriod) }

/-- The acts of the outside that are no interrupt: ticks, the CCA level, the chip's own acts, a level of `sync_in` that is
no rising edge (rules R6, R226, R261, R82); a byte that leaves the TX FIFO empty with bytes of the frame still to come aborts
the frame (rule R80; log entry 36). -/
def Obligations.OutsideMovesChangeTheirInputs : Prop :=
  ∀ s : State,
    (s.nextMove = .tick →
      step s = .next { s.afterMove with tickCount := s.tickCount + 1, backoffElapsed := s.backoffElapsed + 1 }) ∧
    (∀ level, s.nextMove = .ccaLevel level → step s = .next { s.afterMove with ccaIn := level }) ∧
    (∀ level, s.nextMove = .syncLevel level → level = false ∨ s.syncIn = true →
      step s = .next { s.afterMove with syncIn := level }) ∧
    (∀ b, s.nextMove = .chip (.rxByte b) →
      step s = .next { s.afterMove with chip := { s.chip with rxFifo := s.chip.rxFifo ++ [b] } }) ∧
    (∀ more, s.nextMove = .chip (.txByte more) →
      (s.chip.mode = .transmitting ∧ more = true ∧ s.chip.txFifo.length ≤ 1 →
        step s = .next { s.afterMove with chip := { s.chip with txFifo := [], mode := .aborted } }) ∧
      (s.chip.mode ≠ .transmitting ∨ more = false ∨ 1 < s.chip.txFifo.length →
        step s = .next { s.afterMove with chip := { s.chip with txFifo := s.chip.txFifo.drop 1 } })) ∧
    (∀ m, s.nextMove = .chip (.mode m) → step s = .next { s.afterMove with chip := { s.chip with mode := m } })

/-! ## The host link (rules R230 to R237) -/

/-- HOST_RX_BYTE (rule R230): never masked; the byte, the sentinel too, is appended, the sentinel sets the dispatch flag, and
a byte that finds the accumulator full is dropped and marked. -/
def Obligations.HostByteHandler : Prop :=
  (∀ (b : Byte) (s : State), s.nextMove = .hostByte b → step s = exec (.hostRxByte b) s.afterMove) ∧
    (∀ (b : Byte) (s : State), s.hrxCursor < 255 →
      ∃ m : Memory, exec (.hostRxByte b) s =
          .next { s with hrx := m, hrxCursor := s.hrxCursor + 1, dispatchFlag := decide (b = 0xFF) || s.dispatchFlag } ∧
        ∀ i, ({ s with hrx := m } : State).readBuf .hrx i = if i = s.hrxCursor then b else s.readBuf .hrx i) ∧
    (∀ (b : Byte) (s : State), 255 ≤ s.hrxCursor →
      exec (.hostRxByte b) s = .next { s with marks := s.marks.add .bufOverrun })

/-- HOST_DISPATCH's own micro-steps H1, H3 and H4 (rule R231). -/
def Obligations.HostDispatchMicroSteps : Prop :=
  ∀ s : State,
    ((∀ l, s.seq ≠ .dispatch l) →
      exec .hostDispatch s =
        .next { s with dispTag := s.readBuf .hrx 0, dispLen := s.hrxCursor, seq := .dispatch .h2,
                       env := { s.env with draws := s.env.draws + 1 } }) ∧
    (s.seq = .dispatch .h3 →
      exec .hostDispatch s = .next { s with hrxCursor := 0, dispatchFlag := false, seq := .dispatch .h4 }) ∧
    (s.seq = .dispatch .h4 → exec .hostDispatch s = .next { s with seq := .loop })

/-- The configuration command (rules R232, R258): `backoff_byte` is stored and CONFIGURE is called with the frame's code, its
C0 the next micro-step, to return to H3; the sequencer's next step is that C0, whatever handler runs in between. In a frame of two bytes or more the code is `HRX[1]`, which in `[0x01, 0xFF]` is the sentinel (rule R104); in one of
three or more the backoff byte is `HRX[2]`, else it is drawn. -/
def Obligations.ConfigCommand : Prop :=
  (∀ (csc backoff : Byte) (s : State),
    exec (.hostConfig csc backoff) s =
      .next { s with backoffByte := backoff, caller := .dispatch .h3, csc := csc, seq := .configure .c0 }) ∧
    (∀ (s : State) (k : Nat), s.nextMove = .loop k → s.seq = .configure .c0 →
      step s =
        .next { s.afterMove with cfgTable := cfgTableOf s.csc, paTable := paTableOf s.csc, seq := .configure .c1 }) ∧
    (∀ (s : State) (k : Nat), s.nextMove = .loop k → s.seq = .dispatch .h2 → s.dispTag = 0x01 → 2 ≤ s.dispLen →
      ∃ backoff : Byte, (3 ≤ s.dispLen → backoff = s.readBuf .hrx 2) ∧
        step s = exec (.hostConfig (s.readBuf .hrx 1) backoff) s.afterMove)

/-- The data-to-send command (rule R233): the whole frame, its tag included, is copied behind its length into TXBUF, and is
pending; the tag byte of TXBUF and all beyond the frame are left; an unsent frame is marked and overwritten. At H2 the frame
is the accumulator's: the tag read at H1 and `HRX[1 .. n)`. -/
def Obligations.DataCommand : Prop :=
  (∀ (s : State) (k : Nat), s.nextMove = .loop k → s.seq = .dispatch .h2 → s.dispTag = 0x02 → 1 ≤ s.dispLen →
    step s = exec (.hostData (s.readRun .hrx 1 (s.dispLen - 1))) s.afterMove) ∧
  ∀ (rest : List Byte) (s : State), rest.length ≤ 254 →
    ∃ m : Memory, exec (.hostData rest) s =
        .next { s with txbuf := m, txPending := true, seq := .dispatch .h3,
                       marks := if s.txPending then s.marks.add .txOverwrite else s.marks } ∧
      ∀ i, ({ s with txbuf := m } : State).readBuf .txbuf i =
        if i = 1 then BitVec.ofNat 8 (rest.length + 1)
        else if 2 ≤ i ∧ i < rest.length + 3 then (0x02#8 :: rest).getD (i - 2) 0
        else s.readBuf .txbuf i

/-- Any other tag (rule R234): the accumulator is discarded and nothing else changes. -/
def Obligations.OtherTagDiscards : Prop :=
  (∀ (tag : Byte) (rest : List Byte) (s : State),
    exec (.hostOther tag rest) s = .next { s with seq := .dispatch .h3 }) ∧
    ∀ s : State, s.seq = .dispatch .h2 → s.dispTag ≠ 0x01 → s.dispTag ≠ 0x02 →
      s.soloRun 3 = .next { s with hrxCursor := 0, dispatchFlag := false, seq := .loop }

/-- HOST_TX_DRAIN (rule R236): one byte an invocation; at the frame's length the flag and the cursor are cleared, at once for
an empty frame; and it is enabled at `LOOP` while `send_pending` is 1. -/
def Obligations.HostTxDrain : Prop :=
  (∀ s : State, s.htxCursor + 1 < s.htxLen →
    exec .hostTxDrain s =
      .next { s with trace := s.trace ++ [.sendByte (s.readBuf .htx s.htxCursor)], htxCursor := s.htxCursor + 1 }) ∧
    (∀ s : State, s.htxCursor + 1 = s.htxLen →
      exec .hostTxDrain s =
        .next { s with trace := s.trace ++ [.sendByte (s.readBuf .htx s.htxCursor)], htxCursor := 0,
                       sendPending := false }) ∧
    (∀ s : State, s.htxCursor = s.htxLen →
      exec .hostTxDrain s = .next { s with htxCursor := 0, sendPending := false }) ∧
    (∀ (s : State) (k : Nat), s.nextMove = .loop k → s.seq = .loop → s.rxActive = false → s.txPending = false →
      s.dispatchFlag = false →
        step s = if s.sendPending then exec .hostTxDrain s.afterMove else .next s.afterMove)

/-- The boot notification (rule R237): it is the reset content of HTX, and the first two runs of HOST_TX_DRAIN send 0x03 and
then 0xFF, from every state rule R43 admits after reset. -/
def Obligations.BootNotification : Prop :=
  (∀ s : State, ResetState s → ∃ t : State, runInstr .hostTxDrain 2 s = .next t ∧
    t.trace = s.trace ++ [.sendByte 0x03, .sendByte 0xFF] ∧ t.sendPending = false ∧ t.htxCursor = 0) ∧
    ResetState State.reset

/-- HOST_BOOTNOTE: the notification is queued to the host (rules R36, R237; that it is an instruction of position `boot` is
log entry 13). -/
def Obligations.BootNoteIsQueued : Prop :=
  ∀ s : State, ∃ m : Memory, exec .hostBootnote s = .next { s with htx := m, htxLen := 2, htxCursor := 0, sendPending := true } ∧
    ∀ i, ({ s with htx := m } : State).readBuf .htx i =
      if i = 0 then 0x03 else if i = 1 then 0xFF else s.readBuf .htx i

/-! ## Steps -/

/-- Every instruction answers a next state, in every state (rule R250). -/
def Obligations.EveryInstructionAnswersNext : Prop :=
  ∀ (i : Instr) (s : State), ∃ t : State, exec i s = .next t

/-- A step never faults, and it refuses only bytes at `direct` that are no transaction (rules R101, R250). -/
def Obligations.StepNeverFaults : Prop :=
  ∀ s : State, (∃ t : State, step s = .next t) ∨
    (s.seq = .direct ∧ ∃ why, decodeBus s.request = .error why ∧ step s = .refused (.notATransaction why))

/-- A step runs the instruction that its fetched bytes decode to; at `direct` and `boot` the position moves on first (rules
R97, R231; log entries 11, 13). -/
def Obligations.StepRunsDecodedInstruction : Prop :=
  ∀ (s : State) (k : Nat) (i : Instr), s.nextMove = .loop k →
    (s.seq = .direct → decodeBus s.request = .ok i → step s = exec i { s.afterMove with seq := s.caller }) ∧
    (s.seq = .dispatch .h2 → decodeHostIn s.afterMove.hostFrame = .ok i → step s = exec i s.afterMove) ∧
    (s.seq = .boot → step s = exec .hostBootnote { s.afterMove with seq := .loop })

/-- Inside an operation a step runs that operation's next micro-step (rules R30, R287). -/
def Obligations.StepContinuesOperation : Prop :=
  ∀ (s : State) (k : Nat), s.nextMove = .loop k →
    (∀ l, s.seq = .configure l → step s = exec (.configure s.csc) s.afterMove) ∧
    (∀ l, s.seq = .writeConfig l → step s = exec (.writeConfig s.cfgTable) s.afterMove) ∧
    (∀ l, s.seq = .transmit l → step s = exec .transmit s.afterMove) ∧
    (∀ l, s.seq = .rxStep l → step s = exec .rxStep s.afterMove) ∧
    (∀ l, s.seq = .rxLast l → step s = exec .rxLast s.afterMove) ∧
    (∀ l, s.seq = .rxComplete l → step s = exec .rxComplete s.afterMove) ∧
    (∀ l, s.seq = .rxService l → step s = exec .rxService s.afterMove) ∧
    (∀ l, s.seq = .csma l → step s = exec .csmaService s.afterMove) ∧
    (∀ l, s.seq = .dispatch l → l ≠ .h2 → step s = exec .hostDispatch s.afterMove)

/-- The main loop (rule R287): at `LOOP` the sequencer starts an enabled service, any enabled service can be the one, and
with none enabled it idles. -/
def Obligations.LoopStartsAnEnabledService : Prop :=
  (∀ (s : State) (k : Nat), s.nextMove = .loop k → s.seq = .loop →
    (s.rxActive = false ∧ s.txPending = false ∧ s.dispatchFlag = false ∧ s.sendPending = false ∧
        step s = .next s.afterMove) ∨
      (s.rxActive = true ∧ step s = exec .rxService s.afterMove) ∨
      (s.txPending = true ∧ step s = exec .csmaService s.afterMove) ∨
      (s.dispatchFlag = true ∧ step s = exec .hostDispatch s.afterMove) ∨
      (s.sendPending = true ∧ step s = exec .hostTxDrain s.afterMove)) ∧
    ∀ s : State, s.seq = .loop →
      (s.rxActive = true → ∃ k, ∀ u, u = { s with env := { s.env with moves := .loop k :: s.env.moves } } →
        step u = exec .rxService u.afterMove) ∧
      (s.txPending = true → ∃ k, ∀ u, u = { s with env := { s.env with moves := .loop k :: s.env.moves } } →
        step u = exec .csmaService u.afterMove) ∧
      (s.dispatchFlag = true → ∃ k, ∀ u, u = { s with env := { s.env with moves := .loop k :: s.env.moves } } →
        step u = exec .hostDispatch u.afterMove) ∧
      (s.sendPending = true → ∃ k, ∀ u, u = { s with env := { s.env with moves := .loop k :: s.env.moves } } →
        step u = exec .hostTxDrain u.afterMove)

/-- An interrupt or an act of the outside leaves the sequencer where it was, performs no bus transaction, and changes only
what its own rule writes (rules R253, R255, R256): a host byte HRX at `hrx_cursor` alone, the cursor, the dispatch flag and
the overrun mark; a level of `sync_in` the pin, the flags of its handler and the latch; a level of `cca_in` that pin; a tick
the counter; an act of the chip the chip's side. -/
def Obligations.InterruptsLeaveTheSequencer : Prop :=
  ∀ s t : State, (∀ k, s.nextMove ≠ .loop k) → step s = .next t →
    ∃ syncIn ccaIn tickCount elapsed hrx cursor flag newPacket rxActive led edge marks chip env,
      t = { s with syncIn := syncIn, ccaIn := ccaIn, tickCount := tickCount, backoffElapsed := elapsed, hrx := hrx,
                   hrxCursor := cursor, dispatchFlag := flag, newPacket := newPacket, rxActive := rxActive, ledRx := led,
                   edgePending := edge, marks := marks, chip := chip, env := env } ∧
      env.moves = s.env.moves.tail ∧ env.answers = s.env.answers ∧
      ((∀ b, s.nextMove ≠ .hostByte b) →
        hrx = s.hrx ∧ cursor = s.hrxCursor ∧ flag = s.dispatchFlag ∧ marks = s.marks) ∧
      (∀ i, i ≠ s.hrxCursor → t.readBuf .hrx i = s.readBuf .hrx i) ∧
      (s.hrxCursor < 255 → marks = s.marks) ∧
      (255 ≤ s.hrxCursor → hrx = s.hrx ∧ (marks = s.marks ∨ marks = s.marks.add .bufOverrun)) ∧
      ((∀ level, s.nextMove ≠ .syncLevel level) →
        syncIn = s.syncIn ∧ newPacket = s.newPacket ∧ rxActive = s.rxActive ∧ led = s.ledRx ∧ edge = s.edgePending ∧
          env.choices = s.env.choices) ∧
      ((∀ level, s.nextMove ≠ .ccaLevel level) → ccaIn = s.ccaIn) ∧
      (s.nextMove ≠ .tick → tickCount = s.tickCount ∧ elapsed = s.backoffElapsed) ∧
      ((∀ m, s.nextMove ≠ .chip m) → chip = s.chip)

/-! ## Invariants -/

/-- What holds right after reset (rules R43, R281; the values rule R43 leaves open are log entry 5's). -/
def Obligations.InvariantsHoldAtReset : Prop :=
  MemoryOk State.reset ∧ InRange State.reset ∧ Disciplined State.reset ∧ TagInPlace State.reset

/-- Every step keeps every byte space in its canonical form and within its capacity (rules R60, R64). -/
def Obligations.StepKeepsMemoryCanonical : Prop :=
  ∀ s t : State, MemoryOk s → step s = .next t → MemoryOk t

/-- Every step keeps the ranges of rules R23, R31, R34 to R36, and the select line high between transactions (rule R40). -/
def Obligations.StepKeepsRanges : Prop :=
  ∀ s t : State, InRange s → step s = .next t → InRange t

/-- Every step keeps the sequencer's discipline: one operation at a time with its caller, the mask during CONFIGURE and
around TRANSMIT, the tables that CONFIGURE sends (rules R72, R221, R222). -/
def Obligations.StepKeepsDiscipline : Prop :=
  ∀ s t : State, Disciplined s → step s = .next t → Disciplined t

/-- Every step leaves the burst-FIFO command tag in `TXBUF[0]` (rules R21, R222). -/
def Obligations.StepKeepsTag : Prop :=
  ∀ s t : State, TagInPlace s → step s = .next t → TagInPlace t

/-- A mark, once set, is never cleared (rule R33). -/
def Obligations.MarksAreSticky : Prop :=
  ∀ s t : State, step s = .next t → ∀ m, s.marks.has m = true → t.marks.has m = true

/-- One step adds at most one event to the trace and changes none before it; a bus transaction is the sequencer's alone
(rules R66, R70, R256). -/
def Obligations.TraceGrowsByAtMostOne : Prop :=
  ∀ s t : State, step s = .next t →
    t.trace = s.trace ∨ ∃ e, t.trace = s.trace ++ [e] ∧ (e.isXact = true → ∃ k, s.nextMove = .loop k)

/-- While the sync-edge interrupt is masked, no step but the re-arming sets a flag of its handler (rules R72, R295). -/
def Obligations.MaskHoldsOffTheHandler : Prop :=
  ∀ s t : State, s.irqEn = false → s.seq ≠ .configure .c13 → s.seq ≠ .csma .a6 → step s = .next t →
    (t.newPacket = true → s.newPacket = true) ∧ (t.rxActive = true → s.rxActive = true) ∧ (t.ledRx = true → s.ledRx = true)

/-- A quiescent state stays as it is until the outside acts (rules R287, R288). -/
def Obligations.QuiescentUntilTheOutsideActs : Prop :=
  ∀ (s : State) (k : Nat), s.quiescent = true → s.nextMove = .loop k → step s = .next s.afterMove
end

