-- ==== Sys2Proof/Laws/Memory.lean ====
section
/-! SUPPORT. The laws of a byte-addressed space: reading after writing, and the canonical form kept by every write. -/

namespace Sys2Proof.Machine

@[simp] theorem Memory.read_nil (a : Nat) : Memory.read [] a = none := rfl

theorem Memory.read_none_of_lt {n : Nat} {m : Memory} (h : Memory.wfFrom n m = true) {a : Nat} (ha : a < n) :
    Memory.read m a = none := by
  cases m with
  | nil => rfl
  | cons c m =>
    simp only [Memory.wfFrom, Bool.and_eq_true, decide_eq_true_eq] at h
    simp only [Memory.read]
    rw [if_neg (by omega), if_pos (by omega)]

/-- Reading the address just written gives the value written, in any memory. -/
@[simp] theorem Memory.read_write_same (m : Memory) (a : Nat) (v : Byte) : (Memory.write m a v).read a = some v := by
  induction m with
  | nil => simp [Memory.write, Memory.read]
  | cons c m ih =>
    simp only [Memory.write]
    split
    · simp [Memory.read]
    · split
      · simp [Memory.read]
      · simp only [Memory.read]
        rw [if_neg (by assumption), if_neg (by assumption), ih]

/-- A write leaves every other address alone, in any memory. -/
theorem Memory.read_write_other (m : Memory) {a b : Nat} (v : Byte) (h : b ≠ a) :
    (Memory.write m a v).read b = m.read b := by
  induction m with
  | nil => simp only [Memory.write, Memory.read]; rw [if_neg h]; simp
  | cons c m ih =>
    simp only [Memory.write]
    split
    · simp only [Memory.read]
      rw [if_neg h]
      by_cases hb : b < a
      · rw [if_pos hb, if_neg (by omega), if_pos (by omega)]
      · rw [if_neg hb]
    · split
      · subst_vars
        simp only [Memory.read]
        rw [if_neg h, if_neg h]
      · simp only [Memory.read, ih]

theorem Memory.wfFrom_mono {n k : Nat} {m : Memory} (h : Memory.wfFrom n m = true) (hk : k ≤ n) :
    Memory.wfFrom k m = true := by
  cases m with
  | nil => rfl
  | cons c m => simp only [Memory.wfFrom, Bool.and_eq_true, decide_eq_true_eq] at h ⊢; exact ⟨by omega, h.2⟩

theorem Memory.wfFrom_write {n : Nat} {m : Memory} (h : Memory.wfFrom n m = true) {a : Nat} (ha : n ≤ a) (v : Byte) :
    Memory.wfFrom n (Memory.write m a v) = true := by
  induction m generalizing n with
  | nil => simpa [Memory.write, Memory.wfFrom] using ha
  | cons c m ih =>
    simp only [Memory.wfFrom, Bool.and_eq_true, decide_eq_true_eq] at h
    simp only [Memory.write]
    split
    · simp only [Memory.wfFrom, Bool.and_eq_true, decide_eq_true_eq]
      exact ⟨ha, by omega, h.2⟩
    · split
      · subst_vars
        simp only [Memory.wfFrom, Bool.and_eq_true, decide_eq_true_eq]
        exact h
      · simp only [Memory.wfFrom, Bool.and_eq_true, decide_eq_true_eq]
        exact ⟨h.1, ih h.2 (by omega)⟩

/-- A write keeps the canonical form. -/
theorem Memory.wf_write {m : Memory} (h : m.wf = true) (a : Nat) (v : Byte) : (Memory.write m a v).wf = true :=
  Memory.wfFrom_write h (Nat.zero_le a) v

/-- A run of writes keeps the canonical form. -/
theorem Memory.wf_writeRun {m : Memory} (h : m.wf = true) (a : Nat) (vs : List Byte) :
    (Memory.writeRun m a vs).wf = true := by
  induction vs generalizing m a with
  | nil => exact h
  | cons v vs ih => exact ih (Memory.wf_write h a v) (a + 1)

/-- A write below `n` keeps every listed address below `n`. -/
theorem Memory.below_write {n : Nat} {m : Memory} (h : m.below n = true) {a : Nat} (ha : a < n) (v : Byte) :
    (Memory.write m a v).below n = true := by
  induction m with
  | nil => simpa [Memory.write, Memory.below] using ha
  | cons c m ih =>
    simp only [Memory.below, List.all_cons, Bool.and_eq_true, decide_eq_true_eq] at h ih
    simp only [Memory.write]
    split
    · simp only [Memory.below, List.all_cons, Bool.and_eq_true, decide_eq_true_eq]
      exact ⟨ha, h.1, h.2⟩
    · split
      · simp only [Memory.below, List.all_cons, Bool.and_eq_true, decide_eq_true_eq]
        exact ⟨ha, h.2⟩
      · simp only [Memory.below, List.all_cons, Bool.and_eq_true, decide_eq_true_eq]
        exact ⟨h.1, ih h.2⟩

/-- A run of writes that ends by `n` keeps every listed address below `n`. -/
theorem Memory.below_writeRun {n : Nat} {m : Memory} (h : m.below n = true) {a : Nat} {vs : List Byte}
    (ha : a + vs.length ≤ n) : (Memory.writeRun m a vs).below n = true := by
  induction vs generalizing m a with
  | nil => exact h
  | cons v vs ih =>
    simp only [List.length_cons] at ha
    exact ih (Memory.below_write h (by omega) v) (by omega)

/-- A run of writes leaves every address outside it alone. -/
theorem Memory.read_writeRun_other (m : Memory) {a b : Nat} (vs : List Byte) (h : b < a ∨ a + vs.length ≤ b) :
    (Memory.writeRun m a vs).read b = m.read b := by
  induction vs generalizing m a with
  | nil => rfl
  | cons v vs ih =>
    simp only [List.length_cons] at h
    simp only [Memory.writeRun]
    rw [ih _ (by omega), Memory.read_write_other _ _ (by omega)]

/-- A run of writes puts byte `k` at the `k`-th address from its start. -/
theorem Memory.read_writeRun_in (m : Memory) {a k : Nat} {vs : List Byte} (h : k < vs.length) :
    (Memory.writeRun m a vs).read (a + k) = some vs[k] := by
  induction vs generalizing m a k with
  | nil => simp at h
  | cons v vs ih =>
    simp only [Memory.writeRun]
    cases k with
    | zero => rw [Memory.read_writeRun_other _ _ (by omega)]; simp
    | succ k =>
      have hk : k < vs.length := by simpa using h
      rw [show a + (k + 1) = (a + 1) + k by omega, ih _ hk]
      simp

end Sys2Proof.Machine
end

