-- ==== Sys2Proof/Laws/State.lean ====
section
/-! SUPPORT. One lemma for each field of State and each update of it, so that no proof unfolds a record update. -/

namespace Sys2Proof.Machine

/-! ## s.goto p -/

@[simp] theorem State.goto_txbuf (s : State) (p : Pos) : (s.goto p).txbuf = s.txbuf := rfl
@[simp] theorem State.goto_rxbuf (s : State) (p : Pos) : (s.goto p).rxbuf = s.rxbuf := rfl
@[simp] theorem State.goto_rxCursor (s : State) (p : Pos) : (s.goto p).rxCursor = s.rxCursor := rfl
@[simp] theorem State.goto_rxExpected (s : State) (p : Pos) : (s.goto p).rxExpected = s.rxExpected := rfl
@[simp] theorem State.goto_newPacket (s : State) (p : Pos) : (s.goto p).newPacket = s.newPacket := rfl
@[simp] theorem State.goto_rxActive (s : State) (p : Pos) : (s.goto p).rxActive = s.rxActive := rfl
@[simp] theorem State.goto_irqEn (s : State) (p : Pos) : (s.goto p).irqEn = s.irqEn := rfl
@[simp] theorem State.goto_edgePending (s : State) (p : Pos) : (s.goto p).edgePending = s.edgePending := rfl
@[simp] theorem State.goto_seq (s : State) (p : Pos) : (s.goto p).seq = p := rfl
@[simp] theorem State.goto_caller (s : State) (p : Pos) : (s.goto p).caller = s.caller := rfl
@[simp] theorem State.goto_marks (s : State) (p : Pos) : (s.goto p).marks = s.marks := rfl
@[simp] theorem State.goto_txSent (s : State) (p : Pos) : (s.goto p).txSent = s.txSent := rfl
@[simp] theorem State.goto_csc (s : State) (p : Pos) : (s.goto p).csc = s.csc := rfl
@[simp] theorem State.goto_cfgTable (s : State) (p : Pos) : (s.goto p).cfgTable = s.cfgTable := rfl
@[simp] theorem State.goto_paTable (s : State) (p : Pos) : (s.goto p).paTable = s.paTable := rfl
@[simp] theorem State.goto_txPending (s : State) (p : Pos) : (s.goto p).txPending = s.txPending := rfl
@[simp] theorem State.goto_backingOff (s : State) (p : Pos) : (s.goto p).backingOff = s.backingOff := rfl
@[simp] theorem State.goto_backoffByte (s : State) (p : Pos) : (s.goto p).backoffByte = s.backoffByte := rfl
@[simp] theorem State.goto_backoffPeriod (s : State) (p : Pos) : (s.goto p).backoffPeriod = s.backoffPeriod := rfl
@[simp] theorem State.goto_backoffElapsed (s : State) (p : Pos) : (s.goto p).backoffElapsed = s.backoffElapsed := rfl
@[simp] theorem State.goto_ccaSample (s : State) (p : Pos) : (s.goto p).ccaSample = s.ccaSample := rfl
@[simp] theorem State.goto_hrx (s : State) (p : Pos) : (s.goto p).hrx = s.hrx := rfl
@[simp] theorem State.goto_hrxCursor (s : State) (p : Pos) : (s.goto p).hrxCursor = s.hrxCursor := rfl
@[simp] theorem State.goto_dispatchFlag (s : State) (p : Pos) : (s.goto p).dispatchFlag = s.dispatchFlag := rfl
@[simp] theorem State.goto_dispTag (s : State) (p : Pos) : (s.goto p).dispTag = s.dispTag := rfl
@[simp] theorem State.goto_dispLen (s : State) (p : Pos) : (s.goto p).dispLen = s.dispLen := rfl
@[simp] theorem State.goto_htx (s : State) (p : Pos) : (s.goto p).htx = s.htx := rfl
@[simp] theorem State.goto_htxCursor (s : State) (p : Pos) : (s.goto p).htxCursor = s.htxCursor := rfl
@[simp] theorem State.goto_htxLen (s : State) (p : Pos) : (s.goto p).htxLen = s.htxLen := rfl
@[simp] theorem State.goto_sendPending (s : State) (p : Pos) : (s.goto p).sendPending = s.sendPending := rfl
@[simp] theorem State.goto_csN (s : State) (p : Pos) : (s.goto p).csN = s.csN := rfl
@[simp] theorem State.goto_ledRx (s : State) (p : Pos) : (s.goto p).ledRx = s.ledRx := rfl
@[simp] theorem State.goto_ledS0 (s : State) (p : Pos) : (s.goto p).ledS0 = s.ledS0 := rfl
@[simp] theorem State.goto_ledS1 (s : State) (p : Pos) : (s.goto p).ledS1 = s.ledS1 := rfl
@[simp] theorem State.goto_syncIn (s : State) (p : Pos) : (s.goto p).syncIn = s.syncIn := rfl
@[simp] theorem State.goto_ccaIn (s : State) (p : Pos) : (s.goto p).ccaIn = s.ccaIn := rfl
@[simp] theorem State.goto_tickCount (s : State) (p : Pos) : (s.goto p).tickCount = s.tickCount := rfl
@[simp] theorem State.goto_rx (s : State) (p : Pos) : (s.goto p).rx = s.rx := rfl
@[simp] theorem State.goto_request (s : State) (p : Pos) : (s.goto p).request = s.request := rfl
@[simp] theorem State.goto_trace (s : State) (p : Pos) : (s.goto p).trace = s.trace := rfl
@[simp] theorem State.goto_chip (s : State) (p : Pos) : (s.goto p).chip = s.chip := rfl
@[simp] theorem State.goto_env (s : State) (p : Pos) : (s.goto p).env = s.env := rfl
@[simp] theorem State.goto_bufMem (s : State) (p : Pos) (b' : BufId) : (s.goto p).bufMem b' = s.bufMem b' := rfl
@[simp] theorem State.goto_readBuf (s : State) (p : Pos) (b' : BufId) (i : Nat) : (s.goto p).readBuf b' i = s.readBuf b' i := rfl

/-! ## s.ret -/

@[simp] theorem State.ret_txbuf (s : State) : (s.ret).txbuf = s.txbuf := rfl
@[simp] theorem State.ret_rxbuf (s : State) : (s.ret).rxbuf = s.rxbuf := rfl
@[simp] theorem State.ret_rxCursor (s : State) : (s.ret).rxCursor = s.rxCursor := rfl
@[simp] theorem State.ret_rxExpected (s : State) : (s.ret).rxExpected = s.rxExpected := rfl
@[simp] theorem State.ret_newPacket (s : State) : (s.ret).newPacket = s.newPacket := rfl
@[simp] theorem State.ret_rxActive (s : State) : (s.ret).rxActive = s.rxActive := rfl
@[simp] theorem State.ret_irqEn (s : State) : (s.ret).irqEn = s.irqEn := rfl
@[simp] theorem State.ret_edgePending (s : State) : (s.ret).edgePending = s.edgePending := rfl
@[simp] theorem State.ret_seq (s : State) : (s.ret).seq = s.caller := rfl
@[simp] theorem State.ret_caller (s : State) : (s.ret).caller = s.caller := rfl
@[simp] theorem State.ret_marks (s : State) : (s.ret).marks = s.marks := rfl
@[simp] theorem State.ret_txSent (s : State) : (s.ret).txSent = s.txSent := rfl
@[simp] theorem State.ret_csc (s : State) : (s.ret).csc = s.csc := rfl
@[simp] theorem State.ret_cfgTable (s : State) : (s.ret).cfgTable = s.cfgTable := rfl
@[simp] theorem State.ret_paTable (s : State) : (s.ret).paTable = s.paTable := rfl
@[simp] theorem State.ret_txPending (s : State) : (s.ret).txPending = s.txPending := rfl
@[simp] theorem State.ret_backingOff (s : State) : (s.ret).backingOff = s.backingOff := rfl
@[simp] theorem State.ret_backoffByte (s : State) : (s.ret).backoffByte = s.backoffByte := rfl
@[simp] theorem State.ret_backoffPeriod (s : State) : (s.ret).backoffPeriod = s.backoffPeriod := rfl
@[simp] theorem State.ret_backoffElapsed (s : State) : (s.ret).backoffElapsed = s.backoffElapsed := rfl
@[simp] theorem State.ret_ccaSample (s : State) : (s.ret).ccaSample = s.ccaSample := rfl
@[simp] theorem State.ret_hrx (s : State) : (s.ret).hrx = s.hrx := rfl
@[simp] theorem State.ret_hrxCursor (s : State) : (s.ret).hrxCursor = s.hrxCursor := rfl
@[simp] theorem State.ret_dispatchFlag (s : State) : (s.ret).dispatchFlag = s.dispatchFlag := rfl
@[simp] theorem State.ret_dispTag (s : State) : (s.ret).dispTag = s.dispTag := rfl
@[simp] theorem State.ret_dispLen (s : State) : (s.ret).dispLen = s.dispLen := rfl
@[simp] theorem State.ret_htx (s : State) : (s.ret).htx = s.htx := rfl
@[simp] theorem State.ret_htxCursor (s : State) : (s.ret).htxCursor = s.htxCursor := rfl
@[simp] theorem State.ret_htxLen (s : State) : (s.ret).htxLen = s.htxLen := rfl
@[simp] theorem State.ret_sendPending (s : State) : (s.ret).sendPending = s.sendPending := rfl
@[simp] theorem State.ret_csN (s : State) : (s.ret).csN = s.csN := rfl
@[simp] theorem State.ret_ledRx (s : State) : (s.ret).ledRx = s.ledRx := rfl
@[simp] theorem State.ret_ledS0 (s : State) : (s.ret).ledS0 = s.ledS0 := rfl
@[simp] theorem State.ret_ledS1 (s : State) : (s.ret).ledS1 = s.ledS1 := rfl
@[simp] theorem State.ret_syncIn (s : State) : (s.ret).syncIn = s.syncIn := rfl
@[simp] theorem State.ret_ccaIn (s : State) : (s.ret).ccaIn = s.ccaIn := rfl
@[simp] theorem State.ret_tickCount (s : State) : (s.ret).tickCount = s.tickCount := rfl
@[simp] theorem State.ret_rx (s : State) : (s.ret).rx = s.rx := rfl
@[simp] theorem State.ret_request (s : State) : (s.ret).request = s.request := rfl
@[simp] theorem State.ret_trace (s : State) : (s.ret).trace = s.trace := rfl
@[simp] theorem State.ret_chip (s : State) : (s.ret).chip = s.chip := rfl
@[simp] theorem State.ret_env (s : State) : (s.ret).env = s.env := rfl
@[simp] theorem State.ret_bufMem (s : State) (b' : BufId) : (s.ret).bufMem b' = s.bufMem b' := rfl
@[simp] theorem State.ret_readBuf (s : State) (b' : BufId) (i : Nat) : (s.ret).readBuf b' i = s.readBuf b' i := rfl

/-! ## s.callFrom p -/

@[simp] theorem State.callFrom_txbuf (s : State) (p : Pos) : (s.callFrom p).txbuf = s.txbuf := rfl
@[simp] theorem State.callFrom_rxbuf (s : State) (p : Pos) : (s.callFrom p).rxbuf = s.rxbuf := rfl
@[simp] theorem State.callFrom_rxCursor (s : State) (p : Pos) : (s.callFrom p).rxCursor = s.rxCursor := rfl
@[simp] theorem State.callFrom_rxExpected (s : State) (p : Pos) : (s.callFrom p).rxExpected = s.rxExpected := rfl
@[simp] theorem State.callFrom_newPacket (s : State) (p : Pos) : (s.callFrom p).newPacket = s.newPacket := rfl
@[simp] theorem State.callFrom_rxActive (s : State) (p : Pos) : (s.callFrom p).rxActive = s.rxActive := rfl
@[simp] theorem State.callFrom_irqEn (s : State) (p : Pos) : (s.callFrom p).irqEn = s.irqEn := rfl
@[simp] theorem State.callFrom_edgePending (s : State) (p : Pos) : (s.callFrom p).edgePending = s.edgePending := rfl
@[simp] theorem State.callFrom_seq (s : State) (p : Pos) : (s.callFrom p).seq = s.seq := rfl
@[simp] theorem State.callFrom_caller (s : State) (p : Pos) : (s.callFrom p).caller = p := rfl
@[simp] theorem State.callFrom_marks (s : State) (p : Pos) : (s.callFrom p).marks = s.marks := rfl
@[simp] theorem State.callFrom_txSent (s : State) (p : Pos) : (s.callFrom p).txSent = s.txSent := rfl
@[simp] theorem State.callFrom_csc (s : State) (p : Pos) : (s.callFrom p).csc = s.csc := rfl
@[simp] theorem State.callFrom_cfgTable (s : State) (p : Pos) : (s.callFrom p).cfgTable = s.cfgTable := rfl
@[simp] theorem State.callFrom_paTable (s : State) (p : Pos) : (s.callFrom p).paTable = s.paTable := rfl
@[simp] theorem State.callFrom_txPending (s : State) (p : Pos) : (s.callFrom p).txPending = s.txPending := rfl
@[simp] theorem State.callFrom_backingOff (s : State) (p : Pos) : (s.callFrom p).backingOff = s.backingOff := rfl
@[simp] theorem State.callFrom_backoffByte (s : State) (p : Pos) : (s.callFrom p).backoffByte = s.backoffByte := rfl
@[simp] theorem State.callFrom_backoffPeriod (s : State) (p : Pos) : (s.callFrom p).backoffPeriod = s.backoffPeriod := rfl
@[simp] theorem State.callFrom_backoffElapsed (s : State) (p : Pos) : (s.callFrom p).backoffElapsed = s.backoffElapsed := rfl
@[simp] theorem State.callFrom_ccaSample (s : State) (p : Pos) : (s.callFrom p).ccaSample = s.ccaSample := rfl
@[simp] theorem State.callFrom_hrx (s : State) (p : Pos) : (s.callFrom p).hrx = s.hrx := rfl
@[simp] theorem State.callFrom_hrxCursor (s : State) (p : Pos) : (s.callFrom p).hrxCursor = s.hrxCursor := rfl
@[simp] theorem State.callFrom_dispatchFlag (s : State) (p : Pos) : (s.callFrom p).dispatchFlag = s.dispatchFlag := rfl
@[simp] theorem State.callFrom_dispTag (s : State) (p : Pos) : (s.callFrom p).dispTag = s.dispTag := rfl
@[simp] theorem State.callFrom_dispLen (s : State) (p : Pos) : (s.callFrom p).dispLen = s.dispLen := rfl
@[simp] theorem State.callFrom_htx (s : State) (p : Pos) : (s.callFrom p).htx = s.htx := rfl
@[simp] theorem State.callFrom_htxCursor (s : State) (p : Pos) : (s.callFrom p).htxCursor = s.htxCursor := rfl
@[simp] theorem State.callFrom_htxLen (s : State) (p : Pos) : (s.callFrom p).htxLen = s.htxLen := rfl
@[simp] theorem State.callFrom_sendPending (s : State) (p : Pos) : (s.callFrom p).sendPending = s.sendPending := rfl
@[simp] theorem State.callFrom_csN (s : State) (p : Pos) : (s.callFrom p).csN = s.csN := rfl
@[simp] theorem State.callFrom_ledRx (s : State) (p : Pos) : (s.callFrom p).ledRx = s.ledRx := rfl
@[simp] theorem State.callFrom_ledS0 (s : State) (p : Pos) : (s.callFrom p).ledS0 = s.ledS0 := rfl
@[simp] theorem State.callFrom_ledS1 (s : State) (p : Pos) : (s.callFrom p).ledS1 = s.ledS1 := rfl
@[simp] theorem State.callFrom_syncIn (s : State) (p : Pos) : (s.callFrom p).syncIn = s.syncIn := rfl
@[simp] theorem State.callFrom_ccaIn (s : State) (p : Pos) : (s.callFrom p).ccaIn = s.ccaIn := rfl
@[simp] theorem State.callFrom_tickCount (s : State) (p : Pos) : (s.callFrom p).tickCount = s.tickCount := rfl
@[simp] theorem State.callFrom_rx (s : State) (p : Pos) : (s.callFrom p).rx = s.rx := rfl
@[simp] theorem State.callFrom_request (s : State) (p : Pos) : (s.callFrom p).request = s.request := rfl
@[simp] theorem State.callFrom_trace (s : State) (p : Pos) : (s.callFrom p).trace = s.trace := rfl
@[simp] theorem State.callFrom_chip (s : State) (p : Pos) : (s.callFrom p).chip = s.chip := rfl
@[simp] theorem State.callFrom_env (s : State) (p : Pos) : (s.callFrom p).env = s.env := rfl
@[simp] theorem State.callFrom_bufMem (s : State) (p : Pos) (b' : BufId) : (s.callFrom p).bufMem b' = s.bufMem b' := rfl
@[simp] theorem State.callFrom_readBuf (s : State) (p : Pos) (b' : BufId) (i : Nat) : (s.callFrom p).readBuf b' i = s.readBuf b' i := rfl

/-! ## s.mark m -/

@[simp] theorem State.mark_txbuf (s : State) (m : Mark) : (s.mark m).txbuf = s.txbuf := rfl
@[simp] theorem State.mark_rxbuf (s : State) (m : Mark) : (s.mark m).rxbuf = s.rxbuf := rfl
@[simp] theorem State.mark_rxCursor (s : State) (m : Mark) : (s.mark m).rxCursor = s.rxCursor := rfl
@[simp] theorem State.mark_rxExpected (s : State) (m : Mark) : (s.mark m).rxExpected = s.rxExpected := rfl
@[simp] theorem State.mark_newPacket (s : State) (m : Mark) : (s.mark m).newPacket = s.newPacket := rfl
@[simp] theorem State.mark_rxActive (s : State) (m : Mark) : (s.mark m).rxActive = s.rxActive := rfl
@[simp] theorem State.mark_irqEn (s : State) (m : Mark) : (s.mark m).irqEn = s.irqEn := rfl
@[simp] theorem State.mark_edgePending (s : State) (m : Mark) : (s.mark m).edgePending = s.edgePending := rfl
@[simp] theorem State.mark_seq (s : State) (m : Mark) : (s.mark m).seq = s.seq := rfl
@[simp] theorem State.mark_caller (s : State) (m : Mark) : (s.mark m).caller = s.caller := rfl
@[simp] theorem State.mark_marks (s : State) (m : Mark) : (s.mark m).marks = s.marks.add m := rfl
@[simp] theorem State.mark_txSent (s : State) (m : Mark) : (s.mark m).txSent = s.txSent := rfl
@[simp] theorem State.mark_csc (s : State) (m : Mark) : (s.mark m).csc = s.csc := rfl
@[simp] theorem State.mark_cfgTable (s : State) (m : Mark) : (s.mark m).cfgTable = s.cfgTable := rfl
@[simp] theorem State.mark_paTable (s : State) (m : Mark) : (s.mark m).paTable = s.paTable := rfl
@[simp] theorem State.mark_txPending (s : State) (m : Mark) : (s.mark m).txPending = s.txPending := rfl
@[simp] theorem State.mark_backingOff (s : State) (m : Mark) : (s.mark m).backingOff = s.backingOff := rfl
@[simp] theorem State.mark_backoffByte (s : State) (m : Mark) : (s.mark m).backoffByte = s.backoffByte := rfl
@[simp] theorem State.mark_backoffPeriod (s : State) (m : Mark) : (s.mark m).backoffPeriod = s.backoffPeriod := rfl
@[simp] theorem State.mark_backoffElapsed (s : State) (m : Mark) : (s.mark m).backoffElapsed = s.backoffElapsed := rfl
@[simp] theorem State.mark_ccaSample (s : State) (m : Mark) : (s.mark m).ccaSample = s.ccaSample := rfl
@[simp] theorem State.mark_hrx (s : State) (m : Mark) : (s.mark m).hrx = s.hrx := rfl
@[simp] theorem State.mark_hrxCursor (s : State) (m : Mark) : (s.mark m).hrxCursor = s.hrxCursor := rfl
@[simp] theorem State.mark_dispatchFlag (s : State) (m : Mark) : (s.mark m).dispatchFlag = s.dispatchFlag := rfl
@[simp] theorem State.mark_dispTag (s : State) (m : Mark) : (s.mark m).dispTag = s.dispTag := rfl
@[simp] theorem State.mark_dispLen (s : State) (m : Mark) : (s.mark m).dispLen = s.dispLen := rfl
@[simp] theorem State.mark_htx (s : State) (m : Mark) : (s.mark m).htx = s.htx := rfl
@[simp] theorem State.mark_htxCursor (s : State) (m : Mark) : (s.mark m).htxCursor = s.htxCursor := rfl
@[simp] theorem State.mark_htxLen (s : State) (m : Mark) : (s.mark m).htxLen = s.htxLen := rfl
@[simp] theorem State.mark_sendPending (s : State) (m : Mark) : (s.mark m).sendPending = s.sendPending := rfl
@[simp] theorem State.mark_csN (s : State) (m : Mark) : (s.mark m).csN = s.csN := rfl
@[simp] theorem State.mark_ledRx (s : State) (m : Mark) : (s.mark m).ledRx = s.ledRx := rfl
@[simp] theorem State.mark_ledS0 (s : State) (m : Mark) : (s.mark m).ledS0 = s.ledS0 := rfl
@[simp] theorem State.mark_ledS1 (s : State) (m : Mark) : (s.mark m).ledS1 = s.ledS1 := rfl
@[simp] theorem State.mark_syncIn (s : State) (m : Mark) : (s.mark m).syncIn = s.syncIn := rfl
@[simp] theorem State.mark_ccaIn (s : State) (m : Mark) : (s.mark m).ccaIn = s.ccaIn := rfl
@[simp] theorem State.mark_tickCount (s : State) (m : Mark) : (s.mark m).tickCount = s.tickCount := rfl
@[simp] theorem State.mark_rx (s : State) (m : Mark) : (s.mark m).rx = s.rx := rfl
@[simp] theorem State.mark_request (s : State) (m : Mark) : (s.mark m).request = s.request := rfl
@[simp] theorem State.mark_trace (s : State) (m : Mark) : (s.mark m).trace = s.trace := rfl
@[simp] theorem State.mark_chip (s : State) (m : Mark) : (s.mark m).chip = s.chip := rfl
@[simp] theorem State.mark_env (s : State) (m : Mark) : (s.mark m).env = s.env := rfl
@[simp] theorem State.mark_bufMem (s : State) (m : Mark) (b' : BufId) : (s.mark m).bufMem b' = s.bufMem b' := rfl
@[simp] theorem State.mark_readBuf (s : State) (m : Mark) (b' : BufId) (i : Nat) : (s.mark m).readBuf b' i = s.readBuf b' i := rfl

/-! ## s.log e -/

@[simp] theorem State.log_txbuf (s : State) (e : Event) : (s.log e).txbuf = s.txbuf := rfl
@[simp] theorem State.log_rxbuf (s : State) (e : Event) : (s.log e).rxbuf = s.rxbuf := rfl
@[simp] theorem State.log_rxCursor (s : State) (e : Event) : (s.log e).rxCursor = s.rxCursor := rfl
@[simp] theorem State.log_rxExpected (s : State) (e : Event) : (s.log e).rxExpected = s.rxExpected := rfl
@[simp] theorem State.log_newPacket (s : State) (e : Event) : (s.log e).newPacket = s.newPacket := rfl
@[simp] theorem State.log_rxActive (s : State) (e : Event) : (s.log e).rxActive = s.rxActive := rfl
@[simp] theorem State.log_irqEn (s : State) (e : Event) : (s.log e).irqEn = s.irqEn := rfl
@[simp] theorem State.log_edgePending (s : State) (e : Event) : (s.log e).edgePending = s.edgePending := rfl
@[simp] theorem State.log_seq (s : State) (e : Event) : (s.log e).seq = s.seq := rfl
@[simp] theorem State.log_caller (s : State) (e : Event) : (s.log e).caller = s.caller := rfl
@[simp] theorem State.log_marks (s : State) (e : Event) : (s.log e).marks = s.marks := rfl
@[simp] theorem State.log_txSent (s : State) (e : Event) : (s.log e).txSent = s.txSent := rfl
@[simp] theorem State.log_csc (s : State) (e : Event) : (s.log e).csc = s.csc := rfl
@[simp] theorem State.log_cfgTable (s : State) (e : Event) : (s.log e).cfgTable = s.cfgTable := rfl
@[simp] theorem State.log_paTable (s : State) (e : Event) : (s.log e).paTable = s.paTable := rfl
@[simp] theorem State.log_txPending (s : State) (e : Event) : (s.log e).txPending = s.txPending := rfl
@[simp] theorem State.log_backingOff (s : State) (e : Event) : (s.log e).backingOff = s.backingOff := rfl
@[simp] theorem State.log_backoffByte (s : State) (e : Event) : (s.log e).backoffByte = s.backoffByte := rfl
@[simp] theorem State.log_backoffPeriod (s : State) (e : Event) : (s.log e).backoffPeriod = s.backoffPeriod := rfl
@[simp] theorem State.log_backoffElapsed (s : State) (e : Event) : (s.log e).backoffElapsed = s.backoffElapsed := rfl
@[simp] theorem State.log_ccaSample (s : State) (e : Event) : (s.log e).ccaSample = s.ccaSample := rfl
@[simp] theorem State.log_hrx (s : State) (e : Event) : (s.log e).hrx = s.hrx := rfl
@[simp] theorem State.log_hrxCursor (s : State) (e : Event) : (s.log e).hrxCursor = s.hrxCursor := rfl
@[simp] theorem State.log_dispatchFlag (s : State) (e : Event) : (s.log e).dispatchFlag = s.dispatchFlag := rfl
@[simp] theorem State.log_dispTag (s : State) (e : Event) : (s.log e).dispTag = s.dispTag := rfl
@[simp] theorem State.log_dispLen (s : State) (e : Event) : (s.log e).dispLen = s.dispLen := rfl
@[simp] theorem State.log_htx (s : State) (e : Event) : (s.log e).htx = s.htx := rfl
@[simp] theorem State.log_htxCursor (s : State) (e : Event) : (s.log e).htxCursor = s.htxCursor := rfl
@[simp] theorem State.log_htxLen (s : State) (e : Event) : (s.log e).htxLen = s.htxLen := rfl
@[simp] theorem State.log_sendPending (s : State) (e : Event) : (s.log e).sendPending = s.sendPending := rfl
@[simp] theorem State.log_csN (s : State) (e : Event) : (s.log e).csN = s.csN := rfl
@[simp] theorem State.log_ledRx (s : State) (e : Event) : (s.log e).ledRx = s.ledRx := rfl
@[simp] theorem State.log_ledS0 (s : State) (e : Event) : (s.log e).ledS0 = s.ledS0 := rfl
@[simp] theorem State.log_ledS1 (s : State) (e : Event) : (s.log e).ledS1 = s.ledS1 := rfl
@[simp] theorem State.log_syncIn (s : State) (e : Event) : (s.log e).syncIn = s.syncIn := rfl
@[simp] theorem State.log_ccaIn (s : State) (e : Event) : (s.log e).ccaIn = s.ccaIn := rfl
@[simp] theorem State.log_tickCount (s : State) (e : Event) : (s.log e).tickCount = s.tickCount := rfl
@[simp] theorem State.log_rx (s : State) (e : Event) : (s.log e).rx = s.rx := rfl
@[simp] theorem State.log_request (s : State) (e : Event) : (s.log e).request = s.request := rfl
@[simp] theorem State.log_trace (s : State) (e : Event) : (s.log e).trace = s.trace ++ [e] := rfl
@[simp] theorem State.log_chip (s : State) (e : Event) : (s.log e).chip = s.chip := rfl
@[simp] theorem State.log_env (s : State) (e : Event) : (s.log e).env = s.env := rfl
@[simp] theorem State.log_bufMem (s : State) (e : Event) (b' : BufId) : (s.log e).bufMem b' = s.bufMem b' := rfl
@[simp] theorem State.log_readBuf (s : State) (e : Event) (b' : BufId) (i : Nat) : (s.log e).readBuf b' i = s.readBuf b' i := rfl

/-! ## s.delay d -/

@[simp] theorem State.delay_txbuf (s : State) (d : Settle) : (s.delay d).txbuf = s.txbuf := rfl
@[simp] theorem State.delay_rxbuf (s : State) (d : Settle) : (s.delay d).rxbuf = s.rxbuf := rfl
@[simp] theorem State.delay_rxCursor (s : State) (d : Settle) : (s.delay d).rxCursor = s.rxCursor := rfl
@[simp] theorem State.delay_rxExpected (s : State) (d : Settle) : (s.delay d).rxExpected = s.rxExpected := rfl
@[simp] theorem State.delay_newPacket (s : State) (d : Settle) : (s.delay d).newPacket = s.newPacket := rfl
@[simp] theorem State.delay_rxActive (s : State) (d : Settle) : (s.delay d).rxActive = s.rxActive := rfl
@[simp] theorem State.delay_irqEn (s : State) (d : Settle) : (s.delay d).irqEn = s.irqEn := rfl
@[simp] theorem State.delay_edgePending (s : State) (d : Settle) : (s.delay d).edgePending = s.edgePending := rfl
@[simp] theorem State.delay_seq (s : State) (d : Settle) : (s.delay d).seq = s.seq := rfl
@[simp] theorem State.delay_caller (s : State) (d : Settle) : (s.delay d).caller = s.caller := rfl
@[simp] theorem State.delay_marks (s : State) (d : Settle) : (s.delay d).marks = s.marks := rfl
@[simp] theorem State.delay_txSent (s : State) (d : Settle) : (s.delay d).txSent = s.txSent := rfl
@[simp] theorem State.delay_csc (s : State) (d : Settle) : (s.delay d).csc = s.csc := rfl
@[simp] theorem State.delay_cfgTable (s : State) (d : Settle) : (s.delay d).cfgTable = s.cfgTable := rfl
@[simp] theorem State.delay_paTable (s : State) (d : Settle) : (s.delay d).paTable = s.paTable := rfl
@[simp] theorem State.delay_txPending (s : State) (d : Settle) : (s.delay d).txPending = s.txPending := rfl
@[simp] theorem State.delay_backingOff (s : State) (d : Settle) : (s.delay d).backingOff = s.backingOff := rfl
@[simp] theorem State.delay_backoffByte (s : State) (d : Settle) : (s.delay d).backoffByte = s.backoffByte := rfl
@[simp] theorem State.delay_backoffPeriod (s : State) (d : Settle) : (s.delay d).backoffPeriod = s.backoffPeriod := rfl
@[simp] theorem State.delay_backoffElapsed (s : State) (d : Settle) : (s.delay d).backoffElapsed = s.backoffElapsed := rfl
@[simp] theorem State.delay_ccaSample (s : State) (d : Settle) : (s.delay d).ccaSample = s.ccaSample := rfl
@[simp] theorem State.delay_hrx (s : State) (d : Settle) : (s.delay d).hrx = s.hrx := rfl
@[simp] theorem State.delay_hrxCursor (s : State) (d : Settle) : (s.delay d).hrxCursor = s.hrxCursor := rfl
@[simp] theorem State.delay_dispatchFlag (s : State) (d : Settle) : (s.delay d).dispatchFlag = s.dispatchFlag := rfl
@[simp] theorem State.delay_dispTag (s : State) (d : Settle) : (s.delay d).dispTag = s.dispTag := rfl
@[simp] theorem State.delay_dispLen (s : State) (d : Settle) : (s.delay d).dispLen = s.dispLen := rfl
@[simp] theorem State.delay_htx (s : State) (d : Settle) : (s.delay d).htx = s.htx := rfl
@[simp] theorem State.delay_htxCursor (s : State) (d : Settle) : (s.delay d).htxCursor = s.htxCursor := rfl
@[simp] theorem State.delay_htxLen (s : State) (d : Settle) : (s.delay d).htxLen = s.htxLen := rfl
@[simp] theorem State.delay_sendPending (s : State) (d : Settle) : (s.delay d).sendPending = s.sendPending := rfl
@[simp] theorem State.delay_csN (s : State) (d : Settle) : (s.delay d).csN = s.csN := rfl
@[simp] theorem State.delay_ledRx (s : State) (d : Settle) : (s.delay d).ledRx = s.ledRx := rfl
@[simp] theorem State.delay_ledS0 (s : State) (d : Settle) : (s.delay d).ledS0 = s.ledS0 := rfl
@[simp] theorem State.delay_ledS1 (s : State) (d : Settle) : (s.delay d).ledS1 = s.ledS1 := rfl
@[simp] theorem State.delay_syncIn (s : State) (d : Settle) : (s.delay d).syncIn = s.syncIn := rfl
@[simp] theorem State.delay_ccaIn (s : State) (d : Settle) : (s.delay d).ccaIn = s.ccaIn := rfl
@[simp] theorem State.delay_tickCount (s : State) (d : Settle) : (s.delay d).tickCount = s.tickCount := rfl
@[simp] theorem State.delay_rx (s : State) (d : Settle) : (s.delay d).rx = s.rx := rfl
@[simp] theorem State.delay_request (s : State) (d : Settle) : (s.delay d).request = s.request := rfl
@[simp] theorem State.delay_trace (s : State) (d : Settle) : (s.delay d).trace = s.trace ++ [.delay d] := rfl
@[simp] theorem State.delay_chip (s : State) (d : Settle) : (s.delay d).chip = s.chip := rfl
@[simp] theorem State.delay_env (s : State) (d : Settle) : (s.delay d).env = s.env := rfl
@[simp] theorem State.delay_bufMem (s : State) (d : Settle) (b' : BufId) : (s.delay d).bufMem b' = s.bufMem b' := rfl
@[simp] theorem State.delay_readBuf (s : State) (d : Settle) (b' : BufId) (i : Nat) : (s.delay d).readBuf b' i = s.readBuf b' i := rfl

/-! ## s.maskIrq -/

@[simp] theorem State.maskIrq_txbuf (s : State) : (s.maskIrq).txbuf = s.txbuf := rfl
@[simp] theorem State.maskIrq_rxbuf (s : State) : (s.maskIrq).rxbuf = s.rxbuf := rfl
@[simp] theorem State.maskIrq_rxCursor (s : State) : (s.maskIrq).rxCursor = s.rxCursor := rfl
@[simp] theorem State.maskIrq_rxExpected (s : State) : (s.maskIrq).rxExpected = s.rxExpected := rfl
@[simp] theorem State.maskIrq_newPacket (s : State) : (s.maskIrq).newPacket = s.newPacket := rfl
@[simp] theorem State.maskIrq_rxActive (s : State) : (s.maskIrq).rxActive = s.rxActive := rfl
@[simp] theorem State.maskIrq_irqEn (s : State) : (s.maskIrq).irqEn = false := rfl
@[simp] theorem State.maskIrq_edgePending (s : State) : (s.maskIrq).edgePending = s.edgePending := rfl
@[simp] theorem State.maskIrq_seq (s : State) : (s.maskIrq).seq = s.seq := rfl
@[simp] theorem State.maskIrq_caller (s : State) : (s.maskIrq).caller = s.caller := rfl
@[simp] theorem State.maskIrq_marks (s : State) : (s.maskIrq).marks = s.marks := rfl
@[simp] theorem State.maskIrq_txSent (s : State) : (s.maskIrq).txSent = s.txSent := rfl
@[simp] theorem State.maskIrq_csc (s : State) : (s.maskIrq).csc = s.csc := rfl
@[simp] theorem State.maskIrq_cfgTable (s : State) : (s.maskIrq).cfgTable = s.cfgTable := rfl
@[simp] theorem State.maskIrq_paTable (s : State) : (s.maskIrq).paTable = s.paTable := rfl
@[simp] theorem State.maskIrq_txPending (s : State) : (s.maskIrq).txPending = s.txPending := rfl
@[simp] theorem State.maskIrq_backingOff (s : State) : (s.maskIrq).backingOff = s.backingOff := rfl
@[simp] theorem State.maskIrq_backoffByte (s : State) : (s.maskIrq).backoffByte = s.backoffByte := rfl
@[simp] theorem State.maskIrq_backoffPeriod (s : State) : (s.maskIrq).backoffPeriod = s.backoffPeriod := rfl
@[simp] theorem State.maskIrq_backoffElapsed (s : State) : (s.maskIrq).backoffElapsed = s.backoffElapsed := rfl
@[simp] theorem State.maskIrq_ccaSample (s : State) : (s.maskIrq).ccaSample = s.ccaSample := rfl
@[simp] theorem State.maskIrq_hrx (s : State) : (s.maskIrq).hrx = s.hrx := rfl
@[simp] theorem State.maskIrq_hrxCursor (s : State) : (s.maskIrq).hrxCursor = s.hrxCursor := rfl
@[simp] theorem State.maskIrq_dispatchFlag (s : State) : (s.maskIrq).dispatchFlag = s.dispatchFlag := rfl
@[simp] theorem State.maskIrq_dispTag (s : State) : (s.maskIrq).dispTag = s.dispTag := rfl
@[simp] theorem State.maskIrq_dispLen (s : State) : (s.maskIrq).dispLen = s.dispLen := rfl
@[simp] theorem State.maskIrq_htx (s : State) : (s.maskIrq).htx = s.htx := rfl
@[simp] theorem State.maskIrq_htxCursor (s : State) : (s.maskIrq).htxCursor = s.htxCursor := rfl
@[simp] theorem State.maskIrq_htxLen (s : State) : (s.maskIrq).htxLen = s.htxLen := rfl
@[simp] theorem State.maskIrq_sendPending (s : State) : (s.maskIrq).sendPending = s.sendPending := rfl
@[simp] theorem State.maskIrq_csN (s : State) : (s.maskIrq).csN = s.csN := rfl
@[simp] theorem State.maskIrq_ledRx (s : State) : (s.maskIrq).ledRx = s.ledRx := rfl
@[simp] theorem State.maskIrq_ledS0 (s : State) : (s.maskIrq).ledS0 = s.ledS0 := rfl
@[simp] theorem State.maskIrq_ledS1 (s : State) : (s.maskIrq).ledS1 = s.ledS1 := rfl
@[simp] theorem State.maskIrq_syncIn (s : State) : (s.maskIrq).syncIn = s.syncIn := rfl
@[simp] theorem State.maskIrq_ccaIn (s : State) : (s.maskIrq).ccaIn = s.ccaIn := rfl
@[simp] theorem State.maskIrq_tickCount (s : State) : (s.maskIrq).tickCount = s.tickCount := rfl
@[simp] theorem State.maskIrq_rx (s : State) : (s.maskIrq).rx = s.rx := rfl
@[simp] theorem State.maskIrq_request (s : State) : (s.maskIrq).request = s.request := rfl
@[simp] theorem State.maskIrq_trace (s : State) : (s.maskIrq).trace = s.trace := rfl
@[simp] theorem State.maskIrq_chip (s : State) : (s.maskIrq).chip = s.chip := rfl
@[simp] theorem State.maskIrq_env (s : State) : (s.maskIrq).env = s.env := rfl
@[simp] theorem State.maskIrq_bufMem (s : State) (b' : BufId) : (s.maskIrq).bufMem b' = s.bufMem b' := rfl
@[simp] theorem State.maskIrq_readBuf (s : State) (b' : BufId) (i : Nat) : (s.maskIrq).readBuf b' i = s.readBuf b' i := rfl

/-! ## s.dropChoice -/

@[simp] theorem State.dropChoice_txbuf (s : State) : (s.dropChoice).txbuf = s.txbuf := rfl
@[simp] theorem State.dropChoice_rxbuf (s : State) : (s.dropChoice).rxbuf = s.rxbuf := rfl
@[simp] theorem State.dropChoice_rxCursor (s : State) : (s.dropChoice).rxCursor = s.rxCursor := rfl
@[simp] theorem State.dropChoice_rxExpected (s : State) : (s.dropChoice).rxExpected = s.rxExpected := rfl
@[simp] theorem State.dropChoice_newPacket (s : State) : (s.dropChoice).newPacket = s.newPacket := rfl
@[simp] theorem State.dropChoice_rxActive (s : State) : (s.dropChoice).rxActive = s.rxActive := rfl
@[simp] theorem State.dropChoice_irqEn (s : State) : (s.dropChoice).irqEn = s.irqEn := rfl
@[simp] theorem State.dropChoice_edgePending (s : State) : (s.dropChoice).edgePending = s.edgePending := rfl
@[simp] theorem State.dropChoice_seq (s : State) : (s.dropChoice).seq = s.seq := rfl
@[simp] theorem State.dropChoice_caller (s : State) : (s.dropChoice).caller = s.caller := rfl
@[simp] theorem State.dropChoice_marks (s : State) : (s.dropChoice).marks = s.marks := rfl
@[simp] theorem State.dropChoice_txSent (s : State) : (s.dropChoice).txSent = s.txSent := rfl
@[simp] theorem State.dropChoice_csc (s : State) : (s.dropChoice).csc = s.csc := rfl
@[simp] theorem State.dropChoice_cfgTable (s : State) : (s.dropChoice).cfgTable = s.cfgTable := rfl
@[simp] theorem State.dropChoice_paTable (s : State) : (s.dropChoice).paTable = s.paTable := rfl
@[simp] theorem State.dropChoice_txPending (s : State) : (s.dropChoice).txPending = s.txPending := rfl
@[simp] theorem State.dropChoice_backingOff (s : State) : (s.dropChoice).backingOff = s.backingOff := rfl
@[simp] theorem State.dropChoice_backoffByte (s : State) : (s.dropChoice).backoffByte = s.backoffByte := rfl
@[simp] theorem State.dropChoice_backoffPeriod (s : State) : (s.dropChoice).backoffPeriod = s.backoffPeriod := rfl
@[simp] theorem State.dropChoice_backoffElapsed (s : State) : (s.dropChoice).backoffElapsed = s.backoffElapsed := rfl
@[simp] theorem State.dropChoice_ccaSample (s : State) : (s.dropChoice).ccaSample = s.ccaSample := rfl
@[simp] theorem State.dropChoice_hrx (s : State) : (s.dropChoice).hrx = s.hrx := rfl
@[simp] theorem State.dropChoice_hrxCursor (s : State) : (s.dropChoice).hrxCursor = s.hrxCursor := rfl
@[simp] theorem State.dropChoice_dispatchFlag (s : State) : (s.dropChoice).dispatchFlag = s.dispatchFlag := rfl
@[simp] theorem State.dropChoice_dispTag (s : State) : (s.dropChoice).dispTag = s.dispTag := rfl
@[simp] theorem State.dropChoice_dispLen (s : State) : (s.dropChoice).dispLen = s.dispLen := rfl
@[simp] theorem State.dropChoice_htx (s : State) : (s.dropChoice).htx = s.htx := rfl
@[simp] theorem State.dropChoice_htxCursor (s : State) : (s.dropChoice).htxCursor = s.htxCursor := rfl
@[simp] theorem State.dropChoice_htxLen (s : State) : (s.dropChoice).htxLen = s.htxLen := rfl
@[simp] theorem State.dropChoice_sendPending (s : State) : (s.dropChoice).sendPending = s.sendPending := rfl
@[simp] theorem State.dropChoice_csN (s : State) : (s.dropChoice).csN = s.csN := rfl
@[simp] theorem State.dropChoice_ledRx (s : State) : (s.dropChoice).ledRx = s.ledRx := rfl
@[simp] theorem State.dropChoice_ledS0 (s : State) : (s.dropChoice).ledS0 = s.ledS0 := rfl
@[simp] theorem State.dropChoice_ledS1 (s : State) : (s.dropChoice).ledS1 = s.ledS1 := rfl
@[simp] theorem State.dropChoice_syncIn (s : State) : (s.dropChoice).syncIn = s.syncIn := rfl
@[simp] theorem State.dropChoice_ccaIn (s : State) : (s.dropChoice).ccaIn = s.ccaIn := rfl
@[simp] theorem State.dropChoice_tickCount (s : State) : (s.dropChoice).tickCount = s.tickCount := rfl
@[simp] theorem State.dropChoice_rx (s : State) : (s.dropChoice).rx = s.rx := rfl
@[simp] theorem State.dropChoice_request (s : State) : (s.dropChoice).request = s.request := rfl
@[simp] theorem State.dropChoice_trace (s : State) : (s.dropChoice).trace = s.trace := rfl
@[simp] theorem State.dropChoice_chip (s : State) : (s.dropChoice).chip = s.chip := rfl
@[simp] theorem State.dropChoice_env (s : State) : (s.dropChoice).env = { s.env with choices := s.env.choices.tail, draws := s.env.draws + 1 } := rfl
@[simp] theorem State.dropChoice_bufMem (s : State) (b' : BufId) : (s.dropChoice).bufMem b' = s.bufMem b' := rfl
@[simp] theorem State.dropChoice_readBuf (s : State) (b' : BufId) (i : Nat) : (s.dropChoice).readBuf b' i = s.readBuf b' i := rfl

/-! ## s.syncHandler -/

@[simp] theorem State.syncHandler_txbuf (s : State) : (s.syncHandler).txbuf = s.txbuf := rfl
@[simp] theorem State.syncHandler_rxbuf (s : State) : (s.syncHandler).rxbuf = s.rxbuf := rfl
@[simp] theorem State.syncHandler_rxCursor (s : State) : (s.syncHandler).rxCursor = s.rxCursor := rfl
@[simp] theorem State.syncHandler_rxExpected (s : State) : (s.syncHandler).rxExpected = s.rxExpected := rfl
@[simp] theorem State.syncHandler_newPacket (s : State) : (s.syncHandler).newPacket = true := rfl
@[simp] theorem State.syncHandler_rxActive (s : State) : (s.syncHandler).rxActive = true := rfl
@[simp] theorem State.syncHandler_irqEn (s : State) : (s.syncHandler).irqEn = s.irqEn := rfl
@[simp] theorem State.syncHandler_edgePending (s : State) : (s.syncHandler).edgePending = s.edgePending := rfl
@[simp] theorem State.syncHandler_seq (s : State) : (s.syncHandler).seq = s.seq := rfl
@[simp] theorem State.syncHandler_caller (s : State) : (s.syncHandler).caller = s.caller := rfl
@[simp] theorem State.syncHandler_marks (s : State) : (s.syncHandler).marks = s.marks := rfl
@[simp] theorem State.syncHandler_txSent (s : State) : (s.syncHandler).txSent = s.txSent := rfl
@[simp] theorem State.syncHandler_csc (s : State) : (s.syncHandler).csc = s.csc := rfl
@[simp] theorem State.syncHandler_cfgTable (s : State) : (s.syncHandler).cfgTable = s.cfgTable := rfl
@[simp] theorem State.syncHandler_paTable (s : State) : (s.syncHandler).paTable = s.paTable := rfl
@[simp] theorem State.syncHandler_txPending (s : State) : (s.syncHandler).txPending = s.txPending := rfl
@[simp] theorem State.syncHandler_backingOff (s : State) : (s.syncHandler).backingOff = s.backingOff := rfl
@[simp] theorem State.syncHandler_backoffByte (s : State) : (s.syncHandler).backoffByte = s.backoffByte := rfl
@[simp] theorem State.syncHandler_backoffPeriod (s : State) : (s.syncHandler).backoffPeriod = s.backoffPeriod := rfl
@[simp] theorem State.syncHandler_backoffElapsed (s : State) : (s.syncHandler).backoffElapsed = s.backoffElapsed := rfl
@[simp] theorem State.syncHandler_ccaSample (s : State) : (s.syncHandler).ccaSample = s.ccaSample := rfl
@[simp] theorem State.syncHandler_hrx (s : State) : (s.syncHandler).hrx = s.hrx := rfl
@[simp] theorem State.syncHandler_hrxCursor (s : State) : (s.syncHandler).hrxCursor = s.hrxCursor := rfl
@[simp] theorem State.syncHandler_dispatchFlag (s : State) : (s.syncHandler).dispatchFlag = s.dispatchFlag := rfl
@[simp] theorem State.syncHandler_dispTag (s : State) : (s.syncHandler).dispTag = s.dispTag := rfl
@[simp] theorem State.syncHandler_dispLen (s : State) : (s.syncHandler).dispLen = s.dispLen := rfl
@[simp] theorem State.syncHandler_htx (s : State) : (s.syncHandler).htx = s.htx := rfl
@[simp] theorem State.syncHandler_htxCursor (s : State) : (s.syncHandler).htxCursor = s.htxCursor := rfl
@[simp] theorem State.syncHandler_htxLen (s : State) : (s.syncHandler).htxLen = s.htxLen := rfl
@[simp] theorem State.syncHandler_sendPending (s : State) : (s.syncHandler).sendPending = s.sendPending := rfl
@[simp] theorem State.syncHandler_csN (s : State) : (s.syncHandler).csN = s.csN := rfl
@[simp] theorem State.syncHandler_ledRx (s : State) : (s.syncHandler).ledRx = true := rfl
@[simp] theorem State.syncHandler_ledS0 (s : State) : (s.syncHandler).ledS0 = s.ledS0 := rfl
@[simp] theorem State.syncHandler_ledS1 (s : State) : (s.syncHandler).ledS1 = s.ledS1 := rfl
@[simp] theorem State.syncHandler_syncIn (s : State) : (s.syncHandler).syncIn = s.syncIn := rfl
@[simp] theorem State.syncHandler_ccaIn (s : State) : (s.syncHandler).ccaIn = s.ccaIn := rfl
@[simp] theorem State.syncHandler_tickCount (s : State) : (s.syncHandler).tickCount = s.tickCount := rfl
@[simp] theorem State.syncHandler_rx (s : State) : (s.syncHandler).rx = s.rx := rfl
@[simp] theorem State.syncHandler_request (s : State) : (s.syncHandler).request = s.request := rfl
@[simp] theorem State.syncHandler_trace (s : State) : (s.syncHandler).trace = s.trace := rfl
@[simp] theorem State.syncHandler_chip (s : State) : (s.syncHandler).chip = s.chip := rfl
@[simp] theorem State.syncHandler_env (s : State) : (s.syncHandler).env = s.env := rfl
@[simp] theorem State.syncHandler_bufMem (s : State) (b' : BufId) : (s.syncHandler).bufMem b' = s.bufMem b' := rfl
@[simp] theorem State.syncHandler_readBuf (s : State) (b' : BufId) (i : Nat) : (s.syncHandler).readBuf b' i = s.readBuf b' i := rfl

/-! ## s.buildTables csc -/

@[simp] theorem State.buildTables_txbuf (s : State) (csc : Byte) : (s.buildTables csc).txbuf = s.txbuf := rfl
@[simp] theorem State.buildTables_rxbuf (s : State) (csc : Byte) : (s.buildTables csc).rxbuf = s.rxbuf := rfl
@[simp] theorem State.buildTables_rxCursor (s : State) (csc : Byte) : (s.buildTables csc).rxCursor = s.rxCursor := rfl
@[simp] theorem State.buildTables_rxExpected (s : State) (csc : Byte) : (s.buildTables csc).rxExpected = s.rxExpected := rfl
@[simp] theorem State.buildTables_newPacket (s : State) (csc : Byte) : (s.buildTables csc).newPacket = s.newPacket := rfl
@[simp] theorem State.buildTables_rxActive (s : State) (csc : Byte) : (s.buildTables csc).rxActive = s.rxActive := rfl
@[simp] theorem State.buildTables_irqEn (s : State) (csc : Byte) : (s.buildTables csc).irqEn = s.irqEn := rfl
@[simp] theorem State.buildTables_edgePending (s : State) (csc : Byte) : (s.buildTables csc).edgePending = s.edgePending := rfl
@[simp] theorem State.buildTables_seq (s : State) (csc : Byte) : (s.buildTables csc).seq = s.seq := rfl
@[simp] theorem State.buildTables_caller (s : State) (csc : Byte) : (s.buildTables csc).caller = s.caller := rfl
@[simp] theorem State.buildTables_marks (s : State) (csc : Byte) : (s.buildTables csc).marks = s.marks := rfl
@[simp] theorem State.buildTables_txSent (s : State) (csc : Byte) : (s.buildTables csc).txSent = s.txSent := rfl
@[simp] theorem State.buildTables_csc (s : State) (csc : Byte) : (s.buildTables csc).csc = csc := rfl
@[simp] theorem State.buildTables_cfgTable (s : State) (csc : Byte) : (s.buildTables csc).cfgTable = cfgTableOf csc := rfl
@[simp] theorem State.buildTables_paTable (s : State) (csc : Byte) : (s.buildTables csc).paTable = paTableOf csc := rfl
@[simp] theorem State.buildTables_txPending (s : State) (csc : Byte) : (s.buildTables csc).txPending = s.txPending := rfl
@[simp] theorem State.buildTables_backingOff (s : State) (csc : Byte) : (s.buildTables csc).backingOff = s.backingOff := rfl
@[simp] theorem State.buildTables_backoffByte (s : State) (csc : Byte) : (s.buildTables csc).backoffByte = s.backoffByte := rfl
@[simp] theorem State.buildTables_backoffPeriod (s : State) (csc : Byte) : (s.buildTables csc).backoffPeriod = s.backoffPeriod := rfl
@[simp] theorem State.buildTables_backoffElapsed (s : State) (csc : Byte) : (s.buildTables csc).backoffElapsed = s.backoffElapsed := rfl
@[simp] theorem State.buildTables_ccaSample (s : State) (csc : Byte) : (s.buildTables csc).ccaSample = s.ccaSample := rfl
@[simp] theorem State.buildTables_hrx (s : State) (csc : Byte) : (s.buildTables csc).hrx = s.hrx := rfl
@[simp] theorem State.buildTables_hrxCursor (s : State) (csc : Byte) : (s.buildTables csc).hrxCursor = s.hrxCursor := rfl
@[simp] theorem State.buildTables_dispatchFlag (s : State) (csc : Byte) : (s.buildTables csc).dispatchFlag = s.dispatchFlag := rfl
@[simp] theorem State.buildTables_dispTag (s : State) (csc : Byte) : (s.buildTables csc).dispTag = s.dispTag := rfl
@[simp] theorem State.buildTables_dispLen (s : State) (csc : Byte) : (s.buildTables csc).dispLen = s.dispLen := rfl
@[simp] theorem State.buildTables_htx (s : State) (csc : Byte) : (s.buildTables csc).htx = s.htx := rfl
@[simp] theorem State.buildTables_htxCursor (s : State) (csc : Byte) : (s.buildTables csc).htxCursor = s.htxCursor := rfl
@[simp] theorem State.buildTables_htxLen (s : State) (csc : Byte) : (s.buildTables csc).htxLen = s.htxLen := rfl
@[simp] theorem State.buildTables_sendPending (s : State) (csc : Byte) : (s.buildTables csc).sendPending = s.sendPending := rfl
@[simp] theorem State.buildTables_csN (s : State) (csc : Byte) : (s.buildTables csc).csN = s.csN := rfl
@[simp] theorem State.buildTables_ledRx (s : State) (csc : Byte) : (s.buildTables csc).ledRx = s.ledRx := rfl
@[simp] theorem State.buildTables_ledS0 (s : State) (csc : Byte) : (s.buildTables csc).ledS0 = s.ledS0 := rfl
@[simp] theorem State.buildTables_ledS1 (s : State) (csc : Byte) : (s.buildTables csc).ledS1 = s.ledS1 := rfl
@[simp] theorem State.buildTables_syncIn (s : State) (csc : Byte) : (s.buildTables csc).syncIn = s.syncIn := rfl
@[simp] theorem State.buildTables_ccaIn (s : State) (csc : Byte) : (s.buildTables csc).ccaIn = s.ccaIn := rfl
@[simp] theorem State.buildTables_tickCount (s : State) (csc : Byte) : (s.buildTables csc).tickCount = s.tickCount := rfl
@[simp] theorem State.buildTables_rx (s : State) (csc : Byte) : (s.buildTables csc).rx = s.rx := rfl
@[simp] theorem State.buildTables_request (s : State) (csc : Byte) : (s.buildTables csc).request = s.request := rfl
@[simp] theorem State.buildTables_trace (s : State) (csc : Byte) : (s.buildTables csc).trace = s.trace := rfl
@[simp] theorem State.buildTables_chip (s : State) (csc : Byte) : (s.buildTables csc).chip = s.chip := rfl
@[simp] theorem State.buildTables_env (s : State) (csc : Byte) : (s.buildTables csc).env = s.env := rfl
@[simp] theorem State.buildTables_bufMem (s : State) (csc : Byte) (b' : BufId) : (s.buildTables csc).bufMem b' = s.bufMem b' := rfl
@[simp] theorem State.buildTables_readBuf (s : State) (csc : Byte) (b' : BufId) (i : Nat) : (s.buildTables csc).readBuf b' i = s.readBuf b' i := rfl

/-! ## s.afterMove -/

@[simp] theorem State.afterMove_txbuf (s : State) : (s.afterMove).txbuf = s.txbuf := rfl
@[simp] theorem State.afterMove_rxbuf (s : State) : (s.afterMove).rxbuf = s.rxbuf := rfl
@[simp] theorem State.afterMove_rxCursor (s : State) : (s.afterMove).rxCursor = s.rxCursor := rfl
@[simp] theorem State.afterMove_rxExpected (s : State) : (s.afterMove).rxExpected = s.rxExpected := rfl
@[simp] theorem State.afterMove_newPacket (s : State) : (s.afterMove).newPacket = s.newPacket := rfl
@[simp] theorem State.afterMove_rxActive (s : State) : (s.afterMove).rxActive = s.rxActive := rfl
@[simp] theorem State.afterMove_irqEn (s : State) : (s.afterMove).irqEn = s.irqEn := rfl
@[simp] theorem State.afterMove_edgePending (s : State) : (s.afterMove).edgePending = s.edgePending := rfl
@[simp] theorem State.afterMove_seq (s : State) : (s.afterMove).seq = s.seq := rfl
@[simp] theorem State.afterMove_caller (s : State) : (s.afterMove).caller = s.caller := rfl
@[simp] theorem State.afterMove_marks (s : State) : (s.afterMove).marks = s.marks := rfl
@[simp] theorem State.afterMove_txSent (s : State) : (s.afterMove).txSent = s.txSent := rfl
@[simp] theorem State.afterMove_csc (s : State) : (s.afterMove).csc = s.csc := rfl
@[simp] theorem State.afterMove_cfgTable (s : State) : (s.afterMove).cfgTable = s.cfgTable := rfl
@[simp] theorem State.afterMove_paTable (s : State) : (s.afterMove).paTable = s.paTable := rfl
@[simp] theorem State.afterMove_txPending (s : State) : (s.afterMove).txPending = s.txPending := rfl
@[simp] theorem State.afterMove_backingOff (s : State) : (s.afterMove).backingOff = s.backingOff := rfl
@[simp] theorem State.afterMove_backoffByte (s : State) : (s.afterMove).backoffByte = s.backoffByte := rfl
@[simp] theorem State.afterMove_backoffPeriod (s : State) : (s.afterMove).backoffPeriod = s.backoffPeriod := rfl
@[simp] theorem State.afterMove_backoffElapsed (s : State) : (s.afterMove).backoffElapsed = s.backoffElapsed := rfl
@[simp] theorem State.afterMove_ccaSample (s : State) : (s.afterMove).ccaSample = s.ccaSample := rfl
@[simp] theorem State.afterMove_hrx (s : State) : (s.afterMove).hrx = s.hrx := rfl
@[simp] theorem State.afterMove_hrxCursor (s : State) : (s.afterMove).hrxCursor = s.hrxCursor := rfl
@[simp] theorem State.afterMove_dispatchFlag (s : State) : (s.afterMove).dispatchFlag = s.dispatchFlag := rfl
@[simp] theorem State.afterMove_dispTag (s : State) : (s.afterMove).dispTag = s.dispTag := rfl
@[simp] theorem State.afterMove_dispLen (s : State) : (s.afterMove).dispLen = s.dispLen := rfl
@[simp] theorem State.afterMove_htx (s : State) : (s.afterMove).htx = s.htx := rfl
@[simp] theorem State.afterMove_htxCursor (s : State) : (s.afterMove).htxCursor = s.htxCursor := rfl
@[simp] theorem State.afterMove_htxLen (s : State) : (s.afterMove).htxLen = s.htxLen := rfl
@[simp] theorem State.afterMove_sendPending (s : State) : (s.afterMove).sendPending = s.sendPending := rfl
@[simp] theorem State.afterMove_csN (s : State) : (s.afterMove).csN = s.csN := rfl
@[simp] theorem State.afterMove_ledRx (s : State) : (s.afterMove).ledRx = s.ledRx := rfl
@[simp] theorem State.afterMove_ledS0 (s : State) : (s.afterMove).ledS0 = s.ledS0 := rfl
@[simp] theorem State.afterMove_ledS1 (s : State) : (s.afterMove).ledS1 = s.ledS1 := rfl
@[simp] theorem State.afterMove_syncIn (s : State) : (s.afterMove).syncIn = s.syncIn := rfl
@[simp] theorem State.afterMove_ccaIn (s : State) : (s.afterMove).ccaIn = s.ccaIn := rfl
@[simp] theorem State.afterMove_tickCount (s : State) : (s.afterMove).tickCount = s.tickCount := rfl
@[simp] theorem State.afterMove_rx (s : State) : (s.afterMove).rx = s.rx := rfl
@[simp] theorem State.afterMove_request (s : State) : (s.afterMove).request = s.request := rfl
@[simp] theorem State.afterMove_trace (s : State) : (s.afterMove).trace = s.trace := rfl
@[simp] theorem State.afterMove_chip (s : State) : (s.afterMove).chip = s.chip := rfl
@[simp] theorem State.afterMove_env (s : State) : (s.afterMove).env = { s.env with moves := s.env.moves.tail, draws := s.env.draws + 1 } := rfl
@[simp] theorem State.afterMove_bufMem (s : State) (b' : BufId) : (s.afterMove).bufMem b' = s.bufMem b' := rfl
@[simp] theorem State.afterMove_readBuf (s : State) (b' : BufId) (i : Nat) : (s.afterMove).readBuf b' i = s.readBuf b' i := rfl

/-! ## s.tickOnce -/

@[simp] theorem State.tickOnce_txbuf (s : State) : (s.tickOnce).txbuf = s.txbuf := rfl
@[simp] theorem State.tickOnce_rxbuf (s : State) : (s.tickOnce).rxbuf = s.rxbuf := rfl
@[simp] theorem State.tickOnce_rxCursor (s : State) : (s.tickOnce).rxCursor = s.rxCursor := rfl
@[simp] theorem State.tickOnce_rxExpected (s : State) : (s.tickOnce).rxExpected = s.rxExpected := rfl
@[simp] theorem State.tickOnce_newPacket (s : State) : (s.tickOnce).newPacket = s.newPacket := rfl
@[simp] theorem State.tickOnce_rxActive (s : State) : (s.tickOnce).rxActive = s.rxActive := rfl
@[simp] theorem State.tickOnce_irqEn (s : State) : (s.tickOnce).irqEn = s.irqEn := rfl
@[simp] theorem State.tickOnce_edgePending (s : State) : (s.tickOnce).edgePending = s.edgePending := rfl
@[simp] theorem State.tickOnce_seq (s : State) : (s.tickOnce).seq = s.seq := rfl
@[simp] theorem State.tickOnce_caller (s : State) : (s.tickOnce).caller = s.caller := rfl
@[simp] theorem State.tickOnce_marks (s : State) : (s.tickOnce).marks = s.marks := rfl
@[simp] theorem State.tickOnce_txSent (s : State) : (s.tickOnce).txSent = s.txSent := rfl
@[simp] theorem State.tickOnce_csc (s : State) : (s.tickOnce).csc = s.csc := rfl
@[simp] theorem State.tickOnce_cfgTable (s : State) : (s.tickOnce).cfgTable = s.cfgTable := rfl
@[simp] theorem State.tickOnce_paTable (s : State) : (s.tickOnce).paTable = s.paTable := rfl
@[simp] theorem State.tickOnce_txPending (s : State) : (s.tickOnce).txPending = s.txPending := rfl
@[simp] theorem State.tickOnce_backingOff (s : State) : (s.tickOnce).backingOff = s.backingOff := rfl
@[simp] theorem State.tickOnce_backoffByte (s : State) : (s.tickOnce).backoffByte = s.backoffByte := rfl
@[simp] theorem State.tickOnce_backoffPeriod (s : State) : (s.tickOnce).backoffPeriod = s.backoffPeriod := rfl
@[simp] theorem State.tickOnce_backoffElapsed (s : State) : (s.tickOnce).backoffElapsed = s.backoffElapsed + 1 := rfl
@[simp] theorem State.tickOnce_ccaSample (s : State) : (s.tickOnce).ccaSample = s.ccaSample := rfl
@[simp] theorem State.tickOnce_hrx (s : State) : (s.tickOnce).hrx = s.hrx := rfl
@[simp] theorem State.tickOnce_hrxCursor (s : State) : (s.tickOnce).hrxCursor = s.hrxCursor := rfl
@[simp] theorem State.tickOnce_dispatchFlag (s : State) : (s.tickOnce).dispatchFlag = s.dispatchFlag := rfl
@[simp] theorem State.tickOnce_dispTag (s : State) : (s.tickOnce).dispTag = s.dispTag := rfl
@[simp] theorem State.tickOnce_dispLen (s : State) : (s.tickOnce).dispLen = s.dispLen := rfl
@[simp] theorem State.tickOnce_htx (s : State) : (s.tickOnce).htx = s.htx := rfl
@[simp] theorem State.tickOnce_htxCursor (s : State) : (s.tickOnce).htxCursor = s.htxCursor := rfl
@[simp] theorem State.tickOnce_htxLen (s : State) : (s.tickOnce).htxLen = s.htxLen := rfl
@[simp] theorem State.tickOnce_sendPending (s : State) : (s.tickOnce).sendPending = s.sendPending := rfl
@[simp] theorem State.tickOnce_csN (s : State) : (s.tickOnce).csN = s.csN := rfl
@[simp] theorem State.tickOnce_ledRx (s : State) : (s.tickOnce).ledRx = s.ledRx := rfl
@[simp] theorem State.tickOnce_ledS0 (s : State) : (s.tickOnce).ledS0 = s.ledS0 := rfl
@[simp] theorem State.tickOnce_ledS1 (s : State) : (s.tickOnce).ledS1 = s.ledS1 := rfl
@[simp] theorem State.tickOnce_syncIn (s : State) : (s.tickOnce).syncIn = s.syncIn := rfl
@[simp] theorem State.tickOnce_ccaIn (s : State) : (s.tickOnce).ccaIn = s.ccaIn := rfl
@[simp] theorem State.tickOnce_tickCount (s : State) : (s.tickOnce).tickCount = s.tickCount + 1 := rfl
@[simp] theorem State.tickOnce_rx (s : State) : (s.tickOnce).rx = s.rx := rfl
@[simp] theorem State.tickOnce_request (s : State) : (s.tickOnce).request = s.request := rfl
@[simp] theorem State.tickOnce_trace (s : State) : (s.tickOnce).trace = s.trace := rfl
@[simp] theorem State.tickOnce_chip (s : State) : (s.tickOnce).chip = s.chip := rfl
@[simp] theorem State.tickOnce_env (s : State) : (s.tickOnce).env = s.env := rfl
@[simp] theorem State.tickOnce_bufMem (s : State) (b' : BufId) : (s.tickOnce).bufMem b' = s.bufMem b' := rfl
@[simp] theorem State.tickOnce_readBuf (s : State) (b' : BufId) (i : Nat) : (s.tickOnce).readBuf b' i = s.readBuf b' i := rfl

/-! ## s.xact tx -/

@[simp] theorem State.xact_txbuf (s : State) (tx : List Byte) : (s.xact tx).txbuf = s.txbuf := rfl
@[simp] theorem State.xact_rxbuf (s : State) (tx : List Byte) : (s.xact tx).rxbuf = s.rxbuf := rfl
@[simp] theorem State.xact_rxCursor (s : State) (tx : List Byte) : (s.xact tx).rxCursor = s.rxCursor := rfl
@[simp] theorem State.xact_rxExpected (s : State) (tx : List Byte) : (s.xact tx).rxExpected = s.rxExpected := rfl
@[simp] theorem State.xact_newPacket (s : State) (tx : List Byte) : (s.xact tx).newPacket = s.newPacket := rfl
@[simp] theorem State.xact_rxActive (s : State) (tx : List Byte) : (s.xact tx).rxActive = s.rxActive := rfl
@[simp] theorem State.xact_irqEn (s : State) (tx : List Byte) : (s.xact tx).irqEn = s.irqEn := rfl
@[simp] theorem State.xact_edgePending (s : State) (tx : List Byte) : (s.xact tx).edgePending = s.edgePending := rfl
@[simp] theorem State.xact_seq (s : State) (tx : List Byte) : (s.xact tx).seq = s.seq := rfl
@[simp] theorem State.xact_caller (s : State) (tx : List Byte) : (s.xact tx).caller = s.caller := rfl
@[simp] theorem State.xact_marks (s : State) (tx : List Byte) : (s.xact tx).marks = if answerTimedOut s.nextAnswer then s.marks.add .busTimeout else s.marks := rfl
@[simp] theorem State.xact_txSent (s : State) (tx : List Byte) : (s.xact tx).txSent = s.txSent := rfl
@[simp] theorem State.xact_csc (s : State) (tx : List Byte) : (s.xact tx).csc = s.csc := rfl
@[simp] theorem State.xact_cfgTable (s : State) (tx : List Byte) : (s.xact tx).cfgTable = s.cfgTable := rfl
@[simp] theorem State.xact_paTable (s : State) (tx : List Byte) : (s.xact tx).paTable = s.paTable := rfl
@[simp] theorem State.xact_txPending (s : State) (tx : List Byte) : (s.xact tx).txPending = s.txPending := rfl
@[simp] theorem State.xact_backingOff (s : State) (tx : List Byte) : (s.xact tx).backingOff = s.backingOff := rfl
@[simp] theorem State.xact_backoffByte (s : State) (tx : List Byte) : (s.xact tx).backoffByte = s.backoffByte := rfl
@[simp] theorem State.xact_backoffPeriod (s : State) (tx : List Byte) : (s.xact tx).backoffPeriod = s.backoffPeriod := rfl
@[simp] theorem State.xact_backoffElapsed (s : State) (tx : List Byte) : (s.xact tx).backoffElapsed = s.backoffElapsed := rfl
@[simp] theorem State.xact_ccaSample (s : State) (tx : List Byte) : (s.xact tx).ccaSample = s.ccaSample := rfl
@[simp] theorem State.xact_hrx (s : State) (tx : List Byte) : (s.xact tx).hrx = s.hrx := rfl
@[simp] theorem State.xact_hrxCursor (s : State) (tx : List Byte) : (s.xact tx).hrxCursor = s.hrxCursor := rfl
@[simp] theorem State.xact_dispatchFlag (s : State) (tx : List Byte) : (s.xact tx).dispatchFlag = s.dispatchFlag := rfl
@[simp] theorem State.xact_dispTag (s : State) (tx : List Byte) : (s.xact tx).dispTag = s.dispTag := rfl
@[simp] theorem State.xact_dispLen (s : State) (tx : List Byte) : (s.xact tx).dispLen = s.dispLen := rfl
@[simp] theorem State.xact_htx (s : State) (tx : List Byte) : (s.xact tx).htx = s.htx := rfl
@[simp] theorem State.xact_htxCursor (s : State) (tx : List Byte) : (s.xact tx).htxCursor = s.htxCursor := rfl
@[simp] theorem State.xact_htxLen (s : State) (tx : List Byte) : (s.xact tx).htxLen = s.htxLen := rfl
@[simp] theorem State.xact_sendPending (s : State) (tx : List Byte) : (s.xact tx).sendPending = s.sendPending := rfl
@[simp] theorem State.xact_csN (s : State) (tx : List Byte) : (s.xact tx).csN = true := rfl
@[simp] theorem State.xact_ledRx (s : State) (tx : List Byte) : (s.xact tx).ledRx = s.ledRx := rfl
@[simp] theorem State.xact_ledS0 (s : State) (tx : List Byte) : (s.xact tx).ledS0 = Config.freeLed s.env.draws false := rfl
@[simp] theorem State.xact_ledS1 (s : State) (tx : List Byte) : (s.xact tx).ledS1 = Config.freeLed s.env.draws true := rfl
@[simp] theorem State.xact_syncIn (s : State) (tx : List Byte) : (s.xact tx).syncIn = s.syncIn := rfl
@[simp] theorem State.xact_ccaIn (s : State) (tx : List Byte) : (s.xact tx).ccaIn = s.ccaIn := rfl
@[simp] theorem State.xact_tickCount (s : State) (tx : List Byte) : (s.xact tx).tickCount = s.tickCount := rfl
@[simp] theorem State.xact_rx (s : State) (tx : List Byte) : (s.xact tx).rx = s.received tx.length := rfl
@[simp] theorem State.xact_request (s : State) (tx : List Byte) : (s.xact tx).request = s.request := rfl
@[simp] theorem State.xact_trace (s : State) (tx : List Byte) : (s.xact tx).trace = s.trace ++ [.xact tx (s.received tx.length)] := rfl
@[simp] theorem State.xact_chip (s : State) (tx : List Byte) : (s.xact tx).chip = if answerTaken s.nextAnswer then s.chip.take s.env.draws tx else s.chip := rfl
@[simp] theorem State.xact_env (s : State) (tx : List Byte) : (s.xact tx).env = { s.env with answers := s.env.answers.tail, draws := s.env.draws + 1 } := rfl
@[simp] theorem State.xact_bufMem (s : State) (tx : List Byte) (b' : BufId) : (s.xact tx).bufMem b' = s.bufMem b' := rfl
@[simp] theorem State.xact_readBuf (s : State) (tx : List Byte) (b' : BufId) (i : Nat) : (s.xact tx).readBuf b' i = s.readBuf b' i := rfl

/-! ## The transaction kinds are transactions (rules R121, R129 to R133) -/

theorem State.strobe_eq_xact (s : State) (a : Byte) : s.strobe a = s.xact [hdrSingleWrite a] := rfl
theorem State.wreg_eq_xact (s : State) (a : Fin 41) (v : Byte) : s.wreg a v = s.xact [hdrSingleWrite (BitVec.ofNat 8 a.val), v] := rfl
theorem State.wburst_eq_xact (s : State) (a : Byte) (bytes : List Byte) : s.wburst a bytes = s.xact (hdrBurstWrite a :: bytes) := rfl
theorem State.rstatus_eq_xact (s : State) (a : Byte) : s.rstatus a = s.xact [hdrBurstRead a, Config.fill, Config.fill] := rfl
theorem State.rfifo1_eq_xact (s : State) : s.rfifo1 = s.xact [hdrFifoR1, Config.fill] := rfl
theorem State.rburst_eq_xact (s : State) (a : Byte) (n : Nat) : s.rburst a n = s.xact (hdrBurstRead a :: List.replicate n Config.fill) := rfl

/-! ## setBuf, writeBuf and writeRun -/

@[simp] theorem State.setBuf_rxCursor (s : State) (b : BufId) (m : Memory) : (s.setBuf b m).rxCursor = s.rxCursor := by cases b <;> rfl
@[simp] theorem State.setBuf_rxExpected (s : State) (b : BufId) (m : Memory) : (s.setBuf b m).rxExpected = s.rxExpected := by cases b <;> rfl
@[simp] theorem State.setBuf_newPacket (s : State) (b : BufId) (m : Memory) : (s.setBuf b m).newPacket = s.newPacket := by cases b <;> rfl
@[simp] theorem State.setBuf_rxActive (s : State) (b : BufId) (m : Memory) : (s.setBuf b m).rxActive = s.rxActive := by cases b <;> rfl
@[simp] theorem State.setBuf_irqEn (s : State) (b : BufId) (m : Memory) : (s.setBuf b m).irqEn = s.irqEn := by cases b <;> rfl
@[simp] theorem State.setBuf_edgePending (s : State) (b : BufId) (m : Memory) : (s.setBuf b m).edgePending = s.edgePending := by cases b <;> rfl
@[simp] theorem State.setBuf_seq (s : State) (b : BufId) (m : Memory) : (s.setBuf b m).seq = s.seq := by cases b <;> rfl
@[simp] theorem State.setBuf_caller (s : State) (b : BufId) (m : Memory) : (s.setBuf b m).caller = s.caller := by cases b <;> rfl
@[simp] theorem State.setBuf_marks (s : State) (b : BufId) (m : Memory) : (s.setBuf b m).marks = s.marks := by cases b <;> rfl
@[simp] theorem State.setBuf_txSent (s : State) (b : BufId) (m : Memory) : (s.setBuf b m).txSent = s.txSent := by cases b <;> rfl
@[simp] theorem State.setBuf_csc (s : State) (b : BufId) (m : Memory) : (s.setBuf b m).csc = s.csc := by cases b <;> rfl
@[simp] theorem State.setBuf_cfgTable (s : State) (b : BufId) (m : Memory) : (s.setBuf b m).cfgTable = s.cfgTable := by cases b <;> rfl
@[simp] theorem State.setBuf_paTable (s : State) (b : BufId) (m : Memory) : (s.setBuf b m).paTable = s.paTable := by cases b <;> rfl
@[simp] theorem State.setBuf_txPending (s : State) (b : BufId) (m : Memory) : (s.setBuf b m).txPending = s.txPending := by cases b <;> rfl
@[simp] theorem State.setBuf_backingOff (s : State) (b : BufId) (m : Memory) : (s.setBuf b m).backingOff = s.backingOff := by cases b <;> rfl
@[simp] theorem State.setBuf_backoffByte (s : State) (b : BufId) (m : Memory) : (s.setBuf b m).backoffByte = s.backoffByte := by cases b <;> rfl
@[simp] theorem State.setBuf_backoffPeriod (s : State) (b : BufId) (m : Memory) : (s.setBuf b m).backoffPeriod = s.backoffPeriod := by cases b <;> rfl
@[simp] theorem State.setBuf_backoffElapsed (s : State) (b : BufId) (m : Memory) : (s.setBuf b m).backoffElapsed = s.backoffElapsed := by cases b <;> rfl
@[simp] theorem State.setBuf_ccaSample (s : State) (b : BufId) (m : Memory) : (s.setBuf b m).ccaSample = s.ccaSample := by cases b <;> rfl
@[simp] theorem State.setBuf_hrxCursor (s : State) (b : BufId) (m : Memory) : (s.setBuf b m).hrxCursor = s.hrxCursor := by cases b <;> rfl
@[simp] theorem State.setBuf_dispatchFlag (s : State) (b : BufId) (m : Memory) : (s.setBuf b m).dispatchFlag = s.dispatchFlag := by cases b <;> rfl
@[simp] theorem State.setBuf_dispTag (s : State) (b : BufId) (m : Memory) : (s.setBuf b m).dispTag = s.dispTag := by cases b <;> rfl
@[simp] theorem State.setBuf_dispLen (s : State) (b : BufId) (m : Memory) : (s.setBuf b m).dispLen = s.dispLen := by cases b <;> rfl
@[simp] theorem State.setBuf_htxCursor (s : State) (b : BufId) (m : Memory) : (s.setBuf b m).htxCursor = s.htxCursor := by cases b <;> rfl
@[simp] theorem State.setBuf_htxLen (s : State) (b : BufId) (m : Memory) : (s.setBuf b m).htxLen = s.htxLen := by cases b <;> rfl
@[simp] theorem State.setBuf_sendPending (s : State) (b : BufId) (m : Memory) : (s.setBuf b m).sendPending = s.sendPending := by cases b <;> rfl
@[simp] theorem State.setBuf_csN (s : State) (b : BufId) (m : Memory) : (s.setBuf b m).csN = s.csN := by cases b <;> rfl
@[simp] theorem State.setBuf_ledRx (s : State) (b : BufId) (m : Memory) : (s.setBuf b m).ledRx = s.ledRx := by cases b <;> rfl
@[simp] theorem State.setBuf_ledS0 (s : State) (b : BufId) (m : Memory) : (s.setBuf b m).ledS0 = s.ledS0 := by cases b <;> rfl
@[simp] theorem State.setBuf_ledS1 (s : State) (b : BufId) (m : Memory) : (s.setBuf b m).ledS1 = s.ledS1 := by cases b <;> rfl
@[simp] theorem State.setBuf_syncIn (s : State) (b : BufId) (m : Memory) : (s.setBuf b m).syncIn = s.syncIn := by cases b <;> rfl
@[simp] theorem State.setBuf_ccaIn (s : State) (b : BufId) (m : Memory) : (s.setBuf b m).ccaIn = s.ccaIn := by cases b <;> rfl
@[simp] theorem State.setBuf_tickCount (s : State) (b : BufId) (m : Memory) : (s.setBuf b m).tickCount = s.tickCount := by cases b <;> rfl
@[simp] theorem State.setBuf_rx (s : State) (b : BufId) (m : Memory) : (s.setBuf b m).rx = s.rx := by cases b <;> rfl
@[simp] theorem State.setBuf_request (s : State) (b : BufId) (m : Memory) : (s.setBuf b m).request = s.request := by cases b <;> rfl
@[simp] theorem State.setBuf_trace (s : State) (b : BufId) (m : Memory) : (s.setBuf b m).trace = s.trace := by cases b <;> rfl
@[simp] theorem State.setBuf_chip (s : State) (b : BufId) (m : Memory) : (s.setBuf b m).chip = s.chip := by cases b <;> rfl
@[simp] theorem State.setBuf_env (s : State) (b : BufId) (m : Memory) : (s.setBuf b m).env = s.env := by cases b <;> rfl
@[simp] theorem State.writeBuf_rxCursor (s : State) (b : BufId) (i : Nat) (v : Byte) : (s.writeBuf b i v).rxCursor = s.rxCursor := by
  unfold State.writeBuf; split <;> simp
@[simp] theorem State.writeBuf_rxExpected (s : State) (b : BufId) (i : Nat) (v : Byte) : (s.writeBuf b i v).rxExpected = s.rxExpected := by
  unfold State.writeBuf; split <;> simp
@[simp] theorem State.writeBuf_newPacket (s : State) (b : BufId) (i : Nat) (v : Byte) : (s.writeBuf b i v).newPacket = s.newPacket := by
  unfold State.writeBuf; split <;> simp
@[simp] theorem State.writeBuf_rxActive (s : State) (b : BufId) (i : Nat) (v : Byte) : (s.writeBuf b i v).rxActive = s.rxActive := by
  unfold State.writeBuf; split <;> simp
@[simp] theorem State.writeBuf_irqEn (s : State) (b : BufId) (i : Nat) (v : Byte) : (s.writeBuf b i v).irqEn = s.irqEn := by
  unfold State.writeBuf; split <;> simp
@[simp] theorem State.writeBuf_edgePending (s : State) (b : BufId) (i : Nat) (v : Byte) : (s.writeBuf b i v).edgePending = s.edgePending := by
  unfold State.writeBuf; split <;> simp
@[simp] theorem State.writeBuf_seq (s : State) (b : BufId) (i : Nat) (v : Byte) : (s.writeBuf b i v).seq = s.seq := by
  unfold State.writeBuf; split <;> simp
@[simp] theorem State.writeBuf_caller (s : State) (b : BufId) (i : Nat) (v : Byte) : (s.writeBuf b i v).caller = s.caller := by
  unfold State.writeBuf; split <;> simp
@[simp] theorem State.writeBuf_txSent (s : State) (b : BufId) (i : Nat) (v : Byte) : (s.writeBuf b i v).txSent = s.txSent := by
  unfold State.writeBuf; split <;> simp
@[simp] theorem State.writeBuf_csc (s : State) (b : BufId) (i : Nat) (v : Byte) : (s.writeBuf b i v).csc = s.csc := by
  unfold State.writeBuf; split <;> simp
@[simp] theorem State.writeBuf_cfgTable (s : State) (b : BufId) (i : Nat) (v : Byte) : (s.writeBuf b i v).cfgTable = s.cfgTable := by
  unfold State.writeBuf; split <;> simp
@[simp] theorem State.writeBuf_paTable (s : State) (b : BufId) (i : Nat) (v : Byte) : (s.writeBuf b i v).paTable = s.paTable := by
  unfold State.writeBuf; split <;> simp
@[simp] theorem State.writeBuf_txPending (s : State) (b : BufId) (i : Nat) (v : Byte) : (s.writeBuf b i v).txPending = s.txPending := by
  unfold State.writeBuf; split <;> simp
@[simp] theorem State.writeBuf_backingOff (s : State) (b : BufId) (i : Nat) (v : Byte) : (s.writeBuf b i v).backingOff = s.backingOff := by
  unfold State.writeBuf; split <;> simp
@[simp] theorem State.writeBuf_backoffByte (s : State) (b : BufId) (i : Nat) (v : Byte) : (s.writeBuf b i v).backoffByte = s.backoffByte := by
  unfold State.writeBuf; split <;> simp
@[simp] theorem State.writeBuf_backoffPeriod (s : State) (b : BufId) (i : Nat) (v : Byte) : (s.writeBuf b i v).backoffPeriod = s.backoffPeriod := by
  unfold State.writeBuf; split <;> simp
@[simp] theorem State.writeBuf_backoffElapsed (s : State) (b : BufId) (i : Nat) (v : Byte) : (s.writeBuf b i v).backoffElapsed = s.backoffElapsed := by
  unfold State.writeBuf; split <;> simp
@[simp] theorem State.writeBuf_ccaSample (s : State) (b : BufId) (i : Nat) (v : Byte) : (s.writeBuf b i v).ccaSample = s.ccaSample := by
  unfold State.writeBuf; split <;> simp
@[simp] theorem State.writeBuf_hrxCursor (s : State) (b : BufId) (i : Nat) (v : Byte) : (s.writeBuf b i v).hrxCursor = s.hrxCursor := by
  unfold State.writeBuf; split <;> simp
@[simp] theorem State.writeBuf_dispatchFlag (s : State) (b : BufId) (i : Nat) (v : Byte) : (s.writeBuf b i v).dispatchFlag = s.dispatchFlag := by
  unfold State.writeBuf; split <;> simp
@[simp] theorem State.writeBuf_dispTag (s : State) (b : BufId) (i : Nat) (v : Byte) : (s.writeBuf b i v).dispTag = s.dispTag := by
  unfold State.writeBuf; split <;> simp
@[simp] theorem State.writeBuf_dispLen (s : State) (b : BufId) (i : Nat) (v : Byte) : (s.writeBuf b i v).dispLen = s.dispLen := by
  unfold State.writeBuf; split <;> simp
@[simp] theorem State.writeBuf_htxCursor (s : State) (b : BufId) (i : Nat) (v : Byte) : (s.writeBuf b i v).htxCursor = s.htxCursor := by
  unfold State.writeBuf; split <;> simp
@[simp] theorem State.writeBuf_htxLen (s : State) (b : BufId) (i : Nat) (v : Byte) : (s.writeBuf b i v).htxLen = s.htxLen := by
  unfold State.writeBuf; split <;> simp
@[simp] theorem State.writeBuf_sendPending (s : State) (b : BufId) (i : Nat) (v : Byte) : (s.writeBuf b i v).sendPending = s.sendPending := by
  unfold State.writeBuf; split <;> simp
@[simp] theorem State.writeBuf_csN (s : State) (b : BufId) (i : Nat) (v : Byte) : (s.writeBuf b i v).csN = s.csN := by
  unfold State.writeBuf; split <;> simp
@[simp] theorem State.writeBuf_ledRx (s : State) (b : BufId) (i : Nat) (v : Byte) : (s.writeBuf b i v).ledRx = s.ledRx := by
  unfold State.writeBuf; split <;> simp
@[simp] theorem State.writeBuf_ledS0 (s : State) (b : BufId) (i : Nat) (v : Byte) : (s.writeBuf b i v).ledS0 = s.ledS0 := by
  unfold State.writeBuf; split <;> simp
@[simp] theorem State.writeBuf_ledS1 (s : State) (b : BufId) (i : Nat) (v : Byte) : (s.writeBuf b i v).ledS1 = s.ledS1 := by
  unfold State.writeBuf; split <;> simp
@[simp] theorem State.writeBuf_syncIn (s : State) (b : BufId) (i : Nat) (v : Byte) : (s.writeBuf b i v).syncIn = s.syncIn := by
  unfold State.writeBuf; split <;> simp
@[simp] theorem State.writeBuf_ccaIn (s : State) (b : BufId) (i : Nat) (v : Byte) : (s.writeBuf b i v).ccaIn = s.ccaIn := by
  unfold State.writeBuf; split <;> simp
@[simp] theorem State.writeBuf_tickCount (s : State) (b : BufId) (i : Nat) (v : Byte) : (s.writeBuf b i v).tickCount = s.tickCount := by
  unfold State.writeBuf; split <;> simp
@[simp] theorem State.writeBuf_rx (s : State) (b : BufId) (i : Nat) (v : Byte) : (s.writeBuf b i v).rx = s.rx := by
  unfold State.writeBuf; split <;> simp
@[simp] theorem State.writeBuf_request (s : State) (b : BufId) (i : Nat) (v : Byte) : (s.writeBuf b i v).request = s.request := by
  unfold State.writeBuf; split <;> simp
@[simp] theorem State.writeBuf_trace (s : State) (b : BufId) (i : Nat) (v : Byte) : (s.writeBuf b i v).trace = s.trace := by
  unfold State.writeBuf; split <;> simp
@[simp] theorem State.writeBuf_chip (s : State) (b : BufId) (i : Nat) (v : Byte) : (s.writeBuf b i v).chip = s.chip := by
  unfold State.writeBuf; split <;> simp
@[simp] theorem State.writeBuf_env (s : State) (b : BufId) (i : Nat) (v : Byte) : (s.writeBuf b i v).env = s.env := by
  unfold State.writeBuf; split <;> simp
@[simp] theorem State.writeRun_rxCursor (s : State) (b : BufId) (i : Nat) (vs : List Byte) : (s.writeRun b i vs).rxCursor = s.rxCursor := by
  induction vs generalizing s i with
  | nil => rfl
  | cons v vs ih => simp [State.writeRun, ih]
@[simp] theorem State.writeRun_rxExpected (s : State) (b : BufId) (i : Nat) (vs : List Byte) : (s.writeRun b i vs).rxExpected = s.rxExpected := by
  induction vs generalizing s i with
  | nil => rfl
  | cons v vs ih => simp [State.writeRun, ih]
@[simp] theorem State.writeRun_newPacket (s : State) (b : BufId) (i : Nat) (vs : List Byte) : (s.writeRun b i vs).newPacket = s.newPacket := by
  induction vs generalizing s i with
  | nil => rfl
  | cons v vs ih => simp [State.writeRun, ih]
@[simp] theorem State.writeRun_rxActive (s : State) (b : BufId) (i : Nat) (vs : List Byte) : (s.writeRun b i vs).rxActive = s.rxActive := by
  induction vs generalizing s i with
  | nil => rfl
  | cons v vs ih => simp [State.writeRun, ih]
@[simp] theorem State.writeRun_irqEn (s : State) (b : BufId) (i : Nat) (vs : List Byte) : (s.writeRun b i vs).irqEn = s.irqEn := by
  induction vs generalizing s i with
  | nil => rfl
  | cons v vs ih => simp [State.writeRun, ih]
@[simp] theorem State.writeRun_edgePending (s : State) (b : BufId) (i : Nat) (vs : List Byte) : (s.writeRun b i vs).edgePending = s.edgePending := by
  induction vs generalizing s i with
  | nil => rfl
  | cons v vs ih => simp [State.writeRun, ih]
@[simp] theorem State.writeRun_seq (s : State) (b : BufId) (i : Nat) (vs : List Byte) : (s.writeRun b i vs).seq = s.seq := by
  induction vs generalizing s i with
  | nil => rfl
  | cons v vs ih => simp [State.writeRun, ih]
@[simp] theorem State.writeRun_caller (s : State) (b : BufId) (i : Nat) (vs : List Byte) : (s.writeRun b i vs).caller = s.caller := by
  induction vs generalizing s i with
  | nil => rfl
  | cons v vs ih => simp [State.writeRun, ih]
@[simp] theorem State.writeRun_txSent (s : State) (b : BufId) (i : Nat) (vs : List Byte) : (s.writeRun b i vs).txSent = s.txSent := by
  induction vs generalizing s i with
  | nil => rfl
  | cons v vs ih => simp [State.writeRun, ih]
@[simp] theorem State.writeRun_csc (s : State) (b : BufId) (i : Nat) (vs : List Byte) : (s.writeRun b i vs).csc = s.csc := by
  induction vs generalizing s i with
  | nil => rfl
  | cons v vs ih => simp [State.writeRun, ih]
@[simp] theorem State.writeRun_cfgTable (s : State) (b : BufId) (i : Nat) (vs : List Byte) : (s.writeRun b i vs).cfgTable = s.cfgTable := by
  induction vs generalizing s i with
  | nil => rfl
  | cons v vs ih => simp [State.writeRun, ih]
@[simp] theorem State.writeRun_paTable (s : State) (b : BufId) (i : Nat) (vs : List Byte) : (s.writeRun b i vs).paTable = s.paTable := by
  induction vs generalizing s i with
  | nil => rfl
  | cons v vs ih => simp [State.writeRun, ih]
@[simp] theorem State.writeRun_txPending (s : State) (b : BufId) (i : Nat) (vs : List Byte) : (s.writeRun b i vs).txPending = s.txPending := by
  induction vs generalizing s i with
  | nil => rfl
  | cons v vs ih => simp [State.writeRun, ih]
@[simp] theorem State.writeRun_backingOff (s : State) (b : BufId) (i : Nat) (vs : List Byte) : (s.writeRun b i vs).backingOff = s.backingOff := by
  induction vs generalizing s i with
  | nil => rfl
  | cons v vs ih => simp [State.writeRun, ih]
@[simp] theorem State.writeRun_backoffByte (s : State) (b : BufId) (i : Nat) (vs : List Byte) : (s.writeRun b i vs).backoffByte = s.backoffByte := by
  induction vs generalizing s i with
  | nil => rfl
  | cons v vs ih => simp [State.writeRun, ih]
@[simp] theorem State.writeRun_backoffPeriod (s : State) (b : BufId) (i : Nat) (vs : List Byte) : (s.writeRun b i vs).backoffPeriod = s.backoffPeriod := by
  induction vs generalizing s i with
  | nil => rfl
  | cons v vs ih => simp [State.writeRun, ih]
@[simp] theorem State.writeRun_backoffElapsed (s : State) (b : BufId) (i : Nat) (vs : List Byte) : (s.writeRun b i vs).backoffElapsed = s.backoffElapsed := by
  induction vs generalizing s i with
  | nil => rfl
  | cons v vs ih => simp [State.writeRun, ih]
@[simp] theorem State.writeRun_ccaSample (s : State) (b : BufId) (i : Nat) (vs : List Byte) : (s.writeRun b i vs).ccaSample = s.ccaSample := by
  induction vs generalizing s i with
  | nil => rfl
  | cons v vs ih => simp [State.writeRun, ih]
@[simp] theorem State.writeRun_hrxCursor (s : State) (b : BufId) (i : Nat) (vs : List Byte) : (s.writeRun b i vs).hrxCursor = s.hrxCursor := by
  induction vs generalizing s i with
  | nil => rfl
  | cons v vs ih => simp [State.writeRun, ih]
@[simp] theorem State.writeRun_dispatchFlag (s : State) (b : BufId) (i : Nat) (vs : List Byte) : (s.writeRun b i vs).dispatchFlag = s.dispatchFlag := by
  induction vs generalizing s i with
  | nil => rfl
  | cons v vs ih => simp [State.writeRun, ih]
@[simp] theorem State.writeRun_dispTag (s : State) (b : BufId) (i : Nat) (vs : List Byte) : (s.writeRun b i vs).dispTag = s.dispTag := by
  induction vs generalizing s i with
  | nil => rfl
  | cons v vs ih => simp [State.writeRun, ih]
@[simp] theorem State.writeRun_dispLen (s : State) (b : BufId) (i : Nat) (vs : List Byte) : (s.writeRun b i vs).dispLen = s.dispLen := by
  induction vs generalizing s i with
  | nil => rfl
  | cons v vs ih => simp [State.writeRun, ih]
@[simp] theorem State.writeRun_htxCursor (s : State) (b : BufId) (i : Nat) (vs : List Byte) : (s.writeRun b i vs).htxCursor = s.htxCursor := by
  induction vs generalizing s i with
  | nil => rfl
  | cons v vs ih => simp [State.writeRun, ih]
@[simp] theorem State.writeRun_htxLen (s : State) (b : BufId) (i : Nat) (vs : List Byte) : (s.writeRun b i vs).htxLen = s.htxLen := by
  induction vs generalizing s i with
  | nil => rfl
  | cons v vs ih => simp [State.writeRun, ih]
@[simp] theorem State.writeRun_sendPending (s : State) (b : BufId) (i : Nat) (vs : List Byte) : (s.writeRun b i vs).sendPending = s.sendPending := by
  induction vs generalizing s i with
  | nil => rfl
  | cons v vs ih => simp [State.writeRun, ih]
@[simp] theorem State.writeRun_csN (s : State) (b : BufId) (i : Nat) (vs : List Byte) : (s.writeRun b i vs).csN = s.csN := by
  induction vs generalizing s i with
  | nil => rfl
  | cons v vs ih => simp [State.writeRun, ih]
@[simp] theorem State.writeRun_ledRx (s : State) (b : BufId) (i : Nat) (vs : List Byte) : (s.writeRun b i vs).ledRx = s.ledRx := by
  induction vs generalizing s i with
  | nil => rfl
  | cons v vs ih => simp [State.writeRun, ih]
@[simp] theorem State.writeRun_ledS0 (s : State) (b : BufId) (i : Nat) (vs : List Byte) : (s.writeRun b i vs).ledS0 = s.ledS0 := by
  induction vs generalizing s i with
  | nil => rfl
  | cons v vs ih => simp [State.writeRun, ih]
@[simp] theorem State.writeRun_ledS1 (s : State) (b : BufId) (i : Nat) (vs : List Byte) : (s.writeRun b i vs).ledS1 = s.ledS1 := by
  induction vs generalizing s i with
  | nil => rfl
  | cons v vs ih => simp [State.writeRun, ih]
@[simp] theorem State.writeRun_syncIn (s : State) (b : BufId) (i : Nat) (vs : List Byte) : (s.writeRun b i vs).syncIn = s.syncIn := by
  induction vs generalizing s i with
  | nil => rfl
  | cons v vs ih => simp [State.writeRun, ih]
@[simp] theorem State.writeRun_ccaIn (s : State) (b : BufId) (i : Nat) (vs : List Byte) : (s.writeRun b i vs).ccaIn = s.ccaIn := by
  induction vs generalizing s i with
  | nil => rfl
  | cons v vs ih => simp [State.writeRun, ih]
@[simp] theorem State.writeRun_tickCount (s : State) (b : BufId) (i : Nat) (vs : List Byte) : (s.writeRun b i vs).tickCount = s.tickCount := by
  induction vs generalizing s i with
  | nil => rfl
  | cons v vs ih => simp [State.writeRun, ih]
@[simp] theorem State.writeRun_rx (s : State) (b : BufId) (i : Nat) (vs : List Byte) : (s.writeRun b i vs).rx = s.rx := by
  induction vs generalizing s i with
  | nil => rfl
  | cons v vs ih => simp [State.writeRun, ih]
@[simp] theorem State.writeRun_request (s : State) (b : BufId) (i : Nat) (vs : List Byte) : (s.writeRun b i vs).request = s.request := by
  induction vs generalizing s i with
  | nil => rfl
  | cons v vs ih => simp [State.writeRun, ih]
@[simp] theorem State.writeRun_trace (s : State) (b : BufId) (i : Nat) (vs : List Byte) : (s.writeRun b i vs).trace = s.trace := by
  induction vs generalizing s i with
  | nil => rfl
  | cons v vs ih => simp [State.writeRun, ih]
@[simp] theorem State.writeRun_chip (s : State) (b : BufId) (i : Nat) (vs : List Byte) : (s.writeRun b i vs).chip = s.chip := by
  induction vs generalizing s i with
  | nil => rfl
  | cons v vs ih => simp [State.writeRun, ih]
@[simp] theorem State.writeRun_env (s : State) (b : BufId) (i : Nat) (vs : List Byte) : (s.writeRun b i vs).env = s.env := by
  induction vs generalizing s i with
  | nil => rfl
  | cons v vs ih => simp [State.writeRun, ih]

end Sys2Proof.Machine
end

