-- ==== Sys2Proof/Laws/Ops.lean ====
section
/-! SUPPORT. For each shared operation, what it can do, said once. -/

namespace Sys2Proof.Machine

/-! ## Buffers -/

@[simp] theorem State.setBuf_bufMem_same (s : State) (b : BufId) (m : Memory) : (s.setBuf b m).bufMem b = m := by
  cases b <;> rfl

theorem State.setBuf_bufMem_other (s : State) {b c : BufId} (m : Memory) (h : c ≠ b) :
    (s.setBuf b m).bufMem c = s.bufMem c := by
  cases b <;> cases c <;> first | rfl | exact absurd rfl h

@[simp] theorem State.setBuf_same (s : State) (b : BufId) : s.setBuf b (s.bufMem b) = s := by
  cases b <;> rfl

@[simp] theorem State.setBuf_setBuf (s : State) (b : BufId) (m n : Memory) : (s.setBuf b m).setBuf b n = s.setBuf b n := by
  cases b <;> rfl

/-- A write inside its buffer. -/
theorem State.writeBuf_in (s : State) {b : BufId} {i : Nat} (v : Byte) (h : i < Config.cap b) :
    s.writeBuf b i v = s.setBuf b ((s.bufMem b).write i v) := by
  unfold State.writeBuf; rw [if_pos h]

/-- A write outside its buffer is marked and not performed (rule R64). -/
theorem State.writeBuf_out (s : State) {b : BufId} {i : Nat} (v : Byte) (h : ¬ i < Config.cap b) :
    s.writeBuf b i v = s.mark .bufOverrun := by
  unfold State.writeBuf; rw [if_neg h]

/-- A run of writes inside its buffer. -/
theorem State.writeRun_in (s : State) {b : BufId} {i : Nat} {vs : List Byte} (h : i + vs.length ≤ Config.cap b) :
    s.writeRun b i vs = s.setBuf b (Memory.writeRun (s.bufMem b) i vs) := by
  induction vs generalizing s i with
  | nil => simp [State.writeRun, Memory.writeRun]
  | cons v vs ih =>
    simp only [List.length_cons] at h
    simp only [State.writeRun, Memory.writeRun]
    rw [State.writeBuf_in _ _ (by omega), ih _ (by omega)]
    simp

/-- A byte of a buffer, told by the bytes written in it. -/
theorem State.readBuf_eq (s : State) (b : BufId) (i : Nat) :
    s.readBuf b i = ((s.bufMem b).read i).getD (Config.unwrittenByte b i) := rfl

/-- A run of writes puts its bytes where it says. -/
theorem State.readBuf_writeRun_in (s : State) {b : BufId} {i k : Nat} {vs : List Byte} (h : i + vs.length ≤ Config.cap b)
    (hk : k < vs.length) : (s.writeRun b i vs).readBuf b (i + k) = vs[k] := by
  rw [State.writeRun_in s h, State.readBuf_eq, State.setBuf_bufMem_same, Memory.read_writeRun_in _ hk]
  rfl

/-- A run of writes leaves the rest of its buffer alone. -/
theorem State.readBuf_writeRun_out (s : State) {b : BufId} {i j : Nat} {vs : List Byte} (h : i + vs.length ≤ Config.cap b)
    (hj : j < i ∨ i + vs.length ≤ j) : (s.writeRun b i vs).readBuf b j = s.readBuf b j := by
  rw [State.writeRun_in s h, State.readBuf_eq, State.setBuf_bufMem_same, Memory.read_writeRun_other _ _ hj]
  rfl

/-- A run of writes leaves the other buffers alone. -/
theorem State.bufMem_writeRun_other (s : State) {b c : BufId} (i : Nat) (vs : List Byte) (h : c ≠ b) :
    (s.writeRun b i vs).bufMem c = s.bufMem c := by
  induction vs generalizing s i with
  | nil => rfl
  | cons v vs ih =>
    simp only [State.writeRun]
    rw [ih]
    unfold State.writeBuf
    split
    · exact State.setBuf_bufMem_other s _ h
    · rfl

@[simp] theorem State.readRun_length (s : State) (b : BufId) (i n : Nat) : (s.readRun b i n).length = n := by
  induction n generalizing i with
  | zero => rfl
  | succ n ih => simp [State.readRun, ih]

/-- Two states that agree on the bytes of a run read the same run. -/
theorem State.readRun_congr {s t : State} {b : BufId} {i n : Nat}
    (h : ∀ k, k < n → t.readBuf b (i + k) = s.readBuf b (i + k)) : t.readRun b i n = s.readRun b i n := by
  induction n generalizing i with
  | zero => rfl
  | succ n ih =>
    simp only [State.readRun]
    have h0 : t.readBuf b i = s.readBuf b i := h 0 (by omega)
    rw [h0, ih fun k hk => ?_]
    have := h (k + 1) (by omega)
    rwa [show i + (k + 1) = i + 1 + k by omega] at this

/-- A run is a shorter run and the bytes after it. -/
theorem State.readRun_add (s : State) (b : BufId) (i n k : Nat) :
    s.readRun b i (n + k) = s.readRun b i n ++ s.readRun b (i + n) k := by
  induction n generalizing i with
  | zero => simp [State.readRun]
  | succ n ih =>
    rw [show n + 1 + k = (n + k) + 1 by omega]
    simp only [State.readRun, ih, List.cons_append]
    rw [show i + 1 + n = i + (n + 1) by omega]

/-! ## The bus transaction -/

@[simp] theorem State.received_length (s : State) (n : Nat) : (s.received n).length = n := by
  unfold State.received; rw [List.length_map, List.length_range]

/-- Everything a transaction does (rules R120, R135, R136). -/
theorem State.xact_transacts (s : State) (tx : List Byte) : Transacts tx s (s.xact tx) := by
  refine ⟨_, _, _, _, _, _, rfl, s.received_length _, ?_, rfl, rfl⟩
  show (if _ then _ else _) = _ ∨ (if _ then _ else _) = _
  split
  · exact Or.inr rfl
  · exact Or.inl rfl

/-- Entry `i` of a whole table is one register write (rule R134). -/
theorem State.writeEntry_in (s : State) {i : Fin 39} (h : i.val < s.cfgTable.length) :
    s.writeEntry i = s.wreg (cfgAddr i) s.cfgTable[i.val] := by
  unfold State.writeEntry; simp [h]

@[simp] theorem cfgTableOf_length (csc : Byte) : (cfgTableOf csc).length = 39 := by simp [cfgTableOf]

@[simp] theorem paTableOf_length (csc : Byte) : (paTableOf csc).length = 9 := by
  unfold paTableOf paLevels; cases kindOf csc <;> simp

/-! ## The chip side (log entry 14) -/

/-- A register write sets its register and no other (rule R129). -/
theorem Chip.readReg_write (c : Chip) (a b : Nat) (v : Byte) :
    ({ c with cfgRegs := Memory.write c.cfgRegs a v } : Chip).readReg b = if b = a then v else c.readReg b := by
  unfold Chip.readReg
  split
  · subst_vars; rw [Memory.read_write_same]; rfl
  · rw [Memory.read_write_other _ _ ‹_›]

/-- What the power table holds after a burst (rule R130): byte `k` in entry `k`, the entries beyond it as before; a burst of
more than 8 bytes leaves the table chip-defined. -/
theorem Chip.takeLevels_readPa (c : Chip) (k : Nat) (levels : List Byte) (e : Nat) :
    (c.takeLevels k levels).readPa e =
      if 8 < levels.length then Config.freePaLevel (k + 1) e else levels.getD e (c.readPa e) := by
  unfold Chip.takeLevels
  by_cases h : levels.length ≤ 8
  · rw [if_pos h, if_neg (by omega)]
    unfold Chip.readPa
    by_cases he : e < levels.length
    · have := Memory.read_writeRun_in c.paTable (a := 0) he
      rw [Nat.zero_add] at this
      simp [this, he]
    · rw [Memory.read_writeRun_other _ _ (Or.inr (by omega))]
      simp [he]
  · rw [if_neg h, if_pos (by omega)]; rfl

/-- After the chip's reset every register and table entry holds a free value of that reset (rules R37, R38, R43). -/
@[simp] theorem Chip.chipDefined_readReg (k a : Nat) : (Chip.chipDefined k).readReg a = Config.freeChipReg (k + 1) a := rfl
@[simp] theorem Chip.chipDefined_readPa (k e : Nat) : (Chip.chipDefined k).readPa e = Config.freePaLevel (k + 1) e := rfl
@[simp] theorem Chip.atReset_readReg (a : Nat) : Chip.atReset.readReg a = Config.freeChipReg 0 a := rfl
@[simp] theorem Chip.atReset_readPa (e : Nat) : Chip.atReset.readPa e = Config.freePaLevel 0 e := rfl

/-- An arriving byte moves from what arrives into the FIFO: what the FIFO will deliver stays the same (rule R75). -/
theorem Chip.deliversFirst_rxByte {c : Chip} {b : Byte} {arriving bytes : List Byte} :
    (c.act (.rxByte b)).deliversFirst arriving bytes ↔ c.deliversFirst (b :: arriving) bytes := by
  simp [Chip.deliversFirst, Chip.act]

/-- Reading `n` bytes that are in the FIFO takes the first `n` of what it delivers (rules R75, R132, R133). -/
theorem Chip.deliversFirst_drop {c : Chip} {n : Nat} {arriving bytes : List Byte} (hn : n ≤ c.rxFifo.length)
    (h : c.deliversFirst arriving bytes) :
    ({ c with rxFifo := c.rxFifo.drop n } : Chip).deliversFirst arriving (bytes.drop n) := by
  obtain ⟨rest, h⟩ := h
  unfold Chip.deliversFirst
  rw [show c.rxFifo.drop n ++ arriving = (bytes ++ rest).drop n by rw [h, List.drop_append_of_le_length hn]]
  rw [List.drop_append]
  exact List.prefix_append _ _

/-- What sending a byte on air can do (rule R80): the frame is aborted, or the FIFO is one byte shorter. -/
theorem Chip.sendByte_cases (c : Chip) (more : Bool) :
    ((c.mode = .transmitting ∧ more = true ∧ c.txFifo.length ≤ 1) ∧
        c.sendByte more = { c with txFifo := [], mode := .aborted }) ∨
      ((c.mode ≠ .transmitting ∨ more = false ∨ 1 < c.txFifo.length) ∧
        c.sendByte more = { c with txFifo := c.txFifo.drop 1 }) := by
  unfold Chip.sendByte
  by_cases h : c.mode = .transmitting ∧ more = true ∧ c.txFifo.length ≤ 1
  · refine Or.inl ⟨h, ?_⟩
    rw [if_pos h, List.drop_eq_nil_of_le h.2.2]
  · refine Or.inr ⟨?_, by rw [if_neg h]⟩
    cases more <;> simp_all [imp_iff_not_or]

/-- Every act of the model's chip aborts the frame where the TX FIFO underflows (rule R80). -/
theorem Chip.act_abortsOnUnderflow (c : Chip) (m : ChipMove) : c.abortsOnUnderflow m (c.act m) := by
  rintro ht rfl he
  exact if_pos ⟨ht, rfl, List.drop_eq_nil_iff.mp he⟩

/-! ## Interrupts -/

/-- Taking an interrupt leaves the sequencer where it was (rule R255). -/
@[simp] theorem State.takeInterrupt_seq (s : State) (f : State → State) : (s.takeInterrupt f).seq = s.seq := rfl

/-- The sync-edge handler changes the three flags and nothing else (rule R191). -/
theorem State.takeInterrupt_syncHandler (s : State) :
    s.takeInterrupt State.syncHandler = { s with newPacket := true, rxActive := true, ledRx := true } := rfl

/-- What a rising edge can do (rules R29, R191). -/
theorem State.takeSyncEdge_cases (s : State) :
    (s.irqEn = true ∧ s.takeSyncEdge = { s with newPacket := true, rxActive := true, ledRx := true }) ∨
      (s.irqEn = false ∧ s.takeSyncEdge = { s.dropChoice with edgePending := true }) ∨
      (s.irqEn = false ∧ s.takeSyncEdge = s.dropChoice) := by
  unfold State.takeSyncEdge
  by_cases h : s.irqEn = true
  · exact Or.inl ⟨h, by rw [if_pos h]; rfl⟩
  · rw [if_neg h]
    refine Or.inr ?_
    by_cases h' : s.nextChoice = true
    · exact Or.inl ⟨by simpa using h, if_pos h'⟩
    · exact Or.inr ⟨by simpa using h, if_neg h'⟩

/-- What re-arming can do (rule R29). -/
theorem State.rearm_cases (s : State) :
    (s.edgePending = false ∧ s.rearm = { s with irqEn := true }) ∨
      (s.edgePending = true ∧ s.nextChoice = true ∧
        s.rearm = { s.dropChoice with irqEn := true, edgePending := false, newPacket := true, rxActive := true, ledRx := true }) ∨
      (s.edgePending = true ∧ s.nextChoice = false ∧ s.rearm = { s.dropChoice with irqEn := true, edgePending := false }) := by
  unfold State.rearm
  by_cases h : s.edgePending = true
  · rw [if_pos h]
    refine Or.inr ?_
    by_cases h' : s.nextChoice = true
    · exact Or.inl ⟨h, h', by rw [if_pos h']; rfl⟩
    · exact Or.inr ⟨h, by simpa using h', if_neg h'⟩
  · exact Or.inl ⟨by simpa using h, if_neg h⟩

/-- What the byte-received handler can do (rule R230). -/
theorem State.byteHandler_cases (s : State) (b : Byte) :
    (s.hrxCursor < 255 ∧
        s.byteHandler b = { s with hrx := Memory.write s.hrx s.hrxCursor b, hrxCursor := s.hrxCursor + 1,
                                   dispatchFlag := if b = 0xFF then true else s.dispatchFlag }) ∨
      (255 ≤ s.hrxCursor ∧ s.byteHandler b = s.mark .bufOverrun) := by
  unfold State.byteHandler
  by_cases h : s.hrxCursor < 255
  · refine Or.inl ⟨h, ?_⟩
    rw [if_pos h, State.writeBuf_in _ _ h]
    rfl
  · exact Or.inr ⟨by omega, if_neg h⟩

/-! ## RX and the host link -/

/-- What storing a received byte can do (rules R64, R192, R194). -/
theorem State.storeRx_cases (s : State) (b : Byte) :
    (s.rxCursor < 255 ∧
        s.storeRx b = { s with rxbuf := Memory.write s.rxbuf s.rxCursor b, rxCursor := s.rxCursor + 1 }) ∨
      (255 ≤ s.rxCursor ∧ s.storeRx b = s.mark .bufOverrun) := by
  unfold State.storeRx
  by_cases h : s.rxCursor < 255
  · refine Or.inl ⟨h, ?_⟩
    rw [if_pos h, State.writeBuf_in _ _ h]
    rfl
  · exact Or.inr ⟨by omega, if_neg h⟩

/-- A frame of at most 255 bytes is queued to the host whole (rules R235, R237). -/
theorem State.queueToHost_eq (s : State) {bytes : List Byte} (h : bytes.length ≤ 255) :
    s.queueToHost bytes = { s with htx := Memory.writeRun s.htx 0 bytes, htxLen := bytes.length, htxCursor := 0,
                                   sendPending := true } := by
  unfold State.queueToHost
  rw [State.writeRun_in s (by simpa using h)]
  rfl

/-- A frame of at most 255 bytes is loaded into TXBUF whole (rule R233). -/
theorem State.loadTx_eq (s : State) {frame : List Byte} (h : frame.length ≤ 255) :
    s.loadTx frame =
      { s with txbuf := Memory.writeRun (Memory.write s.txbuf 1 (BitVec.ofNat 8 frame.length)) 2 frame, txPending := true,
               marks := if s.txPending then s.marks.add .txOverwrite else s.marks } := by
  unfold State.loadTx State.markTx
  rw [State.writeBuf_in _ _ (by decide), State.writeRun_in _ (by simp only [Config.cap]; omega)]
  by_cases hp : s.txPending = true
  · rw [if_pos hp, if_pos hp]; rfl
  · rw [if_neg hp, if_neg hp]; rfl

/-- A hand-off of at most 255 bytes (rule R235). -/
theorem State.handoff_eq (s : State) {bytes : List Byte} (h : bytes.length ≤ 255) :
    s.handoff bytes =
      { s with htx := Memory.writeRun s.htx 0 bytes, htxLen := bytes.length, htxCursor := 0, sendPending := true,
               trace := s.trace ++ [.handoff bytes],
               marks := if s.sendPending then s.marks.add .hostTxOverwrite else s.marks } := by
  unfold State.handoff State.markHostTx
  rw [State.queueToHost_eq _ h]
  by_cases hp : s.sendPending = true
  · rw [if_pos hp, if_pos hp]; rfl
  · rw [if_neg hp, if_neg hp]; rfl

end Sys2Proof.Machine
end

