-- ==== Sys2Proof/Laws/PerInstr.lean ====
section
/-! SUPPORT. Statements for all instructions, made for each constructor: how many bytes an instruction is. -/

namespace Sys2Proof.Laws.EncodedLength

/-- How many bytes a well-formed instruction is encoded in (rules R65, R98, R100); 0 for an operation without an
encoding. -/
def byteCount : Instr → Nat
  | .sres | .scal | .srx | .stx | .sidle | .sfrx | .snop => 1
  | .wreg _ _ | .rfifo1 => 2
  | .wburstPatable levels => 1 + levels.length
  | .wburstFifo data => 1 + data.length
  | .rburst _ n => 1 + n
  | .rstatusMarcstate | .rstatusTxbytes | .rstatusRxbytes => 3
  | .hostConfig _ _ => 4
  | .hostData rest | .hostOther _ rest => 1 + rest.length
  | .hostBootnote => 2
  | .configure _ | .writeConfig _ | .transmit | .syncEdge | .rxStep | .rxLast | .rxComplete | .rxService => 0
  | .csmaService | .hostRxByte _ | .hostDispatch | .hostTxDrain => 0

/-- A well-formed instruction is as long as rules R65, R98 and R100 say, an operation has no encoding exactly where it has
no link. -/
def Statement (i : Instr) : Prop :=
  i.wf = true → (encode i).length = byteCount i ∧ ((encode i).length = 0 ↔ i.link = none)

theorem sres : Statement .sres := fun _ => by simp [encode, byteCount, Instr.link]
theorem scal : Statement .scal := fun _ => by simp [encode, byteCount, Instr.link]
theorem srx : Statement .srx := fun _ => by simp [encode, byteCount, Instr.link]
theorem stx : Statement .stx := fun _ => by simp [encode, byteCount, Instr.link]
theorem sidle : Statement .sidle := fun _ => by simp [encode, byteCount, Instr.link]
theorem sfrx : Statement .sfrx := fun _ => by simp [encode, byteCount, Instr.link]
theorem snop : Statement .snop := fun _ => by simp [encode, byteCount, Instr.link]
theorem wreg (a : Fin 41) (v : Byte) : Statement (.wreg a v) := fun _ => by simp [encode, byteCount, Instr.link]
theorem wburstPatable (levels : List Byte) : Statement (.wburstPatable levels) := fun _ => by
  simp [encode, byteCount, Instr.link, Nat.add_comm]
theorem wburstFifo (data : List Byte) : Statement (.wburstFifo data) := fun _ => by
  simp [encode, byteCount, Instr.link, Nat.add_comm]
theorem rfifo1 : Statement .rfifo1 := fun _ => by simp [encode, byteCount, Instr.link]
theorem rburst (a : ChipAddr) (n : Nat) : Statement (.rburst a n) := fun _ => by
  simp [encode, byteCount, Instr.link, Nat.add_comm]
theorem rstatusMarcstate : Statement .rstatusMarcstate := fun _ => by simp [encode, byteCount, Instr.link]
theorem rstatusTxbytes : Statement .rstatusTxbytes := fun _ => by simp [encode, byteCount, Instr.link]
theorem rstatusRxbytes : Statement .rstatusRxbytes := fun _ => by simp [encode, byteCount, Instr.link]
theorem hostConfig (csc backoff : Byte) : Statement (.hostConfig csc backoff) := fun _ => by simp [encode, byteCount, Instr.link]
theorem hostData (rest : List Byte) : Statement (.hostData rest) := fun _ => by
  simp [encode, byteCount, Instr.link, Nat.add_comm]
theorem hostBootnote : Statement .hostBootnote := fun _ => by simp [encode, byteCount, Instr.link]
theorem hostOther (tag : Byte) (rest : List Byte) : Statement (.hostOther tag rest) := fun _ => by
  simp [encode, byteCount, Instr.link, Nat.add_comm]
theorem configure (csc : Byte) : Statement (.configure csc) := fun _ => by simp [encode, byteCount, Instr.link]
theorem writeConfig (table : List Byte) : Statement (.writeConfig table) := fun _ => by simp [encode, byteCount, Instr.link]
theorem transmit : Statement .transmit := fun _ => by simp [encode, byteCount, Instr.link]
theorem syncEdge : Statement .syncEdge := fun _ => by simp [encode, byteCount, Instr.link]
theorem rxStep : Statement .rxStep := fun _ => by simp [encode, byteCount, Instr.link]
theorem rxLast : Statement .rxLast := fun _ => by simp [encode, byteCount, Instr.link]
theorem rxComplete : Statement .rxComplete := fun _ => by simp [encode, byteCount, Instr.link]
theorem rxService : Statement .rxService := fun _ => by simp [encode, byteCount, Instr.link]
theorem csmaService : Statement .csmaService := fun _ => by simp [encode, byteCount, Instr.link]
theorem hostRxByte (b : Byte) : Statement (.hostRxByte b) := fun _ => by simp [encode, byteCount, Instr.link]
theorem hostDispatch : Statement .hostDispatch := fun _ => by simp [encode, byteCount, Instr.link]
theorem hostTxDrain : Statement .hostTxDrain := fun _ => by simp [encode, byteCount, Instr.link]

end Sys2Proof.Laws.EncodedLength
end

