-- ==== Sys2Proof/Laws/Step.lean ====
section
/-! SUPPORT. What a step can do, said once: the move that is made, and the instruction it runs. -/

namespace Sys2Proof.Machine

/-- What HOST_DISPATCH switches to at H2 (rules R231 to R234). -/
theorem decodeHostIn_hostFrame_eq (s : State) :
    decodeHostIn s.hostFrame =
      .ok (if s.dispTag = 0x01 then .hostConfig (s.frameByte 1) (s.frameByte 2)
        else if s.dispTag = 0x02 then .hostData (s.readRun .hrx 1 (s.dispLen - 1))
        else .hostOther s.dispTag (s.readRun .hrx 1 (s.dispLen - 1))) := by
  unfold State.hostFrame decodeHostIn
  by_cases h : s.dispTag = 0x01#8
  · simp [h]
  · by_cases h' : s.dispTag = 0x02#8
    · simp [h']
    · simp [if_neg h, if_neg h']

/-- The frame HOST_DISPATCH works on always decodes (rule R231): the switch has a case for every tag. -/
theorem decodeHostIn_hostFrame (s : State) : ∃ i, decodeHostIn s.hostFrame = .ok i :=
  ⟨_, decodeHostIn_hostFrame_eq s⟩

/-- What the main loop starts is an enabled service (rule R287). -/
theorem State.pickService_cases {s : State} {k : Nat} {i : Instr} (h : s.pickService k = some i) :
    (i = .rxService ∧ s.rxActive = true) ∨ (i = .csmaService ∧ s.txPending = true) ∨
      (i = .hostDispatch ∧ s.dispatchFlag = true) ∨ (i = .hostTxDrain ∧ s.sendPending = true) := by
  have hm := List.mem_of_getElem? h
  unfold State.enabledServices at hm
  cases h1 : s.rxActive <;> cases h2 : s.txPending <;> cases h3 : s.dispatchFlag <;> cases h4 : s.sendPending <;>
    simp_all

/-- A step that answers a next state made the move of an external agent, or ran an instruction. -/
theorem step_cases {s t : State} (h : step s = .next t) :
    s.nextAction = .outside t ∨ ∃ i u, s.nextAction = .run i u ∧ exec i u = .next t := by
  unfold step at h
  cases ha : s.nextAction with
  | outside u => simp only [ha] at h; injection h with h; exact Or.inl (by rw [h])
  | run i u => simp only [ha] at h; exact Or.inr ⟨i, u, rfl, h⟩
  | refuse r => simp only [ha] at h; cases h

/-- The actions of a move that is not the sequencer's. -/
theorem moveAction_outside (s : State) (m : Move) (h : ∀ k, m ≠ .loop k) :
    (∃ t, moveAction m s = .outside t ∧ t.seq = s.seq ∧ t.trace = s.trace) ∨
      (∃ level, moveAction m s = .run .syncEdge { s with syncIn := level }) ∨
      (∃ b, moveAction m s = .run (.hostRxByte b) s) := by
  cases m with
  | loop k => exact absurd rfl (h k)
  | syncLevel level =>
    unfold moveAction syncAction
    by_cases hr : (level && !s.syncIn) = true
    · exact Or.inr (Or.inl ⟨level, if_pos hr⟩)
    · exact Or.inl ⟨_, if_neg hr, rfl, rfl⟩
  | ccaLevel level => exact Or.inl ⟨_, rfl, rfl, rfl⟩
  | hostByte b => exact Or.inr (Or.inr ⟨b, rfl⟩)
  | tick => exact Or.inl ⟨_, rfl, rfl, rfl⟩
  | chip c => exact Or.inl ⟨_, rfl, rfl, rfl⟩

/-- A header of a known kind stands for a bus transaction. -/
theorem decodeData_link {h : Byte} {d : List Byte} {k : Header} {i : Instr} (hk : classify h = some k)
    (hi : decodeData h d k = .ok i) : i.link = some .chipBus := by
  have fixed : ∀ h : Byte, ∀ i n, classify h = some (.fixed i n) → i.link = some .chipBus := by
    have all : ∀ h : Byte, (match classify h with | some (.fixed i _) => i.link == some .chipBus | _ => true) = true := by
      decide
    intro h i n hc
    have := all h
    rw [hc] at this
    simpa using this
  cases k with
  | fixed j n =>
    simp only [decodeData] at hi
    split at hi
    · injection hi with hi; subst hi; exact fixed h j n hk
    · cases hi
  | paWrite => simp only [decodeData] at hi; split at hi <;> [(injection hi with hi; subst hi; rfl); cases hi]
  | fifoWrite => simp only [decodeData] at hi; split at hi <;> [(injection hi with hi; subst hi; rfl); cases hi]
  | cfgWrite a => simp only [decodeData] at hi; split at hi <;> [(injection hi with hi; subst hi; rfl); cases hi]
  | burstRead a => simp only [decodeData] at hi; split at hi <;> [(injection hi with hi; subst hi; rfl); cases hi]

/-- Bytes that decode on the chip bus stand for a bus transaction. -/
theorem decodeBus_link {bytes : List Byte} {i : Instr} (h : decodeBus bytes = .ok i) : i.link = some .chipBus := by
  cases bytes with
  | nil => cases h
  | cons b d =>
    simp only [decodeBus] at h
    cases hk : classify b with
    | none => rw [hk] at h; cases h
    | some k => rw [hk] at h; exact decodeData_link hk h

end Sys2Proof.Machine
end

