-- ==== Sys2Proof/Tests/Slice0.lean ====
section
/-! SUPPORT. Checks of the model on fixed values: ill-formed terms are refused, encodings written out from
spec/30_encoding.md decode to what they stand for, one step of each instruction does what the vectors of
spec/95_test_vectors.md say, and the hypotheses of each statement can be met. -/

namespace Sys2Proof.Tests

open Sys2Proof Sys2Proof.Machine

/-! ## Small states -/

/-- The state after a step that answers one. -/
def after : Host.Outcome State Fault Refusal → State
  | .next t => t
  | _ => State.reset

/-- The reset state at a position, the chip answering as the list says, the sequencer the next to act. -/
def posAt (p : Pos) (answers : List (List Byte)) : State :=
  { State.reset with seq := p, env := { moves := [.loop 0], answers := answers.map .reply, choices := [], draws := 0 } }

/-- The reset state with one move and one choice to come. -/
def moved (m : Move) (choice : Bool) : State :=
  { State.reset with env := { moves := [m], answers := [], choices := [choice], draws := 0 } }

/-- The reset state with `TXBUF` holding a payload length. -/
def txAt (p : Pos) (length : Byte) (answers : List (List Byte)) : State :=
  { posAt p answers with txbuf := [(0, 0x7F), (1, length)], caller := .csma .a6 }

/-- A drain: position, `rx_cursor`, `rx_expected`, the chip's answers. -/
def rxAt (p : Pos) (cursor : Nat) (expected : Byte) (answers : List (List Byte)) : State :=
  { posAt p answers with rxActive := true, rxCursor := cursor, rxExpected := expected }

/-- The state with these bytes received in the last transaction. -/
def withRx (s : State) (rx : List Byte) : State := { s with rx := rx }

/-- The accumulator holding a frame, and the dispatch flag. -/
def hostAt (p : Pos) (frame : List Byte) : State :=
  { posAt p [] with hrx := Memory.writeRun [] 0 frame, hrxCursor := frame.length, dispatchFlag := true,
                    dispTag := frame.headD 0, dispLen := frame.length }

/-- The bytes the last event sent. -/
def lastSent (s : State) : Option (List Byte) :=
  match s.trace.getLast? with
  | some (.xact tx _) => some tx
  | _ => none

/-! ## Ill-formed terms are refused -/

theorem test_wf_empty_power_table : (Instr.wburstPatable []).wf = false := by decide
theorem test_wf_power_table_of_9 : (Instr.wburstPatable [1, 2, 3, 4, 5, 6, 7, 8, 9]).wf = false := by decide
theorem test_wf_empty_fifo_burst : (Instr.wburstFifo []).wf = false := by decide
theorem test_wf_fifo_burst_of_65 : (Instr.wburstFifo (List.replicate 65 0)).wf = false := by decide
theorem test_wf_empty_burst_read : (Instr.rburst 0x3F 0).wf = false := by decide
theorem test_wf_burst_read_beyond_0x28 : (Instr.rburst 0x29 1).wf = false := by decide
theorem test_wf_csc_is_no_sentinel : (Instr.hostConfig 0xFF 0x0A).wf = false := by decide
theorem test_wf_backoff_is_no_sentinel : (Instr.hostConfig 0x03 0xFF).wf = false := by decide
theorem test_wf_data_ends_with_sentinel : (Instr.hostData [0x48]).wf = false := by decide
theorem test_wf_data_without_inner_sentinel : (Instr.hostData [0xFF, 0x48, 0xFF]).wf = false := by decide
theorem test_wf_data_fits : (Instr.hostData (List.replicate 254 0x48 ++ [0xFF])).wf = false := by
  simp only [Instr.wf, frameTailOk, List.length_append, List.length_replicate, Config.cap]
  exact Bool.and_false _
theorem test_wf_other_is_no_known_tag :
    (Instr.hostOther 0x01 [0xFF]).wf = false ∧ (Instr.hostOther 0x02 [0xFF]).wf = false := by decide
theorem test_wf_lone_sentinel_is_whole : (Instr.hostOther 0xFF [0x00, 0xFF]).wf = false := by decide
theorem test_wf_other_ends_with_sentinel : (Instr.hostOther 0x07 [0x01]).wf = false := by decide
theorem test_wf_table_of_38 : (Instr.writeConfig (List.replicate 38 0)).wf = false := by decide

/-! ## Words written out from rules R91 to R95 and R100: bit 7 `RW`, bit 6 `B`, bits 5:0 the address -/

theorem test_decode_sres : decodeBus [0b00110000] = .ok .sres := by decide
theorem test_decode_scal : decodeBus [0b00110011] = .ok .scal := by decide
theorem test_decode_srx : decodeBus [0b00110100] = .ok .srx := by decide
theorem test_decode_stx : decodeBus [0b00110101] = .ok .stx := by decide
theorem test_decode_sidle : decodeBus [0b00110110] = .ok .sidle := by decide
theorem test_decode_sfrx : decodeBus [0b00111010] = .ok .sfrx := by decide
theorem test_decode_snop : decodeBus [0b00111101] = .ok .snop := by decide
theorem test_decode_wreg : decodeBus [0b00001010, 0x03] = .ok (.wreg 0x0A 0x03) := by decide
theorem test_decode_wreg_highest : decodeBus [0b00101000, 0x66] = .ok (.wreg 0x28 0x66) := by decide
theorem test_decode_power_table :
    decodeBus [0b01111110, 1, 2, 3, 4, 5, 6, 7, 8] = .ok (.wburstPatable [1, 2, 3, 4, 5, 6, 7, 8]) := by decide
/-- Rule R130: a burst of the power table has n >= 1 data bytes. -/
theorem test_decode_short_power_table :
    decodeBus [0b01111110, 0xC0] = .ok (.wburstPatable [0xC0]) ∧ decodeBus [0b01111110] = .error (.wrongLength 0x7E 0) := by
  decide
theorem test_decode_fifo_burst : decodeBus [0b01111111, 0x01, 0x55] = .ok (.wburstFifo [0x01, 0x55]) := by decide
theorem test_decode_rfifo1 : decodeBus [0b10111111, 0x00] = .ok .rfifo1 := by decide
theorem test_decode_rburst_fifo : decodeBus [0b11111111, 0, 0, 0] = .ok (.rburst 0x3F 3) := by decide
theorem test_decode_rburst_register : decodeBus [0b11001010, 0] = .ok (.rburst 0x0A 1) := by decide
theorem test_decode_marcstate : decodeBus [0b11110101, 0, 0] = .ok .rstatusMarcstate := by decide
theorem test_decode_txbytes : decodeBus [0b11111010, 0, 0] = .ok .rstatusTxbytes := by decide
theorem test_decode_rxbytes : decodeBus [0b11111011, 0, 0] = .ok .rstatusRxbytes := by decide
theorem test_decode_host_config : decodeHostIn [0x01, 0x03, 0x0A, 0xFF] = .ok (.hostConfig 3 10) := by decide
theorem test_decode_host_data : decodeHostIn [0x02, 0x48, 0xFF] = .ok (.hostData [0x48, 0xFF]) := by decide
theorem test_decode_bootnote : decodeHostOut [0x03, 0xFF] = .ok .hostBootnote := by decide
theorem test_decode_host_other : decodeHostIn [0x07, 0x01, 0xFF] = .ok (.hostOther 7 [0x01, 0xFF]) := by decide
theorem test_decode_lone_sentinel : decodeHostIn [0xFF] = .ok (.hostOther 0xFF []) := by decide

/-- Vector V28: headers the TLC never issues. -/
theorem test_decode_rejects :
    ([0x3B, 0x31, 0x29, 0x3F, 0x8A, 0xF1, 0x4A] : List Byte).all
      (fun h => decide (decodeBus [h] = .error (.notIssued h))) = true := by decide
/-- A header with a length it never has is rejected by name, and so is no byte at all. -/
theorem test_decode_rejects_length :
    decodeBus [0x36, 0x00] = .error (.wrongLength 0x36 1) ∧ decodeBus [] = .error .empty ∧
      decodeHostIn [0x01, 0xFF] = .error (.wrongLength 0x01 1) ∧ decodeHostOut [0x02] = .error .notBootnote := by decide

/-! ## One step of each instruction: vectors V1 to V94 -/

theorem test_v1_sres : (after (exec .sres (posAt .loop [[0x0F]]))).trace = [.xact [0x30] [0x0F]] := by decide
theorem test_v2_scal : lastSent (after (exec .scal (posAt .loop [[0x0F]]))) = some [0x33] := by decide
theorem test_v3_srx : lastSent (after (exec .srx (posAt .loop [[0x0F]]))) = some [0x34] := by decide
theorem test_v4_stx : lastSent (after (exec .stx (posAt .loop [[0x0F]]))) = some [0x35] := by decide
theorem test_v5_sidle : (after (exec .sidle (posAt .loop [[0x0F]]))).chipStatus = 0x0F := by decide
theorem test_v6_sfrx :
    lastSent (after (exec .sfrx (rxAt .loop 5 9 [[0x0F]]))) = some [0x3A] ∧
      (after (exec .sfrx (rxAt .loop 5 9 [[0x0F]]))).rxCursor = 5 := by decide
theorem test_v8_snop : chipIsIdle (after (exec .snop (posAt .loop [[0x0F]]))).chipStatus = true := by decide
theorem test_v9_snop_all_four_bits : chipIsIdle (after (exec .snop (posAt .loop [[0x8F]]))).chipStatus = false := by decide
theorem test_v12_wreg : lastSent (after (exec (.wreg 0x28 0x66) (posAt .loop []))) = some [0x28, 0x66] := by decide
theorem test_v13_power_table :
    lastSent (after (exec (.wburstPatable [0xC0, 0xC1, 0xC2, 0xC3, 0xC4, 0xC5, 0xC6, 0xC7]) (posAt .loop []))) =
      some [0x7E, 0xC0, 0xC1, 0xC2, 0xC3, 0xC4, 0xC5, 0xC6, 0xC7] := by decide
/-- Rule R130: byte `k` goes to entry `k`, and a short burst leaves the later entries alone. -/
theorem test_short_power_table :
    (after (exec (.wburstPatable [0xC0]) (posAt .loop [[0, 0]]))).chip.readPa 0 = 0xC0 ∧
      (after (exec (.wburstPatable [0xC0]) (posAt .loop [[0, 0]]))).chip.readPa 1 = State.reset.chip.readPa 1 := ⟨rfl, rfl⟩
/-- Rule R80: the FIFO empties with bytes of the frame still to come, and the frame is aborted; after its last byte not. -/
theorem test_underflow :
    (({ Chip.atReset with mode := .transmitting, txFifo := [7] } : Chip).act (.txByte true)).mode = .aborted ∧
      (({ Chip.atReset with mode := .transmitting, txFifo := [7] } : Chip).act (.txByte false)).mode = .transmitting := by
  decide
theorem test_v14_fifo_burst :
    lastSent (after (exec (.wburstFifo [0x01, 0x55]) (posAt .loop []))) = some [0x7F, 0x01, 0x55] := by decide
theorem test_v15_rfifo1 : (after (exec .rfifo1 (posAt .loop [[0, 0x7E]]))).fifoByte = 0x7E := by decide
theorem test_v16_txbytes : (after (exec .rstatusTxbytes (posAt .loop [[0, 0x20, 0]]))).occupancy = 32 := by decide
theorem test_v17_rxbytes :
    (after (exec .rstatusRxbytes (posAt .loop [[0, 5, 9]]))).trace = [.xact [0xFB, 0, 0] [0, 5, 9]] := by decide
theorem test_v18_marcstate :
    (after (exec .rstatusMarcstate (posAt .loop [[0, 1, 9]]))).trace = [.xact [0xF5, 0, 0] [0, 1, 9]] := by decide
theorem test_v19_rburst :
    (after (exec (.rburst 0x3F 3) (posAt .loop [[9, 1, 2, 3]]))).trace = [.xact [0xFF, 0, 0, 0] [9, 1, 2, 3]] := by decide

theorem test_v30_kinds : kindOf 0 = .fsk2 ∧ kindOf 7 = .fsk2 ∧ kindOf 8 = .ook ∧ kindOf 255 = .ook := by decide
theorem test_configure_last_entry :
    (after (exec (.configure 3) (posAt (.configure (.c5 38)) []))).seq = .configure .c6 := by decide
theorem test_writeConfig_first_entry :
    (after (exec (.writeConfig (List.replicate 39 7)) (posAt .loop []))).seq = .writeConfig (.entry 1) := by decide
theorem test_v34_v35_path :
    (after (exec .transmit (txAt .loop 63 []))).seq = .transmit .t2 ∧
      (after (exec .transmit (txAt .loop 64 []))).seq = .transmit .t2p := by decide
/-- Vector V35: at an occupancy of 32 the one byte left, `TXBUF[65]`, is sent. -/
theorem test_v35_top_up :
    lastSent (after (exec .transmit
      { withRx (txAt (.transmit .t4pb) 64 []) [0, 32, 0] with txSent := 63, txbuf := [(0, 0x7F), (1, 64), (65, 0x2A)] })) =
        some [0x7F, 0x2A] := by decide
theorem test_v50_sync_edge :
    (after (step { moved (.syncLevel true) true with irqEn := true })).newPacket = true ∧
      (after (step { moved (.syncLevel true) true with irqEn := true })).ledRx = true := by decide
theorem test_v51_masked_edge :
    (after (exec .syncEdge (moved .tick true))).edgePending = true ∧
      (after (exec .syncEdge (moved .tick true))).newPacket = false := by decide
theorem test_v53_gate :
    (after (exec .rxStep (withRx (rxAt (.rxStep .s2) 0 9 []) [0, 1, 0]))).seq = .rxStep .s5 ∧
      (after (exec .rxStep (withRx (rxAt (.rxStep .s2) 0 9 []) [0, 2, 0]))).seq = .rxStep .s3 := by decide
theorem test_v55_store :
    (after (exec .rxStep (withRx (rxAt (.rxStep .s4) 2 9 []) [0, 0x41]))).rxbuf = [(2, 0x41)] ∧
      (after (exec .rxStep (withRx (rxAt (.rxStep .s4) 2 9 []) [0, 0x41]))).rxCursor = 3 := by decide
theorem test_v64f_last_store :
    (after (exec .rxLast (withRx (rxAt (.rxLast .z2) 254 255 []) [0, 0xCC]))).rxbuf = [(254, 0xCC)] := by decide
theorem test_v58_overrun :
    (after (exec .rxLast (withRx (rxAt (.rxLast .z2) 255 255 []) [0, 0xCC]))).marks.bufOverrun = true := by decide
theorem test_v67_handoff :
    (after (exec .rxComplete { rxAt .loop 3 3 [] with rxbuf := [(0, 0xAA), (1, 0xBB), (2, 0xCC)] })).trace =
      [.handoff [0xAA, 0xBB, 0xCC]] := by decide
theorem test_v68_overwrite :
    (after (exec .rxComplete { rxAt .loop 1 1 [] with sendPending := true })).marks.hostTxOverwrite = true := by decide
theorem test_v64_choice :
    (after (exec .rxService (rxAt .loop 1 3 []))).seq = .rxStep .s2 ∧
      (after (exec .rxService (rxAt .loop 2 3 []))).seq = .rxLast .z2 := by decide
theorem test_v62_length_unknown :
    (after (exec .rxService { rxAt .loop 2 3 [] with newPacket := true })).seq = .rxStep .s2 := by decide
theorem test_v72_v73_release :
    (after (exec .csmaService
      { posAt (.csma .a11) [] with
        backingOff := true, backoffPeriod := 10000, backoffElapsed := 10000 })).backingOff = true ∧
    (after (exec .csmaService
      { posAt (.csma .a11) [] with
        backingOff := true, backoffPeriod := 10000, backoffElapsed := 10001 })).backingOff = false := by decide
theorem test_v75_period :
    (after (exec .csmaService { posAt (.csma .a9) [] with backoffByte := 255 })).backoffPeriod = 255000 := by decide
theorem test_v81_sentinel :
    (after (exec (.hostRxByte 0xFF) { State.reset with hrxCursor := 3 })).hrx = [(3, 0xFF)] ∧
      (after (exec (.hostRxByte 0xFF) { State.reset with hrxCursor := 3 })).dispatchFlag = true := by decide
theorem test_v89_full :
    (after (exec (.hostRxByte 0x41) { State.reset with hrxCursor := 255 })).marks.bufOverrun = true := by decide
theorem test_v82_data :
    (after (step (hostAt (.dispatch .h2) [0x02, 0x48, 0x69, 0xFF]))).txbuf =
      [(0, 0x7F), (1, 4), (2, 0x02), (3, 0x48), (4, 0x69), (5, 0xFF)] := by decide
theorem test_v83_overwrite :
    (after (exec (.hostData [0x48, 0xFF]) { State.reset with txPending := true })).marks.txOverwrite = true := by decide
theorem test_v84_config :
    (after (step (hostAt (.dispatch .h2) [0x01, 0x03, 0x0A, 0xFF]))).backoffByte = 10 ∧
      (after (step (hostAt (.dispatch .h2) [0x01, 0x03, 0x0A, 0xFF]))).csc = 3 := by decide
/-- Rule R258: a byte interrupt can fall between H2 and C0, and C0 comes next. -/
theorem test_handler_between_h2_and_c0 :
    (after (exec (.hostRxByte 0x41) (after (exec (.hostConfig 3 10) (posAt .loop []))))).seq = .configure .c0 ∧
      (after (exec (.configure 3) (after (exec (.hostConfig 3 10) (posAt .loop []))))).seq = .configure .c1 := by decide
theorem test_v65_short_config :
    (after (step (hostAt (.dispatch .h2) [0x01, 0xFF]))).csc = 0xFF ∧
      (after (step (hostAt (.dispatch .h2) [0x01, 0xFF]))).seq = .configure .c0 := by decide
theorem test_v86_other :
    (after (step (hostAt (.dispatch .h2) [0x07, 0x01, 0xFF]))).seq = .dispatch .h3 ∧
      (after (step (hostAt (.dispatch .h2) [0x07, 0x01, 0xFF]))).txPending = false := by decide
theorem test_dispatch_reads_tag :
    (after (exec .hostDispatch (hostAt .loop [0x07, 0x01, 0xFF]))).dispTag = 7 ∧
      (after (exec .hostDispatch (hostAt .loop [0x07, 0x01, 0xFF]))).dispLen = 3 := by decide
theorem test_v91_boot : (after (exec .hostTxDrain State.reset)).trace = [.sendByte 0x03] := by decide
theorem test_v92_empty :
    (after (exec .hostTxDrain { State.reset with htxLen := 0 })).trace = [] ∧
      (after (exec .hostTxDrain { State.reset with htxLen := 0 })).sendPending = false := by decide
theorem test_bootnote :
    (after (exec .hostBootnote { State.reset with htx := [], htxLen := 0 })).htx = [(0, 0x03), (1, 0xFF)] := by decide

/-! ## The opcode-table word is what the next step runs -/

theorem test_word_sidle :
    decodeTableWord 8 0x36 = some .sidle ∧
      (after (step (State.reset.withFetchWord 8 0x36))).trace.length = 1 := by decide
theorem test_word_config :
    decodeTableWord 8 0x01 = some (.hostConfig 0 0) ∧
      (after (step (State.reset.withFetchWord 8 0x01))).seq = .configure .c0 := by decide

/-! ## The hypotheses of each statement can be met, every clause at a boundary value of its range -/

/-- A state inside TRANSMIT as CSMA_SERVICE starts it, `txSent` payload bytes written. -/
def txRun (l : TxLabel) (length : Byte) (sent : Nat) : State := { txAt (.transmit l) length [[0, 32, 0]] with txSent := sent }

theorem witness_DecodeEncodeRoundTrip :
    (Instr.wreg 0x28 0xFF).link = some .chipBus ∧ (Instr.wreg 0x28 0xFF).wf = true ∧
      (Instr.hostData [0x48, 0xFF]).link = some .hostIn ∧ (Instr.hostData [0x48, 0xFF]).wf = true ∧
      Instr.hostBootnote.link = some .hostOut ∧ Instr.hostBootnote.wf = true := by decide
theorem witness_HeaderClassification :
    1 ≤ ([1, 2, 3, 4, 5, 6, 7, 8] : List Byte).length ∧ 1 ≤ ([0xAA] : List Byte).length ∧
      decodeBus [0x29, 0x00] = .error (.notIssued 0x29) ∧ decodeBus [0x28, 0x00] = .ok (.wreg 0x28 0) := by decide
theorem witness_OnlyListedTransactionsIssued :
    Disciplined (txRun .t5 64 63) ∧ TagInPlace (txRun .t5 64 63) ∧ (txRun .t5 64 63).seq ≠ .direct ∧
      step (txRun .t5 64 63) = .next (after (step (txRun .t5 64 63))) ∧
      (after (step (txRun .t5 64 63))).trace = (txRun .t5 64 63).trace ++ [.xact [0x3D] [0x00]] :=
  ⟨⟨rfl, rfl⟩, rfl, by decide, rfl, by decide⟩
theorem witness_ReadsComplete :
    ((Instr.rstatusTxbytes, 0xFA) : Instr × Byte) ∈
      [(Instr.rstatusMarcstate, 0xF5), (.rstatusTxbytes, 0xFA), (.rstatusRxbytes, 0xFB)] := by decide
theorem witness_TransactionSendsEncoding :
    Instr.rfifo1.link = some .chipBus ∧ (posAt .loop [[0, 0x7E]]).env.answers = .reply [0, 0x7E] :: [] ∧
      ([0, 0x7E] : List Byte).length = (encode .rfifo1).length := ⟨rfl, rfl, rfl⟩
theorem witness_TimeoutChangesNothingElse : Instr.stx.link = some .chipBus := rfl
theorem witness_ChipSideFollowsTransactions :
    (posAt .loop [[0, 0]]).env.answers = .reply [0, 0] :: [] ∧
      (1 ≤ ([1, 2, 3, 4, 5, 6, 7, 8] : List Byte).length ∧ ([1, 2, 3, 4, 5, 6, 7, 8] : List Byte).length ≤ 8) ∧
      8 < ([1, 2, 3, 4, 5, 6, 7, 8, 9] : List Byte).length ∧ 1 ≤ ([0xAA] : List Byte).length ∧ 1 ≤ 64 :=
  ⟨rfl, by decide, by decide, by decide, by decide⟩
theorem witness_CfgAddrAdmissible : (37 : Fin 39) < 38 := by decide
theorem witness_ConfigureWholeRun : ∀ l, (posAt .loop []).seq ≠ .configure l := by simp [posAt]
theorem witness_ConfigureStartMaskRearm :
    (∀ l, (posAt .loop []).seq ≠ .configure l) ∧ (posAt (.configure .c0) []).seq = .configure .c0 ∧
      (posAt (.configure .c1) []).seq = .configure .c1 ∧
      (posAt (.configure .c13) []).seq = .configure .c13 ∧ (posAt (.configure .c13) []).edgePending = false ∧
      (posAt (.configure .c14) []).seq = .configure .c14 := ⟨by simp [posAt], rfl, rfl, rfl, rfl, rfl⟩
theorem witness_WriteConfigWholeRun :
    (List.replicate 39 (0 : Byte)).length = 39 ∧ ∀ l, (posAt .loop []).seq ≠ .writeConfig l := ⟨rfl, by simp [posAt]⟩
theorem witness_TransmitSinglePathSteps :
    (txRun .t1 63 0).seq = .transmit .t1 ∧ ((txRun .t1 63 0).readBuf .txbuf 1).toNat = 63 ∧
      (txRun .t2 0 0).seq = .transmit .t2 ∧ (txRun .t3 0 0).seq = .transmit .t3 ∧ (txRun .t4 0 0).seq = .transmit .t4 := by
  decide
theorem witness_TransmitChunkedPathSteps :
    (txRun .t2p 64 0).seq = .transmit .t2p ∧ (txRun .t3p 64 0).seq = .transmit .t3p ∧
      (txRun .t4p 64 63).seq = .transmit .t4p ∧ (txRun .t4pa 64 63).seq = .transmit .t4pa ∧
      (withRx (txRun .t4pb 64 63) [0, 33, 0]).seq = .transmit .t4pb ∧
      (withRx (txRun .t4pb 64 63) [0, 33, 0]).rx[1]? = some 33 ∧ 32 < (33 : Byte).toNat ∧
      (withRx (txRun .t4pb 255 231) [0, 32, 0]).seq = .transmit .t4pb ∧
      (withRx (txRun .t4pb 255 231) [0, 32, 0]).rx[1]? = some 32 ∧ (32 : Byte).toNat ≤ 32 := by decide
theorem witness_TransmitCompletionPoll :
    (posAt (.transmit .t5) [[0x1F], [0x1F]]).seq = .transmit .t5 ∧
      (posAt (.transmit .t5) [[0x1F], [0x1F]]).env.answers = List.replicate 2 (.reply [0x1F]) ++ [] := ⟨rfl, rfl⟩
theorem witness_TransmitReturnsToReceive :
    (txRun .t6 0 0).seq = .transmit .t6 ∧ (txRun .t7 0 0).seq = .transmit .t7 ∧ (txRun .t8 0 0).seq = .transmit .t8 := by
  decide
theorem witness_TransmitStarts :
    (∀ l, (posAt (.csma .a5) []).seq ≠ .transmit l) ∧
      exec .transmit (posAt (.csma .a5) []) = .next (after (exec .transmit (posAt (.csma .a5) []))) :=
  ⟨by simp [posAt], rfl⟩
theorem witness_TransmitFillsFifoInOrder :
    Disciplined (txRun .t2 0 0) ∧ TagInPlace (txRun .t2 0 0) ∧ TxProgress [] (txRun .t2 0 0) ∧
      step (txRun .t2 0 0) = .next (after (step (txRun .t2 0 0))) ∧
      (after (step (txRun .t2 0 0))).seq = .transmit .t3 :=
  ⟨⟨rfl, rfl⟩, rfl, ⟨rfl, by decide⟩, rfl, rfl⟩
theorem witness_TransmitRunsToItsEnd :
    (∀ l, (posAt .loop (List.replicate 22 [0, 0, 0])).seq ≠ .transmit l) ∧
      TagInPlace (posAt .loop (List.replicate 22 [0, 0, 0])) ∧
      (posAt .loop (List.replicate 22 [0, 0, 0])).env.answers = List.replicate 22 (.reply [0, 0, 0]) ++ [] :=
  ⟨by simp [posAt], rfl, rfl⟩
theorem witness_SyncEdgeHandler :
    ({ moved (.syncLevel true) true with irqEn := true }).irqEn = true ∧
      ({ moved (.syncLevel true) true with irqEn := true }).nextMove = .syncLevel true ∧
      ({ moved (.syncLevel true) true with irqEn := true }).syncIn = false ∧
      ({ moved .tick true with edgePending := true }).edgePending = true ∧
      ({ moved .tick true with edgePending := true }).nextChoice = true := ⟨rfl, rfl, rfl, rfl, rfl⟩
theorem witness_PendingEdgeBothOutcomes :
    (moved (.syncLevel true) false).nextMove = .syncLevel true ∧ (moved (.syncLevel true) false).syncIn = false ∧
      (moved (.syncLevel true) false).irqEn = false ∧ (moved .tick false).irqEn = false ∧ (moved .tick false).env.choices = false :: [] ∧
      ({ moved .tick true with edgePending := true, seq := .csma .a6 }).edgePending = true ∧
      ({ moved .tick true with edgePending := true, seq := .csma .a6 }).env.choices = true :: [] ∧
      ({ moved .tick true with edgePending := true, seq := .csma .a6 }).seq = .csma .a6 ∧
      ({ moved .tick true with edgePending := true, seq := .configure .c13 }).edgePending = true ∧
      ({ moved .tick true with edgePending := true, seq := .configure .c13 }).env.choices = true :: [] ∧
      ({ moved .tick true with edgePending := true, seq := .configure .c13 }).seq = .configure .c13 :=
  ⟨rfl, rfl, rfl, rfl, rfl, rfl, rfl, rfl, rfl, rfl, rfl⟩
theorem witness_RxStepMicroSteps :
    (∀ l, (posAt .loop []).seq ≠ .rxStep l) ∧
      (withRx (rxAt (.rxStep .s2) 0 9 []) [0, 1, 0]).seq = .rxStep .s2 ∧
      (withRx (rxAt (.rxStep .s2) 0 9 []) [0, 1, 0]).rx[1]? = some 1 ∧
      (rxAt (.rxStep .s3) 0 9 []).seq = .rxStep .s3 ∧
      ({ withRx (rxAt (.rxStep .s4) 0 9 []) [0, 7] with newPacket := true }).seq = .rxStep .s4 ∧
      ({ withRx (rxAt (.rxStep .s4) 0 9 []) [0, 7] with newPacket := true }).rx[1]? = some 7 ∧
      ({ withRx (rxAt (.rxStep .s4) 0 9 []) [0, 7] with newPacket := true }).newPacket = true ∧
      (withRx (rxAt (.rxStep .s4) 254 255 []) [0, 7]).seq = .rxStep .s4 ∧
      (withRx (rxAt (.rxStep .s4) 254 255 []) [0, 7]).rx[1]? = some 7 ∧
      (withRx (rxAt (.rxStep .s4) 254 255 []) [0, 7]).newPacket = false ∧
      (withRx (rxAt (.rxStep .s4) 254 255 []) [0, 7]).rxCursor < 255 ∧
      (rxAt (.rxStep .s4) 255 255 []).seq = .rxStep .s4 ∧ (rxAt (.rxStep .s4) 255 255 []).newPacket = false ∧
      255 ≤ (rxAt (.rxStep .s4) 255 255 []).rxCursor ∧ (rxAt (.rxStep .s5) 0 9 []).seq = .rxStep .s5 :=
  ⟨by simp [posAt], rfl, rfl, rfl, rfl, rfl, rfl, rfl, rfl, rfl, by decide, rfl, rfl, by decide, rfl⟩
theorem witness_RxLastWholeRun :
    (∀ l, (rxAt .loop 254 255 []).seq ≠ .rxLast l) ∧ (rxAt .loop 254 255 []).rxCursor < 255 ∧
      (∀ l, (rxAt .loop 255 3 []).seq ≠ .rxLast l) ∧ 255 ≤ (rxAt .loop 255 3 []).rxCursor :=
  ⟨by simp [rxAt, posAt], by decide, by simp [rxAt, posAt], by decide⟩
theorem witness_RxCompleteWholeRun : ∀ l, (rxAt .loop 255 255 []).seq ≠ .rxComplete l := by simp [rxAt, posAt]
theorem witness_RxServiceChoice :
    (rxAt .loop 2 3 []).seq = .loop ∧ (rxAt .loop 2 3 []).newPacket = false ∧
      (rxAt .loop 2 3 []).rxExpected.toNat ≤ (rxAt .loop 2 3 []).rxCursor + 1 ∧ (rxAt .loop 1 3 []).seq = .loop ∧
      ((rxAt .loop 1 3 []).newPacket = true ∨
        (rxAt .loop 1 3 []).rxCursor + 1 < (rxAt .loop 1 3 []).rxExpected.toNat) := by decide
theorem witness_ExpectedLengthOne :
    (rxAt .loop 0 1 []).seq = .loop ∧ (rxAt .loop 0 1 []).rxActive = true ∧ (rxAt .loop 0 1 []).newPacket = false ∧
      (rxAt .loop 0 1 []).rxExpected = 1 ∧ (rxAt .loop 0 1 []).rxCursor = 0 := by decide
theorem witness_ExpectedLengthZero :
    (rxAt .loop 0 0 []).seq = .loop ∧ (rxAt .loop 0 0 []).rxActive = true ∧ (rxAt .loop 0 0 []).newPacket = false ∧
      (rxAt .loop 0 0 []).rxExpected = 0 ∧ (rxAt .loop 0 0 []).rxCursor = 0 := by decide
theorem witness_IdleBeforeFlush :
    (rxAt .loop 254 255 []).seq = .loop ∧ (rxAt .loop 254 255 []).rxActive = true ∧
      (rxAt .loop 254 255 []).newPacket = false ∧
      (rxAt .loop 254 255 []).rxExpected.toNat ≤ (rxAt .loop 254 255 []).rxCursor + 1 := by decide
theorem witness_LengthPrefixBeginsPacket :
    ({ withRx (rxAt (.rxStep .s4) 0 9 []) [0, 3] with newPacket := true, trace := [.xact [0xBF, 0] [0, 3]] }).seq =
        .rxStep .s4 ∧
      ({ withRx (rxAt (.rxStep .s4) 0 9 []) [0, 3] with newPacket := true, trace := [.xact [0xBF, 0] [0, 3]] }).newPacket =
        true ∧
      ({ withRx (rxAt (.rxStep .s4) 0 9 []) [0, 3] with newPacket := true, trace := [.xact [0xBF, 0] [0, 3]] }).rxCursor =
        0 ∧
      ({ withRx (rxAt (.rxStep .s4) 0 9 []) [0, 3] with newPacket := true, trace := [.xact [0xBF, 0] [0, 3]] }).rx[1]? =
        some 3 ∧
      fifoReads
          ({ withRx (rxAt (.rxStep .s4) 0 9 []) [0, 3] with
              newPacket := true, trace := [.xact [0xBF, 0] [0, 3]] }).trace = [] ++ [3] := ⟨rfl, rfl, rfl, rfl, rfl⟩

/-- A drain of a packet of length 3 with its length byte read and the first payload byte about to be stored. -/
def drainRun : State :=
  { withRx (rxAt (.rxStep .s4) 0 3 []) [0, 0xAA] with
    trace := [.xact [0xBF, 0] [0, 3], .xact [0xBF, 0] [0, 0xAA]] }

theorem witness_ReconstructionKept :
    Disciplined drainRun ∧ TagInPlace drainRun ∧ RxProgress [] drainRun ∧ step drainRun = .next (after (step drainRun)) ∧
      (after (step drainRun)).newPacket = false ∧ (after (step drainRun)).marks.bufOverrun = false ∧
      drainRun.seq ≠ .rxComplete .k5 :=
  ⟨rfl, rfl, ⟨rfl, by decide, fun _ => rfl, rfl⟩, rfl, rfl, rfl, by decide⟩
theorem witness_CsmaClearChannel :
    ({ posAt .loop [] with ccaIn := Config.ccaClearLevel }).seq = .loop ∧
      ({ posAt .loop [] with ccaIn := Config.ccaClearLevel }).backingOff = false ∧
      ({ posAt .loop [] with ccaIn := Config.ccaClearLevel }).ccaIn = Config.ccaClearLevel ∧
      (posAt (.csma .a5) []).seq = .csma .a5 ∧ (posAt (.csma .a6) []).seq = .csma .a6 ∧
      (posAt (.csma .a6) []).edgePending = false := ⟨rfl, rfl, rfl, rfl, rfl, rfl⟩
theorem witness_CsmaBusyArmsBackoff :
    ({ posAt .loop [] with ccaIn := !Config.ccaClearLevel }).seq = .loop ∧
      ({ posAt .loop [] with ccaIn := !Config.ccaClearLevel }).backingOff = false ∧
      ({ posAt .loop [] with ccaIn := !Config.ccaClearLevel }).ccaIn ≠ Config.ccaClearLevel := ⟨rfl, rfl, by simp⟩
theorem witness_CsmaBackoffRelease :
    ({ posAt .loop [] with backingOff := true, backoffElapsed := 10001, backoffPeriod := 10000 }).seq = .loop ∧
      ({ posAt .loop [] with backingOff := true, backoffElapsed := 10001, backoffPeriod := 10000 }).backingOff = true :=
  ⟨rfl, rfl⟩
theorem witness_OutsideMovesChangeTheirInputs :
    (moved .tick true).nextMove = .tick ∧ (moved (.ccaLevel true) true).nextMove = .ccaLevel true ∧
      (moved (.syncLevel false) true).nextMove = .syncLevel false ∧
      (moved (.chip (.rxByte 3)) true).nextMove = .chip (.rxByte 3) ∧
      (moved (.chip (.txByte true)) true).nextMove = .chip (.txByte true) ∧
      (moved (.chip (.mode .idle)) true).nextMove = .chip (.mode .idle) := ⟨rfl, rfl, rfl, rfl, rfl, rfl⟩
/-- The two cases of the byte that goes on air: one byte left in the FIFO, and two. -/
theorem witness_OutsideMoves_txByte :
    (Chip.mode { Chip.atReset with mode := .transmitting, txFifo := [7] } = .transmitting ∧ true = true ∧
      (Chip.txFifo { Chip.atReset with mode := .transmitting, txFifo := [7] }).length ≤ 1) ∧
    1 < (Chip.txFifo { Chip.atReset with mode := .transmitting, txFifo := [7, 8] }).length := by decide
theorem witness_HostByteHandler :
    (moved (.hostByte 0xFF) true).nextMove = .hostByte 0xFF ∧ ({ State.reset with hrxCursor := 254 }).hrxCursor < 255 ∧
      255 ≤ ({ State.reset with hrxCursor := 255 }).hrxCursor := ⟨rfl, by decide, by decide⟩
theorem witness_HostDispatchMicroSteps :
    (∀ l, (posAt .loop []).seq ≠ .dispatch l) ∧ (posAt (.dispatch .h3) []).seq = .dispatch .h3 ∧
      (posAt (.dispatch .h4) []).seq = .dispatch .h4 := ⟨by simp [posAt], rfl, rfl⟩
theorem witness_ConfigCommand :
    (hostAt (.dispatch .h2) [0x01, 0x03, 0xFF]).nextMove = .loop 0 ∧
      (hostAt (.dispatch .h2) [0x01, 0x03, 0xFF]).seq = .dispatch .h2 ∧
      (hostAt (.dispatch .h2) [0x01, 0x03, 0xFF]).dispTag = 0x01 ∧
      3 ≤ (hostAt (.dispatch .h2) [0x01, 0x03, 0xFF]).dispLen ∧
      (hostAt (.dispatch .h2) [0x01, 0xFF]).nextMove = .loop 0 ∧ (hostAt (.dispatch .h2) [0x01, 0xFF]).seq = .dispatch .h2 ∧
      (hostAt (.dispatch .h2) [0x01, 0xFF]).dispTag = 0x01 ∧ 2 ≤ (hostAt (.dispatch .h2) [0x01, 0xFF]).dispLen ∧
      (hostAt (.dispatch .h2) [0x01, 0xFF]).readBuf .hrx 1 = 0xFF ∧
      (posAt (.configure .c0) []).nextMove = .loop 0 ∧ (posAt (.configure .c0) []).seq = .configure .c0 :=
  ⟨rfl, rfl, rfl, by decide, rfl, rfl, rfl, by decide, rfl, rfl, rfl⟩
theorem witness_DataCommand :
    (hostAt (.dispatch .h2) [0x02, 0x48, 0xFF]).nextMove = .loop 0 ∧
      (hostAt (.dispatch .h2) [0x02, 0x48, 0xFF]).seq = .dispatch .h2 ∧
      (hostAt (.dispatch .h2) [0x02, 0x48, 0xFF]).dispTag = 0x02 ∧
      1 ≤ (hostAt (.dispatch .h2) [0x02, 0x48, 0xFF]).dispLen ∧
      (hostAt (.dispatch .h2) [0x02, 0x48, 0xFF]).readRun .hrx 1 2 = [0x48, 0xFF] ∧
      (List.replicate 254 (0xFF : Byte)).length ≤ 254 :=
  ⟨rfl, rfl, rfl, by decide, rfl, List.length_replicate.le⟩
theorem witness_OtherTagDiscards :
    (hostAt (.dispatch .h2) [0x03, 0xFF]).seq = .dispatch .h2 ∧ (hostAt (.dispatch .h2) [0x03, 0xFF]).dispTag ≠ 0x01 ∧
      (hostAt (.dispatch .h2) [0x03, 0xFF]).dispTag ≠ 0x02 := by decide
theorem witness_HostTxDrain :
    State.reset.htxCursor + 1 < State.reset.htxLen ∧
      ({ State.reset with htxCursor := 1 }).htxCursor + 1 = ({ State.reset with htxCursor := 1 }).htxLen ∧
      ({ State.reset with htxLen := 0 }).htxCursor = ({ State.reset with htxLen := 0 }).htxLen ∧
      (posAt .loop []).nextMove = .loop 0 ∧ (posAt .loop []).seq = .loop ∧ (posAt .loop []).rxActive = false ∧
      (posAt .loop []).txPending = false ∧ (posAt .loop []).dispatchFlag = false :=
  ⟨by decide, rfl, rfl, rfl, rfl, rfl, rfl, rfl⟩
theorem witness_BootNotification : ∃ s, s.irqEn = true ∧ ResetState s :=
  ⟨{ State.reset with irqEn := true }, rfl,
    ⟨rfl, rfl, rfl, rfl, rfl, rfl, rfl, rfl, rfl, rfl, rfl, rfl, rfl, rfl, rfl, rfl, rfl, rfl, rfl, rfl⟩⟩
theorem witness_StepRunsDecodedInstruction :
    ({ posAt .direct [] with request := [0x36] }).nextMove = .loop 0 ∧
      ({ posAt .direct [] with request := [0x36] }).seq = .direct ∧
      decodeBus ({ posAt .direct [] with request := [0x36] }).request = .ok .sidle ∧
      (hostAt (.dispatch .h2) [0x02, 0xFF]).nextMove = .loop 0 ∧
      (hostAt (.dispatch .h2) [0x02, 0xFF]).seq = .dispatch .h2 ∧
      decodeHostIn (hostAt (.dispatch .h2) [0x02, 0xFF]).afterMove.hostFrame = .ok (.hostData [0xFF]) ∧
      (posAt .boot []).nextMove = .loop 0 ∧ (posAt .boot []).seq = .boot := ⟨rfl, rfl, rfl, rfl, rfl, rfl, rfl, rfl⟩
theorem witness_StepContinuesOperation :
    (posAt (.configure (.c5 38)) []).nextMove = .loop 0 ∧
      (posAt (.configure (.c5 38)) []).seq = .configure (.c5 38) ∧
      (posAt (.writeConfig .done) []).seq = .writeConfig .done ∧ (posAt (.transmit .t8) []).seq = .transmit .t8 ∧
      (posAt (.rxStep .s5) []).seq = .rxStep .s5 ∧ (posAt (.rxLast .z4) []).seq = .rxLast .z4 ∧
      (posAt (.rxComplete .k6) []).seq = .rxComplete .k6 ∧ (posAt (.rxService .v2) []).seq = .rxService .v2 ∧
      (posAt (.csma .a12) []).seq = .csma .a12 ∧ (posAt (.dispatch .h4) []).seq = .dispatch .h4 ∧
      DispatchLabel.h4 ≠ .h2 := by decide
theorem witness_LoopStartsAnEnabledService :
    (posAt .loop []).nextMove = .loop 0 ∧ (posAt .loop []).seq = .loop ∧ (rxAt .loop 0 3 []).rxActive = true ∧
      ({ posAt .loop [] with txPending := true }).txPending = true ∧
      ({ posAt .loop [] with dispatchFlag := true }).dispatchFlag = true ∧ (posAt .loop []).sendPending = true :=
  ⟨rfl, rfl, rfl, rfl, rfl, rfl⟩
theorem witness_InterruptsLeaveTheSequencer :
    (∀ k, (moved (.hostByte 1) true).nextMove ≠ .loop k) ∧
      step (moved (.hostByte 1) true) = .next (after (step (moved (.hostByte 1) true))) ∧
      (∀ k, (moved .tick true).nextMove ≠ .loop k) ∧ (∀ b, (moved .tick true).nextMove ≠ .hostByte b) ∧
      (∀ l, (moved .tick true).nextMove ≠ .syncLevel l) ∧ (∀ l, (moved .tick true).nextMove ≠ .ccaLevel l) ∧
      (∀ m, (moved .tick true).nextMove ≠ .chip m) ∧ (moved (.hostByte 1) true).nextMove ≠ .tick ∧
      255 ≤ ({ moved (.hostByte 1) true with hrxCursor := 255 }).hrxCursor :=
  ⟨by simp [moved, State.nextMove], rfl, by simp [moved, State.nextMove], by simp [moved, State.nextMove],
    by simp [moved, State.nextMove], by simp [moved, State.nextMove], by simp [moved, State.nextMove],
    by simp [moved, State.nextMove], by decide⟩
/-- The premise of the five invariants, and that a step answers a next state. -/
theorem witness_StepKeeps :
    MemoryOk (posAt .loop []) ∧ InRange (posAt .loop []) ∧ Disciplined (posAt .loop []) ∧ TagInPlace (posAt .loop []) ∧
      step (posAt .loop []) = .next (after (step (posAt .loop []))) :=
  ⟨⟨fun b => by cases b <;> rfl, fun b => by cases b <;> rfl, by decide, by decide⟩,
    ⟨by decide, by decide, by decide, by decide, by decide, by decide, by decide, rfl⟩, trivial, rfl, rfl⟩
theorem witness_StepKeepsMemoryCanonical :
    MemoryOk drainRun ∧ step drainRun = .next (after (step drainRun)) :=
  ⟨⟨fun b => by cases b <;> rfl, fun b => by cases b <;> rfl, by decide, by decide⟩, rfl⟩
theorem witness_StepKeepsRanges : InRange drainRun ∧ step drainRun = .next (after (step drainRun)) :=
  ⟨⟨by decide, by decide, by decide, by decide, by decide, by decide, by decide, rfl⟩, rfl⟩
theorem witness_StepKeepsDiscipline : Disciplined (txRun .t4p 64 63) ∧
    step (txRun .t4p 64 63) = .next (after (step (txRun .t4p 64 63))) := ⟨⟨rfl, rfl⟩, rfl⟩
theorem witness_StepKeepsTag :
    TagInPlace (hostAt (.dispatch .h2) [0x02, 0xFF]) ∧
      step (hostAt (.dispatch .h2) [0x02, 0xFF]) = .next (after (step (hostAt (.dispatch .h2) [0x02, 0xFF]))) := ⟨rfl, rfl⟩
theorem witness_MarksAreSticky :
    step { posAt .loop [] with marks := { rxLenZero := true } } =
        .next (after (step { posAt .loop [] with marks := { rxLenZero := true } })) ∧
      ({ posAt .loop [] with marks := { rxLenZero := true } }).marks.has .rxLenZero = true := ⟨rfl, rfl⟩
theorem witness_TraceGrowsByAtMostOne : step (txRun .t5 0 0) = .next (after (step (txRun .t5 0 0))) := rfl
theorem witness_MaskHoldsOffTheHandler :
    (moved (.syncLevel true) true).irqEn = false ∧ (moved (.syncLevel true) true).seq ≠ .configure .c13 ∧
      (moved (.syncLevel true) true).seq ≠ .csma .a6 ∧
      step (moved (.syncLevel true) true) = .next (after (step (moved (.syncLevel true) true))) :=
  ⟨rfl, by decide, by decide, rfl⟩
theorem witness_QuiescentUntilTheOutsideActs :
    ({ posAt .loop [] with sendPending := false }).quiescent = true ∧
      ({ posAt .loop [] with sendPending := false }).nextMove = .loop 0 := ⟨rfl, rfl⟩

end Sys2Proof.Tests
end

section
/-! PROOFS. The addresses of the configuration table, what a bus instruction sends and receives, and the moves that run no
instruction. -/

namespace Sys2Proof.Machine

/-! ## CFG_ADDR (rule R8; log entry 4) -/

/-- The lower of the two addresses that `CFG_ADDR` skips. -/
def cfgSkipLow : Nat := min (Config.skipOne.val + 1) (Config.skipTwo.val + 1)

/-- The higher of the two addresses that `CFG_ADDR` skips. -/
def cfgSkipHigh : Nat := max (Config.skipOne.val + 1) (Config.skipTwo.val + 2)

/-- Whatever the open parts are, two distinct addresses of 0x01..0x27 are skipped (decision D4). -/
theorem cfgSkip_bounds : 1 ≤ cfgSkipLow ∧ cfgSkipLow < cfgSkipHigh ∧ cfgSkipHigh ≤ 39 := by
  have hOne := Config.skipOne.isLt
  have hTwo := Config.skipTwo.isLt
  unfold cfgSkipLow cfgSkipHigh
  omega

/-- `CFG_ADDR(i)` is `i`, and one more for each skipped address it has passed. -/
theorem cfgAddr_val (i : Fin 39) :
    (cfgAddr i).val =
      if i.val < cfgSkipLow then i.val else if i.val + 1 < cfgSkipHigh then i.val + 1 else i.val + 2 := by
  unfold cfgAddr cfgSkipLow cfgSkipHigh
  simp only [apply_ite Fin.val]

theorem cfgAddr_strictMono : StrictMono cfgAddr := by
  intro i j hij
  have hlt : i.val < j.val := hij
  rw [Fin.lt_def, cfgAddr_val, cfgAddr_val]
  split_ifs <;> omega

theorem cfgAddr_first : (cfgAddr 0).val = 0x00 := by
  obtain ⟨hLow, _, _⟩ := cfgSkip_bounds
  have h0 : (0 : Fin 39).val = 0 := rfl
  rw [cfgAddr_val, h0, if_pos (by omega)]

theorem cfgAddr_last : (cfgAddr 38).val = 0x28 := by
  obtain ⟨_, hLowHigh, hHigh⟩ := cfgSkip_bounds
  have h38 : (38 : Fin 39).val = 38 := rfl
  rw [cfgAddr_val, h38, if_neg (by omega), if_neg (by omega)]

/-! ## What a bus instruction sends and receives (rules R11, R90, R120) -/

/-- Every chip-bus instruction is one transaction of its encoding (rules R90, R121 to R133). -/
theorem exec_of_chipBus {i : Instr} (s : State) (h : i.link = some .chipBus) :
    exec i s = .next (s.xact (encode i)) := by
  cases i with
  | sres | scal | srx | stx | sidle | sfrx | snop => rfl
  | wreg | wburstPatable | wburstFifo | rfifo1 | rburst => rfl
  | rstatusMarcstate | rstatusTxbytes | rstatusRxbytes => rfl
  | hostConfig | hostData | hostBootnote | hostOther => cases h
  | configure | writeConfig | transmit | syncEdge | rxStep | rxLast | rxComplete | rxService => cases h
  | csmaService | hostRxByte | hostDispatch | hostTxDrain => cases h

/-- A scripted reply is the chip's next answer (log entry 1). -/
theorem State.nextAnswer_of_reply {s : State} {bytes : List Byte} {rest : List Answer}
    (h : s.env.answers = .reply bytes :: rest) : s.nextAnswer = .reply bytes := by
  simp [State.nextAnswer, h]

/-- A reply as long as what is sent comes back whole: no byte of it is a free one. -/
theorem State.received_of_reply {s : State} {bytes : List Byte} (h : s.nextAnswer = .reply bytes) :
    s.received bytes.length = bytes := by
  refine List.ext_getElem (s.received_length _) fun k _ hk => ?_
  simp [State.received, h, answerBytes, hk]

/-! ## The acts of the outside that run no instruction (rules R6, R80, R82, R226, R261) -/

/-- A move that only changes the outside is the whole step. -/
theorem step_of_outside {s t : State} {m : Move} (hm : s.nextMove = m) (h : moveAction m s.afterMove = .outside t) :
    step s = .next t := by
  unfold step State.nextAction
  rw [hm, h]

/-- A level of `sync_in` that is no rising edge is the pin's and requests no interrupt (rules R82, R253). -/
theorem syncAction_of_no_edge {s : State} {level : Bool} (h : level = false ∨ s.syncIn = true) :
    syncAction level s = .outside { s with syncIn := level } := by
  have hno : ¬ (level && !s.syncIn) = true := by
    rcases h with h | h <;> simp [h]
  exact if_neg hno

/-- The two cases of the byte that goes on air exclude each other and leave no third. -/
theorem Chip.not_underflow_iff {c : Chip} {more : Bool} :
    ¬ (c.mode = .transmitting ∧ more = true ∧ c.txFifo.length ≤ 1) ↔
      c.mode ≠ .transmitting ∨ more = false ∨ 1 < c.txFifo.length := by
  rw [not_and_or, not_and_or, Bool.not_eq_true, Nat.not_le]

/-- The chip underflows and aborts the frame (rule R80). -/
theorem Chip.sendByte_of_underflow {c : Chip} {more : Bool}
    (h : c.mode = .transmitting ∧ more = true ∧ c.txFifo.length ≤ 1) :
    c.sendByte more = { c with txFifo := [], mode := .aborted } := by
  obtain ⟨-, heq⟩ | ⟨hno, -⟩ := c.sendByte_cases more
  · exact heq
  · exact absurd h (Chip.not_underflow_iff.mpr hno)

/-- With no underflow the chip sends its oldest byte and nothing else happens (rule R80). -/
theorem Chip.sendByte_of_no_underflow {c : Chip} {more : Bool}
    (h : c.mode ≠ .transmitting ∨ more = false ∨ 1 < c.txFifo.length) :
    c.sendByte more = { c with txFifo := c.txFifo.drop 1 } := by
  obtain ⟨hunder, -⟩ | ⟨-, heq⟩ := c.sendByte_cases more
  · exact absurd hunder (Chip.not_underflow_iff.mpr h)
  · exact heq

/-- A move of the chip changes the chip image as its act says (log entry 14). -/
theorem step_of_chipMove {s : State} {m : ChipMove} (hm : s.nextMove = .chip m) :
    step s = .next { s.afterMove with chip := s.chip.act m } :=
  step_of_outside hm rfl

end Sys2Proof.Machine

namespace Sys2Proof.Proofs

open Sys2Proof Sys2Proof.Machine

/-- Settles O11: the entries skip two addresses strictly between the first and the last. -/
theorem cfgAddrAdmissible : Obligations.CfgAddrAdmissible :=
  ⟨fun _ _ hij => cfgAddr_strictMono hij, cfgAddr_first, cfgAddr_last⟩

/-- Settles O8: a bus instruction is the transaction of its encoding, and a transaction receives the scripted reply. -/
theorem transactionSendsEncoding : Obligations.TransactionSendsEncoding := by
  intro i s hlink
  refine ⟨_, exec_of_chipBus s hlink, s.xact_transacts _, ?_⟩
  intro bytes rest hans hlen
  constructor
  · rw [State.xact_rx, ← hlen, State.received_of_reply (State.nextAnswer_of_reply hans)]
  · simp [hans]

/-- Settles O37: each of these moves is an act of the outside, and the step is that act alone. -/
theorem outsideMovesChangeTheirInputs : Obligations.OutsideMovesChangeTheirInputs := by
  intro s
  refine ⟨?tick, ?cca, ?sync, ?rxByte, ?txByte, ?mode⟩
  case tick => exact fun hm => step_of_outside hm rfl
  case cca => exact fun _ hm => step_of_outside hm rfl
  case sync => exact fun _ hm hlevel => step_of_outside hm (syncAction_of_no_edge hlevel)
  case rxByte => exact fun _ hm => step_of_chipMove hm
  case txByte =>
    intro more hm
    constructor
    · intro hunder
      rw [step_of_chipMove hm, Chip.act, Chip.sendByte_of_underflow hunder]
    · intro hno
      rw [step_of_chipMove hm, Chip.act, Chip.sendByte_of_no_underflow hno]
  case mode => exact fun _ hm => step_of_chipMove hm

end Sys2Proof.Proofs
end

section
/-! PROOFS. What a step can do to the cursors, the counters, TXBUF, the select line and the marks, said once as a relation;
the three invariants that follow from it; and the chip image, the edge latch, the boot notification and the reset state. -/

namespace Sys2Proof.Machine

/-! ## The watched part of the state (rules R21, R23, R31, R33 to R36, R40) -/

/-- The elements that the invariants of this file speak of. -/
structure Watched where
  txbuf : Memory
  marks : Marks
  rxCursor : Nat
  txSent : Nat
  backoffPeriod : Nat
  hrxCursor : Nat
  dispLen : Nat
  htxCursor : Nat
  htxLen : Nat
  csN : Bool

/-- The watched part of a state. An operation that changes nothing of it leaves it equal by definition. -/
def State.watched (s : State) : Watched where
  txbuf := s.txbuf
  marks := s.marks
  rxCursor := s.rxCursor
  txSent := s.txSent
  backoffPeriod := s.backoffPeriod
  hrxCursor := s.hrxCursor
  dispLen := s.dispLen
  htxCursor := s.htxCursor
  htxLen := s.htxLen
  csN := s.csN

/-- What the TLC can do to the watched part. Each constructor is one write of a rule; a micro-step is a few of them. -/
inductive Watched.Change : Watched → Watched → Prop where
  | none (w : Watched) : Change w w
  | next {u v w : Watched} (first : Change u v) (second : Change v w) : Change u w
  /-- A mark is set (rule R33). -/
  | mark (w : Watched) (m : Mark) : Change w { w with marks := w.marks.add m }
  /-- A byte of TXBUF after the tag is stored (rule R233). -/
  | storeTx (w : Watched) {i : Nat} (v : Byte) (hi : 0 < i) : Change w { w with txbuf := Memory.write w.txbuf i v }
  /-- `rx_cursor` takes a value of its range (rule R23). -/
  | rxCursor (w : Watched) {n : Nat} (hn : n ≤ 255) : Change w { w with rxCursor := n }
  /-- `tx_sent` takes a value of its range, or does not grow (rule R31). -/
  | txSent (w : Watched) {n : Nat} (hn : n ≤ max w.txSent 255) : Change w { w with txSent := n }
  /-- `backoff_period` takes a value of its range (rule R34). -/
  | backoffPeriod (w : Watched) {n : Nat} (hn : n ≤ 255000) : Change w { w with backoffPeriod := n }
  /-- `hrx_cursor` takes a value of its range (rule R35). -/
  | hrxCursor (w : Watched) {n : Nat} (hn : n ≤ 255) : Change w { w with hrxCursor := n }
  /-- H1 reads the length of the accumulated frame (rule R231). -/
  | readLength (w : Watched) : Change w { w with dispLen := w.hrxCursor }
  /-- A frame is queued to the host (rules R235, R237). -/
  | queued (w : Watched) {n : Nat} (hn : n ≤ 255) : Change w { w with htxLen := n, htxCursor := 0 }
  /-- A byte goes to the host (rule R236). -/
  | sentByte (w : Watched) (h : w.htxCursor < w.htxLen) : Change w { w with htxCursor := w.htxCursor + 1 }
  /-- The frame to the host is done (rule R236). -/
  | drained (w : Watched) : Change w { w with htxCursor := 0 }
  /-- The select line is high after a transaction (rules R40, R120). -/
  | deselected (w : Watched) : Change w { w with csN := true }

/-- The sequencer's position is not watched. -/
theorem Watched.Change.goto {w : Watched} {s : State} (p : Pos) (h : w.Change s.watched) :
    w.Change (s.goto p).watched := h

/-! ## What the shared operations do to it -/

/-- A transaction sets the informational mark or not, and leaves the select line high (rules R120, R136). -/
theorem State.xact_changes (s : State) (tx : List Byte) : s.watched.Change (s.xact tx).watched := by
  obtain ⟨rx, led0, led1, chip, marks, env, ht, -, hmarks, -, -⟩ := s.xact_transacts tx
  rw [ht]
  obtain rfl | rfl := hmarks
  · exact .deselected _
  · exact .next (.mark _ .busTimeout) (.deselected _)

/-- An entry of writeConfig is a transaction, or the mark where the table has no such entry (rule R134). -/
theorem State.writeEntry_changes (s : State) (i : Fin 39) : s.watched.Change (s.writeEntry i).watched := by
  unfold State.writeEntry
  split
  · exact s.xact_changes _
  · exact .mark _ .bufOverrun

/-- Re-arming changes nothing that is watched (rule R29). -/
theorem State.rearm_watched (s : State) : s.rearm.watched = s.watched := by
  obtain ⟨-, h⟩ | ⟨-, -, h⟩ | ⟨-, -, h⟩ := s.rearm_cases <;> rw [h] <;> rfl

/-- A rising edge changes nothing that is watched, masked or not (rules R29, R191). -/
theorem State.takeSyncEdge_watched (s : State) : s.takeSyncEdge.watched = s.watched := by
  obtain ⟨-, h⟩ | ⟨-, h⟩ | ⟨-, h⟩ := s.takeSyncEdge_cases <;> rw [h] <;> rfl

/-- A host byte moves `hrx_cursor` up to 255 at most, or is dropped and marked (rule R230). -/
theorem State.byteHandler_changes (s : State) (b : Byte) : s.watched.Change (s.byteHandler b).watched := by
  obtain ⟨hlt, h⟩ | ⟨-, h⟩ := s.byteHandler_cases b
  · rw [h]; exact .hrxCursor _ hlt
  · rw [h]; exact .mark _ .bufOverrun

/-- A stored FIFO byte moves `rx_cursor` up to 255 at most, or is marked (rules R64, R192, R194). -/
theorem State.storeRx_changes (s : State) (b : Byte) : s.watched.Change (s.storeRx b).watched := by
  obtain ⟨hlt, h⟩ | ⟨-, h⟩ := s.storeRx_cases b
  · rw [h]; exact .rxCursor _ hlt
  · rw [h]; exact .mark _ .bufOverrun

/-- S4 takes the length or stores a byte (rule R192). -/
theorem State.takeFifoByte_changes (s : State) : s.watched.Change s.takeFifoByte.watched := by
  unfold State.takeFifoByte
  split
  · exact .none _
  · exact s.storeRx_changes _

theorem State.markLenZero_changes (s : State) : s.watched.Change s.markLenZero.watched := by
  unfold State.markLenZero
  split
  · exact .mark _ .rxLenZero
  · exact .none _

/-- A hand-off of at most 255 bytes queues them, with the mark where a frame was being sent (rule R235). -/
theorem State.handoff_changes (s : State) {bytes : List Byte} (h : bytes.length ≤ 255) :
    s.watched.Change (s.handoff bytes).watched := by
  rw [State.handoff_eq s h]
  cases hp : s.sendPending
  · exact .queued _ h
  · exact .next (.mark _ .hostTxOverwrite) (.queued _ h)

/-- A completed frame is as long as its length byte says, so it fits HTX (rules R24, R196). -/
theorem State.rxFrame_length_le (s : State) : s.rxFrame.length ≤ 255 := by
  unfold State.rxFrame
  rw [State.readRun_length]
  have := s.rxExpected.isLt
  omega

/-- A write to TXBUF after the tag is a store there, or the mark outside the buffer (rule R64). -/
theorem State.writeBuf_txbuf_changes (s : State) {i : Nat} (v : Byte) (hi : 0 < i) :
    s.watched.Change (s.writeBuf .txbuf i v).watched := by
  unfold State.writeBuf
  split
  · exact .storeTx _ v hi
  · exact .mark _ .bufOverrun

theorem State.writeRun_txbuf_changes (s : State) {i : Nat} (vs : List Byte) (hi : 0 < i) :
    s.watched.Change (s.writeRun .txbuf i vs).watched := by
  induction vs generalizing s i with
  | nil => exact .none _
  | cons v vs ih => exact .next (s.writeBuf_txbuf_changes v hi) (ih _ i.succ_pos)

theorem State.markTx_changes (s : State) : s.watched.Change s.markTx.watched := by
  unfold State.markTx
  split
  · exact .mark _ .txOverwrite
  · exact .none _

/-- A data command writes TXBUF from index 1 on, never the tag (rule R233). -/
theorem State.loadTx_changes (s : State) (frame : List Byte) : s.watched.Change (s.loadTx frame).watched :=
  .next s.markTx_changes <| .next (State.writeBuf_txbuf_changes _ _ (Nat.succ_pos 0)) <|
    State.writeRun_txbuf_changes _ frame (Nat.succ_pos 1)

/-- A counted top-up ends by the payload's end, so it does not take `tx_sent` beyond 255 (rules R31, R99 d). -/
theorem State.txSent_add_chunkSize_le (s : State) : s.txSent + s.chunkSize ≤ max s.txSent 255 := by
  have hlen : s.txLength < 256 := (s.readBuf .txbuf 1).isLt
  unfold State.chunkSize
  omega

/-- T3' counts the 63 payload bytes of the first burst (rule R171). -/
theorem State.startChunks_changes (s : State) : s.watched.Change s.startChunks.watched :=
  .next (s.xact_changes [hdrSingleWrite Config.codes.aStx]) (.txSent _ (n := 63) (le_max_of_le_right (by decide)))

/-- T4'b sends and counts a chunk, or nothing (rule R173). -/
theorem State.refill_changes (s : State) : s.watched.Change s.refill.watched := by
  unfold State.refill
  split
  · exact .next (s.xact_changes _) (.txSent _ s.txSent_add_chunkSize_le)
  · exact .none _

/-- The longest backoff is that of the byte 255 (rules R34, R99 f). -/
theorem periodOf_le (b : Byte) : periodOf b ≤ 255000 := by
  have hb := b.isLt
  unfold periodOf Config.ticksPerUnit
  omega

theorem State.sendNext_changes (s : State) : s.watched.Change s.sendNext.watched := by
  unfold State.sendNext
  split
  next hlt => exact .sentByte _ hlt
  next => exact .none _

theorem State.endDrain_changes (s : State) : s.watched.Change s.endDrain.watched := by
  unfold State.endDrain
  split
  · exact .drained _
  · exact .none _

/-! ## What a micro-step of each operation does to it -/

theorem configureStep_changes (csc : Byte) (l : CfgLabel) (s : State) :
    s.watched.Change (configureStep csc l s).watched := by
  cases l with
  | c0 | c1 | c2 | c4 | c9 | c14 => exact .none _
  | c3 | c6 | c7 | c8 | c10 | c11 | c12 => exact .goto _ (s.xact_changes _)
  | c5 i => exact s.writeEntry_changes i
  | c13 => exact s.rearm_watched ▸ .none _

theorem startConfigure_changes (csc : Byte) (back : Pos) (s : State) :
    s.watched.Change (startConfigure csc back s).watched :=
  configureStep_changes csc .c0 (s.callFrom back)

theorem writeConfigStep_changes (l : WcLabel) (s : State) : s.watched.Change (writeConfigStep l s).watched := by
  cases l with
  | entry i => exact s.writeEntry_changes i
  | done => exact .none _

theorem startWriteConfig_changes (table : List Byte) (back : Pos) (s : State) :
    s.watched.Change (startWriteConfig table back s).watched :=
  writeConfigStep_changes (.entry 0) ({ s with cfgTable := table }.callFrom back)

theorem transmitStep_changes (l : TxLabel) (s : State) : s.watched.Change (transmitStep l s).watched := by
  cases l with
  | t1 | t2 | t3 | t4 | t2p | t4pa | t5 | t6 | t7 => exact .goto _ (s.xact_changes _)
  | t3p => exact s.startChunks_changes
  | t4pb => exact s.refill_changes
  | t4p | t8 => exact .none _

theorem startTransmit_changes (back : Pos) (s : State) :
    s.watched.Change (startTransmit back s).watched :=
  transmitStep_changes .t1 (s.callFrom back)

theorem csmaStep_changes (l : CsmaLabel) (s : State) : s.watched.Change (csmaStep l s).watched := by
  cases l with
  | a1 | a2 | a3 | a4 | a7 | a8 | a10 | a11 | a12 => exact .none _
  | a5 => exact startTransmit_changes _ s
  | a6 => exact s.rearm_watched ▸ .none _
  | a9 => exact .backoffPeriod _ (periodOf_le _)

theorem rxStepStep_changes (l : RxStepLabel) (s : State) : s.watched.Change (rxStepStep l s).watched := by
  cases l with
  | s1 | s3 => exact .goto _ (s.xact_changes _)
  | s2 | s5 => exact .none _
  | s4 => exact s.takeFifoByte_changes

theorem startRxStep_changes (back : Pos) (s : State) :
    s.watched.Change (startRxStep back s).watched :=
  rxStepStep_changes .s1 (s.callFrom back)

theorem rxLastStep_changes (l : RxLastLabel) (s : State) : s.watched.Change (rxLastStep l s).watched := by
  cases l with
  | z1 | z3 => exact .goto _ (s.xact_changes _)
  | z2 => exact s.storeRx_changes _
  | z4 => exact .none _

theorem startRxLast_changes (back : Pos) (s : State) :
    s.watched.Change (startRxLast back s).watched :=
  rxLastStep_changes .z1 (s.callFrom back)

theorem rxCompleteStep_changes (l : RxCompleteLabel) (s : State) : s.watched.Change (rxCompleteStep l s).watched := by
  cases l with
  | k1 => exact s.handoff_changes s.rxFrame_length_le
  | k2 | k6 => exact .none _
  | k3 | k4 => exact .goto _ (s.xact_changes _)
  | k5 => exact .rxCursor _ (Nat.zero_le _)

theorem rxServiceStep_changes (l : RxServiceLabel) (s : State) : s.watched.Change (rxServiceStep l s).watched := by
  cases l with
  | v1 =>
    unfold rxServiceStep
    dsimp only
    split
    · exact startRxLast_changes _ s
    · exact startRxStep_changes _ s
  | v2 => exact .next s.markLenZero_changes (rxCompleteStep_changes .k1 _)

/-- H2 changes the marks and TXBUF for a data command, and else nothing that is watched (rules R232 to R234). -/
theorem dispatchFrame_changes {s t : State} (h : dispatchFrame s = .next t) : s.watched.Change t.watched := by
  unfold dispatchFrame at h
  split at h <;> cases h
  · exact .none _
  · exact s.loadTx_changes _
  · exact .none _

theorem execHostDispatch_changes {s t : State} (h : execHostDispatch s = .next t) : s.watched.Change t.watched := by
  unfold execHostDispatch at h
  split at h
  · exact dispatchFrame_changes h
  · cases h; exact .hrxCursor _ (Nat.zero_le _)
  · cases h; exact .none _
  · cases h; exact .readLength _

/-- Every instruction changes the watched part as the rules say, in every state. -/
theorem exec_changes {i : Instr} {s t : State} (h : exec i s = .next t) : s.watched.Change t.watched := by
  cases i with
  | sres | scal | srx | stx | sidle | sfrx | snop => cases h; exact s.xact_changes _
  | wreg | wburstPatable | wburstFifo | rfifo1 | rburst => cases h; exact s.xact_changes _
  | rstatusMarcstate | rstatusTxbytes | rstatusRxbytes => cases h; exact s.xact_changes _
  | hostConfig | hostOther => cases h; exact .none _
  | hostData rest => cases h; exact s.loadTx_changes _
  | hostBootnote =>
    cases h
    rw [State.queueToHost_eq s (by decide)]
    exact .queued _ (n := 2) (by decide)
  | configure csc =>
    change execConfigure csc s = .next t at h
    unfold execConfigure at h
    split at h <;> cases h
    · exact configureStep_changes csc _ s
    · exact startConfigure_changes csc _ s
  | writeConfig table =>
    change execWriteConfig table s = .next t at h
    unfold execWriteConfig at h
    split at h <;> cases h
    · exact writeConfigStep_changes _ s
    · exact startWriteConfig_changes table _ s
  | transmit =>
    change execTransmit s = .next t at h
    unfold execTransmit at h
    split at h <;> cases h
    · exact transmitStep_changes _ s
    · exact startTransmit_changes _ s
  | syncEdge => cases h; exact s.takeSyncEdge_watched ▸ .none _
  | rxStep =>
    change execRxStep s = .next t at h
    unfold execRxStep at h
    split at h <;> cases h
    · exact rxStepStep_changes _ s
    · exact startRxStep_changes _ s
  | rxLast =>
    change execRxLast s = .next t at h
    unfold execRxLast at h
    split at h <;> cases h
    · exact rxLastStep_changes _ s
    · exact startRxLast_changes _ s
  | rxComplete =>
    change execRxComplete s = .next t at h
    unfold execRxComplete at h
    split at h <;> cases h <;> exact rxCompleteStep_changes _ s
  | rxService =>
    change execRxService s = .next t at h
    unfold execRxService at h
    split at h <;> cases h <;> exact rxServiceStep_changes _ s
  | csmaService =>
    change execCsmaService s = .next t at h
    unfold execCsmaService at h
    split at h <;> cases h <;> exact csmaStep_changes _ s
  | hostRxByte b => cases h; exact s.byteHandler_changes b
  | hostDispatch => exact execHostDispatch_changes h
  | hostTxDrain => cases h; exact .next s.sendNext_changes (State.endDrain_changes _)

/-! ## What a step does to it -/

/-- The state an action starts from, or leaves, has this watched part. -/
def Action.watchedIs (w : Watched) : Action → Prop
  | .outside t => t.watched = w
  | .run _ t => t.watched = w
  | .refuse _ => True

theorem sequencerAction_watched (k : Nat) (s : State) : (sequencerAction k s).watchedIs s.watched := by
  unfold sequencerAction
  split
  · unfold loopAction
    split <;> rfl
  · split
    · unfold fetchAction
      split
      · unfold State.pastFetch
        split <;> rfl
      · trivial
    · unfold opAction
      split <;> rfl

/-- The move itself changes nothing that is watched: the outside does not reach it (rules R6, R258). -/
theorem moveAction_watched (m : Move) (s : State) : (moveAction m s).watchedIs s.watched := by
  cases m with
  | loop k => exact sequencerAction_watched k s
  | syncLevel level =>
    unfold moveAction syncAction
    dsimp only
    split <;> rfl
  | ccaLevel | hostByte | tick | chip => rfl

/-- A step changes the watched part as the rules say. -/
theorem step_changes {s t : State} (h : step s = .next t) : s.watched.Change t.watched := by
  have hmove : s.nextAction.watchedIs s.watched := moveAction_watched s.nextMove s.afterMove
  obtain hout | ⟨i, u, hrun, hexec⟩ := step_cases h
  · rw [hout] at hmove
    exact hmove ▸ .none _
  · rw [hrun] at hmove
    exact hmove ▸ exec_changes hexec

/-! ## What every such change keeps -/

/-- The ranges of the watched part. -/
structure Watched.InRange (w : Watched) : Prop where
  rxCursor : w.rxCursor ≤ 255
  txSent : w.txSent ≤ 255
  backoffPeriod : w.backoffPeriod ≤ 255000
  hrxCursor : w.hrxCursor ≤ 255
  dispLen : w.dispLen ≤ 255
  htxLen : w.htxLen ≤ 255
  htxCursor : w.htxCursor ≤ w.htxLen
  csN : w.csN = true

/-- The ranges of a state are those of its watched part. -/
theorem inRange_iff_watched (s : State) : InRange s ↔ s.watched.InRange := by
  constructor <;> rintro ⟨h1, h2, h3, h4, h5, h6, h7, h8⟩ <;> exact ⟨h1, h2, h3, h4, h5, h6, h7, h8⟩

theorem Watched.Change.inRange {w w' : Watched} (h : w.Change w') (hw : w.InRange) : w'.InRange := by
  induction h with
  | none => exact hw
  | next _ _ ihFirst ihSecond => exact ihSecond (ihFirst hw)
  | mark | storeTx => exact { hw with }
  | rxCursor _ hn => exact { hw with rxCursor := hn }
  | txSent _ hn => exact { hw with txSent := hn.trans (max_le hw.txSent le_rfl) }
  | backoffPeriod _ hn => exact { hw with backoffPeriod := hn }
  | hrxCursor _ hn => exact { hw with hrxCursor := hn }
  | readLength => exact { hw with dispLen := hw.hrxCursor }
  | queued _ hn => exact { hw with htxLen := hn, htxCursor := Nat.zero_le _ }
  | sentByte _ hlt => exact { hw with htxCursor := hlt }
  | drained => exact { hw with htxCursor := Nat.zero_le _ }
  | deselected => exact { hw with csN := rfl }

/-- No change touches the tag's byte (rules R21, R233). -/
theorem Watched.Change.read_tag {w w' : Watched} (h : w.Change w') : w'.txbuf.read 0 = w.txbuf.read 0 := by
  induction h with
  | next _ _ ihFirst ihSecond => exact ihSecond.trans ihFirst
  | storeTx _ v hi => exact Memory.read_write_other _ v hi.ne
  | none | mark | rxCursor | txSent | backoffPeriod | hrxCursor | readLength => rfl
  | queued | sentByte | drained | deselected => rfl

/-- Setting a mark adds that mark and no other, and clears none (rule R33). -/
theorem Marks.has_add (ms : Marks) (new m : Mark) : (ms.add new).has m = (ms.has m || decide (m = new)) := by
  cases new <;> cases m <;> simp [Marks.add, Marks.has]

/-- No change clears a mark (rules R33, R252). -/
theorem Watched.Change.marks_has {w w' : Watched} (h : w.Change w') {m : Mark} (hm : w.marks.has m = true) :
    w'.marks.has m = true := by
  induction h with
  | next _ _ ihFirst ihSecond => exact ihSecond (ihFirst hm)
  | mark _ new =>
    rw [Marks.has_add, hm]
    rfl
  | none | storeTx | rxCursor | txSent | backoffPeriod | hrxCursor | readLength => exact hm
  | queued | sentByte | drained | deselected => exact hm

/-! ## The chip image after a taken transaction (rules R37, R38, R97; log entry 14) -/

/-- The bytes after a header of a known kind are told apart by that kind (rule R97). -/
theorem decodeBus_cons {h : Byte} {k : Header} (d : List Byte) (hk : classify h = some k) :
    decodeBus (h :: d) = decodeData h d k := by
  simp only [decodeBus, hk]

/-- A bare configuration register address announces a register write (case 1 of rule R97). -/
theorem classify_cfgWrite (a : Fin 41) :
    classify (hdrSingleWrite (BitVec.ofNat 8 a.val)) = some (.cfgWrite a) := by
  revert a
  decide

/-- A configuration register address with both bits set announces a burst read (case 7 of rule R97). -/
theorem classify_burstRead_cfg (a : Fin 41) :
    classify (hdrBurstRead ((BitVec.ofNat 6 a.val).zeroExtend 8)) = some (.burstRead (BitVec.ofNat 6 a.val)) := by
  revert a
  decide

theorem decodeBus_encode_wreg (a : Fin 41) (v : Byte) : decodeBus (encode (.wreg a v)) = .ok (.wreg a v) :=
  decodeBus_cons [v] (classify_cfgWrite a)

theorem decodeBus_encode_wburstPatable {levels : List Byte} (h : 1 ≤ levels.length) :
    decodeBus (encode (.wburstPatable levels)) = .ok (.wburstPatable levels) :=
  (decodeBus_cons levels (by decide : classify hdrPaWb = some .paWrite)).trans (if_pos h)

theorem decodeBus_encode_wburstFifo {data : List Byte} (h : 1 ≤ data.length) :
    decodeBus (encode (.wburstFifo data)) = .ok (.wburstFifo data) :=
  (decodeBus_cons data (by decide : classify hdrFifoWb = some .fifoWrite)).trans (if_pos h)

/-- A burst read decodes to its address and as many bytes as it has fill bytes (rule R133). -/
theorem decodeBus_encode_rburst {a : ChipAddr} {n : Nat}
    (hk : classify (hdrBurstRead (a.zeroExtend 8)) = some (.burstRead a)) (h : 1 ≤ n) : decodeBus (encode (.rburst a n)) = .ok (.rburst a n) := by
  unfold encode
  rw [decodeBus_cons _ hk]
  simp [decodeData, h]

/-- A configuration register is not the FIFO, and the chip's image has nothing that a burst read of it takes (rule R37). -/
theorem Chip.takeInstr_rburst_cfg (c : Chip) (k : Nat) (a : Fin 41) (n : Nat) :
    c.takeInstr k (.rburst (BitVec.ofNat 6 a.val) n) = c := by
  have hne : ¬ (BitVec.ofNat 6 a.val).toNat = Config.codes.aFifo.toNat := by
    revert a
    decide
  exact if_neg hne

/-- A bus instruction whose exchange completes has its effect on the chip image, drawn at the present index. -/
theorem exec_chip_of_reply {i : Instr} {s : State} {bytes : List Byte} {rest : List Answer}
    (hans : s.env.answers = .reply bytes :: rest) (hlink : i.link = some .chipBus) (hdec : decodeBus (encode i) = .ok i) :
    ∃ t, exec i s = .next t ∧ t.chip = s.chip.takeInstr s.env.draws i := by
  refine ⟨_, exec_of_chipBus s hlink, ?_⟩
  have htaken : answerTaken s.nextAnswer = true := by rw [State.nextAnswer_of_reply hans]; rfl
  rw [State.xact_chip, if_pos htaken, Chip.take, hdec]

/-- A burst to the power table changes no other part of the chip image. -/
theorem Chip.takeLevels_frame (c : Chip) (k : Nat) (levels : List Byte) :
    c.takeLevels k levels =
      { c with paTable := (c.takeLevels k levels).paTable, paDraw := (c.takeLevels k levels).paDraw } := by
  unfold Chip.takeLevels
  split <;> rfl

/-! ## The edge latch with a scripted choice (rule R29; log entry 9) -/

/-- A scripted choice is the next choice. -/
theorem State.nextChoice_of_script {s : State} {c : Bool} {rest : List Bool} (h : s.env.choices = c :: rest) :
    s.nextChoice = c := by
  simp [State.nextChoice, h]

/-- A masked edge is remembered where the choice says so, and else the latch is as before. -/
theorem State.takeSyncEdge_of_masked {s : State} (h : s.irqEn = false) :
    s.takeSyncEdge = { s.dropChoice with edgePending := s.nextChoice || s.edgePending } := by
  unfold State.takeSyncEdge
  rw [h]
  cases s.nextChoice <;> rfl

/-- A remembered edge is delivered at re-arming where the choice says so, and else dropped. -/
theorem State.rearm_of_pending {s : State} (h : s.edgePending = true) :
    s.rearm = { s.dropChoice with irqEn := true, edgePending := false, newPacket := s.nextChoice || s.newPacket,
                                  rxActive := s.nextChoice || s.rxActive, ledRx := s.nextChoice || s.ledRx } := by
  unfold State.rearm
  rw [h]
  cases s.nextChoice <;> rfl

theorem exec_csmaService_of_seq {s : State} {l : CsmaLabel} (h : s.seq = .csma l) :
    exec .csmaService s = .next (csmaStep l s) := by
  change execCsmaService s = _
  unfold execCsmaService
  rw [h]

theorem exec_configure_of_seq {s : State} {l : CfgLabel} (csc : Byte) (h : s.seq = .configure l) :
    exec (.configure csc) s = .next (configureStep csc l s) := by
  change execConfigure csc s = _
  unfold execConfigure
  rw [h]

/-! ## Steps that run an instruction (rules R30, R258, R287) -/

/-- A move whose action is an instruction: the step is that instruction's run. -/
theorem step_of_run {s u : State} {m : Move} {i : Instr} (hm : s.nextMove = m)
    (h : moveAction m s.afterMove = .run i u) : step s = exec i u := by
  unfold step State.nextAction
  rw [hm, h]

/-- A rising edge of `sync_in` is a request for SYNC_EDGE, whatever the mask (rules R191, R253). -/
theorem syncAction_of_edge {s : State} (h : s.syncIn = false) :
    syncAction true s = .run .syncEdge { s with syncIn := true } := by
  unfold syncAction
  rw [h]
  rfl

/-- The position stands inside an operation whose next micro-step is not fetched as bytes: H2 is. -/
def Pos.inOperation : Pos → Bool
  | .loop | .boot | .direct | .dispatch .h2 => false
  | _ => true

/-- Inside an operation the sequencer goes on with it (rule R30). -/
theorem sequencerAction_of_inOperation {s : State} (k : Nat) (h : s.seq.inOperation = true) :
    sequencerAction k s = opAction s := by
  unfold sequencerAction State.fetchBytes
  cases hseq : s.seq with
  | loop | boot | direct => rw [hseq] at h; cases h
  | dispatch l =>
    cases l with
    | h2 => rw [hseq] at h; cases h
    | h1 | h3 | h4 => rfl
  | configure | writeConfig | transmit | rxStep | rxLast | rxComplete | rxService | csma => rfl

/-- A step of the sequencer at a position inside an operation runs what `opAction` names for that position. -/
theorem step_of_inOperation {s : State} {k : Nat} {p : Pos} {i : Instr} (hm : s.nextMove = .loop k) (hseq : s.seq = p)
    (hp : p.inOperation = true)
    (h : opAction { s.afterMove with seq := p } = .run i { s.afterMove with seq := p }) : step s = exec i s.afterMove := by
  subst hseq
  exact step_of_run hm ((sequencerAction_of_inOperation (s := s.afterMove) k hp).trans h)

/-! ## HOST_TX_DRAIN (rules R236, R237) -/

/-- A byte that is not the frame's last goes out, and the drain goes on. -/
theorem exec_hostTxDrain_of_more {s : State} (h : s.htxCursor + 1 < s.htxLen) :
    exec .hostTxDrain s =
      .next { s.log (.sendByte (s.readBuf .htx s.htxCursor)) with htxCursor := s.htxCursor + 1 } := by
  change Host.Outcome.next s.sendNext.endDrain = _
  have hlt : s.htxCursor < s.htxLen := by omega
  have hne : s.htxCursor + 1 ≠ s.htxLen := by omega
  simp [State.sendNext, State.endDrain, hlt, hne]

/-- The frame's last byte goes out, and the drain ends. -/
theorem exec_hostTxDrain_of_last {s : State} (h : s.htxCursor + 1 = s.htxLen) :
    exec .hostTxDrain s =
      .next { s.log (.sendByte (s.readBuf .htx s.htxCursor)) with htxCursor := 0, sendPending := false } := by
  change Host.Outcome.next s.sendNext.endDrain = _
  have hlt : s.htxCursor < s.htxLen := by omega
  simp [State.sendNext, State.endDrain, hlt, h]

/-- A run of an instruction begins with its first micro-step. -/
theorem runInstr_of_next {i : Instr} {n : Nat} {s t : State} (h : exec i s = .next t) :
    runInstr i (n + 1) s = runInstr i n t := by
  simp only [runInstr, h]

/-- The notification stands in the first two bytes of HTX, and the rest of HTX is as before (rules R36, R237). -/
theorem State.readBuf_htx_bootNote (s : State) (i : Nat) :
    (s.writeRun .htx 0 [Config.tagBoot, Config.sentinel]).readBuf .htx i =
      if i = 0 then 0x03 else if i = 1 then 0xFF else s.readBuf .htx i := by
  match i with
  | 0 => exact s.readBuf_writeRun_in (i := 0) (k := 0) (by decide) (by simp)
  | 1 => exact s.readBuf_writeRun_in (i := 0) (k := 1) (by decide) (by simp)
  | i + 2 =>
    rw [if_neg (by omega), if_neg (by omega)]
    exact s.readBuf_writeRun_out (by decide) (Or.inr (by simp))

end Sys2Proof.Machine

namespace Sys2Proof.Proofs

open Sys2Proof Sys2Proof.Machine

/-- Settles O54: each change a step can make takes a range to itself. -/
theorem stepKeepsRanges : Obligations.StepKeepsRanges := by
  intro s t hs hstep
  rw [inRange_iff_watched] at hs ⊢
  exact (step_changes hstep).inRange hs

/-- Settles O56: a step stores in TXBUF after the tag only. -/
theorem stepKeepsTag : Obligations.StepKeepsTag := by
  intro s t hs hstep
  have htag : Memory.read t.txbuf 0 = Memory.read s.txbuf 0 := (step_changes hstep).read_tag
  calc t.readBuf .txbuf 0 = s.readBuf .txbuf 0 := congrArg (·.getD (Config.unwrittenByte .txbuf 0)) htag
    _ = hdrFifoWb := hs

/-- Settles O57: a step changes the marks by setting some. -/
theorem marksAreSticky : Obligations.MarksAreSticky :=
  fun _ _ hstep _ hm => (step_changes hstep).marks_has hm

/-- Settles O10: the chip tells each instruction's bytes apart, and the image follows the instruction. -/
theorem chipSideFollowsTransactions : Obligations.ChipSideFollowsTransactions := by
  intro s bytes rest hans
  refine ⟨?wreg, ?wburstPatable, ?wburstFifo, exec_chip_of_reply hans rfl rfl, ?rburstFifo, ?rburstCfg, ?sres,
    exec_chip_of_reply hans rfl rfl, exec_chip_of_reply hans rfl rfl, exec_chip_of_reply hans rfl rfl,
    exec_chip_of_reply hans rfl rfl, exec_chip_of_reply hans rfl rfl, exec_chip_of_reply hans rfl rfl,
    exec_chip_of_reply hans rfl rfl, exec_chip_of_reply hans rfl rfl, exec_chip_of_reply hans rfl rfl⟩
  case wreg =>
    intro a v
    obtain ⟨t, hexec, hchip⟩ := exec_chip_of_reply hans rfl (decodeBus_encode_wreg a v)
    refine ⟨t, hexec, ?_, fun b => ?_⟩
    · rw [hchip]; rfl
    · rw [hchip]; exact s.chip.readReg_write a.val b v
  case wburstPatable =>
    intro levels hlen
    obtain ⟨t, hexec, hchip⟩ := exec_chip_of_reply hans rfl (decodeBus_encode_wburstPatable hlen)
    have hchip : t.chip = s.chip.takeLevels s.env.draws levels := hchip
    refine ⟨t, hexec, ?_, fun hle k => ?_, fun hgt k => ?_⟩
    · rw [hchip]; exact s.chip.takeLevels_frame s.env.draws levels
    · rw [hchip, Chip.takeLevels_readPa, if_neg (by omega)]
    · rw [hchip, Chip.takeLevels_readPa, if_pos hgt]
  case wburstFifo => exact fun data hlen => exec_chip_of_reply hans rfl (decodeBus_encode_wburstFifo hlen)
  case rburstFifo => exact fun n hn => exec_chip_of_reply hans rfl (decodeBus_encode_rburst (by decide) hn)
  case rburstCfg =>
    intro a n hn
    obtain ⟨t, hexec, hchip⟩ := exec_chip_of_reply hans rfl (decodeBus_encode_rburst (classify_burstRead_cfg a) hn)
    exact ⟨t, hexec, hchip.trans (Chip.takeInstr_rburst_cfg _ _ a n)⟩
  case sres =>
    obtain ⟨t, hexec, hchip⟩ := exec_chip_of_reply (i := .sres) hans rfl rfl
    have hchip : t.chip = Chip.chipDefined s.env.draws := hchip
    exact ⟨t, hexec, by rw [hchip]; exact ⟨rfl, fun _ => rfl, fun _ => rfl, rfl, rfl⟩⟩

/-- Settles O24: the choice decides at the edge while masked, and again at re-arming. -/
theorem pendingEdgeBothOutcomes : Obligations.PendingEdgeBothOutcomes := by
  refine ⟨?edge, ?masked, ?csma, ?configure, rfl⟩
  case edge => exact fun s hm hlow => step_of_run hm (syncAction_of_edge hlow)
  case masked =>
    intro s c rest hmask hc
    change Host.Outcome.next s.takeSyncEdge = _
    rw [State.takeSyncEdge_of_masked hmask, State.nextChoice_of_script hc]
  case csma =>
    intro s c rest hp hc hseq
    rw [exec_csmaService_of_seq hseq, csmaStep, State.rearm_of_pending hp, State.nextChoice_of_script hc]
    rfl
  case configure =>
    intro csc s c rest hp hc hseq
    rw [exec_configure_of_seq csc hseq, configureStep, State.rearm_of_pending hp, State.nextChoice_of_script hc]
    rfl

/-- The reset state is one of those that rule R43 admits. -/
theorem resetState_reset : ResetState State.reset := by
  constructor <;> rfl

/-- Settles O44: the first run sends the notification's first byte and goes on, the second sends its last and ends. -/
theorem bootNotification : Obligations.BootNotification := by
  refine ⟨fun s hs => ?_, resetState_reset⟩
  have hcursor : s.htxCursor = 0 := hs.htxCursor
  have hlen : s.htxLen = 2 := hs.htxLen
  have hfirst := exec_hostTxDrain_of_more (s := s) (by omega)
  have hlast : s.htxCursor + 1 + 1 = s.htxLen := by omega
  refine ⟨_, (runInstr_of_next hfirst).trans (runInstr_of_next (exec_hostTxDrain_of_last hlast)), ?_, rfl, rfl⟩
  calc s.trace ++ [.sendByte (s.readBuf .htx s.htxCursor)] ++ [.sendByte (s.readBuf .htx (s.htxCursor + 1))]
      = s.trace ++ [.sendByte (s.readBuf .htx 0)] ++ [.sendByte (s.readBuf .htx 1)] := by rw [hcursor]
    _ = s.trace ++ [.sendByte 0x03, .sendByte 0xFF] := by rw [hs.note0, hs.note1, List.append_assoc]; rfl

/-- Settles O45: the two bytes fit HTX, and a run of writes puts them at its start and nowhere else. -/
theorem bootNoteIsQueued : Obligations.BootNoteIsQueued := by
  intro s
  have hfits : 0 + [Config.tagBoot, Config.sentinel].length ≤ Config.cap .htx := by decide
  refine ⟨Memory.writeRun s.htx 0 [Config.tagBoot, Config.sentinel], ?_, fun i => ?_⟩
  · exact congrArg Host.Outcome.next (s.queueToHost_eq hfits)
  · have hread := s.readBuf_htx_bootNote i
    rwa [State.writeRun_in s hfits] at hread

/-- Settles O49: at no label but H2 are bytes fetched, so the sequencer takes the operation's next micro-step. -/
theorem stepContinuesOperation : Obligations.StepContinuesOperation := by
  intro s k hm
  refine ⟨fun _ h => step_of_inOperation hm h rfl rfl, fun _ h => step_of_inOperation hm h rfl rfl,
    fun _ h => step_of_inOperation hm h rfl rfl, fun _ h => step_of_inOperation hm h rfl rfl,
    fun _ h => step_of_inOperation hm h rfl rfl, fun _ h => step_of_inOperation hm h rfl rfl,
    fun _ h => step_of_inOperation hm h rfl rfl, fun _ h => step_of_inOperation hm h rfl rfl, ?dispatch⟩
  case dispatch =>
    intro l h hl
    refine step_of_inOperation hm h ?_ rfl
    cases l with
    | h2 => exact absurd rfl hl
    | h1 | h3 | h4 => rfl

/-- Settles O52: the reset state lists two bytes of TXBUF and two of HTX, and no operation is in progress. -/
theorem invariantsHoldAtReset : Obligations.InvariantsHoldAtReset := by
  refine ⟨?memory, ?ranges, trivial, rfl⟩
  case memory =>
    constructor
    · intro b; cases b <;> rfl
    · intro b; cases b <;> rfl
    · exact ⟨rfl, rfl⟩
    · exact ⟨rfl, rfl⟩
  case ranges => constructor <;> decide

end Sys2Proof.Proofs
end

section
/-! PROOFS. What a step can do to the byte spaces, the trace and the flags of the sync-edge handler, said once as a
relation; the four statements on every step that follow from it and from the sequencer's discipline; and the time-out. -/

namespace Sys2Proof.Machine

/-! ## The observed part of the state (rules R25, R26, R37, R38, R40, R60, R70) -/

/-- The six byte spaces: the TLC's four buffers, and the chip's registers and power table (rules R37, R38, R60). -/
inductive Space where
  | buf (b : BufId)
  | chipRegs
  | chipLevels
  deriving DecidableEq

/-- How many addresses a space has. -/
def Space.cap : Space → Nat
  | .buf b => Config.cap b
  | .chipRegs => Config.nCfgRegs
  | .chipLevels => 8

/-- The bytes written in a space. -/
def State.space (s : State) : Space → Memory
  | .buf b => s.bufMem b
  | .chipRegs => s.chip.cfgRegs
  | .chipLevels => s.chip.paTable

/-- The elements that the statements on memory, trace and masking speak of. -/
structure Observed where
  space : Space → Memory
  trace : List Event
  newPacket : Bool
  rxActive : Bool
  ledRx : Bool

/-- The observed part of a state. An operation that changes nothing of it leaves it equal by definition. -/
def State.observed (s : State) : Observed where
  space := s.space
  trace := s.trace
  newPacket := s.newPacket
  rxActive := s.rxActive
  ledRx := s.ledRx

/-- The content of one space replaced. -/
def Observed.put (w : Observed) (sp : Space) (m : Memory) : Observed :=
  { w with space := fun x => if x = sp then m else w.space x }

/-- What the TLC can do to the observed part. Each constructor is one write of a rule; a micro-step is a few of them. The
handler's flags are set only where `handler` holds, and `loud` says that an event may be appended: of two changes in a row
at most one is loud. -/
inductive Observed.Change (handler : Prop) : Bool → Observed → Observed → Prop where
  | none {loud : Bool} (w : Observed) : Change handler loud w w
  | quietFirst {loud : Bool} {u v w : Observed} (first : Change handler false u v) (second : Change handler loud v w) :
      Change handler loud u w
  | quietLast {loud : Bool} {u v w : Observed} (first : Change handler loud u v) (second : Change handler false v w) :
      Change handler loud u w
  /-- An event is appended to the trace (rule R120). -/
  | event (w : Observed) (e : Event) : Change handler true w { w with trace := w.trace ++ [e] }
  /-- A byte is stored inside a space (rules R60, R64). -/
  | store {loud : Bool} (w : Observed) {sp : Space} {a : Nat} (v : Byte) (ha : a < sp.cap) :
      Change handler loud w (w.put sp ((w.space sp).write a v))
  /-- What a space holds becomes chip-defined (rules R37, R38; log entry 14). -/
  | forget {loud : Bool} (w : Observed) (sp : Space) : Change handler loud w (w.put sp [])
  /-- Flags of the handler are cleared or kept (rules R192, R196). -/
  | clearFlags {loud : Bool} (w : Observed) {newPacket rxActive ledRx : Bool} (hnew : newPacket = true → w.newPacket = true)
      (hactive : rxActive = true → w.rxActive = true) (hled : ledRx = true → w.ledRx = true) :
      Change handler loud w { w with newPacket := newPacket, rxActive := rxActive, ledRx := ledRx }
  /-- The handler's body runs (rule R191). -/
  | handle {loud : Bool} (w : Observed) (h : handler) :
      Change handler loud w { w with newPacket := true, rxActive := true, ledRx := true }

theorem State.observed_setBuf (s : State) (b : BufId) (m : Memory) :
    (s.setBuf b m).observed = s.observed.put (.buf b) m := by
  have hspace : (s.setBuf b m).space = (s.observed.put (.buf b) m).space := by
    funext sp
    cases b <;> rcases sp with ⟨_ | _ | _ | _⟩ | _ | _ <;> rfl
  cases b <;> exact congrArg (fun f => { s.observed with space := f }) hspace

/-- The chip's registers replaced. -/
theorem State.observed_chipRegs (s : State) (m : Memory) :
    ({ s with chip := { s.chip with cfgRegs := m } } : State).observed = s.observed.put .chipRegs m :=
  congrArg (fun f => { s.observed with space := f }) <| by funext sp; cases sp <;> rfl

/-- The chip's power table replaced. -/
theorem State.observed_chipLevels (s : State) (m : Memory) :
    ({ s with chip := { s.chip with paTable := m } } : State).observed = s.observed.put .chipLevels m :=
  congrArg (fun f => { s.observed with space := f }) <| by funext sp; cases sp <;> rfl

section
variable {handler : Prop} {loud : Bool}

/-! ## What the shared operations do to it -/

/-- A write inside its buffer is a store, one outside it a mark (rule R64). -/
theorem State.writeBuf_observed (s : State) (b : BufId) (i : Nat) (v : Byte) :
    s.observed.Change handler loud (s.writeBuf b i v).observed := by
  by_cases hi : i < Config.cap b
  · rw [State.writeBuf_in s v hi, State.observed_setBuf]
    exact .store _ (sp := .buf b) v hi
  · rw [State.writeBuf_out s v hi]
    exact .none _

theorem State.writeRun_observed (s : State) (b : BufId) (i : Nat) (vs : List Byte) :
    s.observed.Change handler loud (s.writeRun b i vs).observed := by
  induction vs generalizing s i with
  | nil => exact .none _
  | cons v vs ih => exact .quietFirst (s.writeBuf_observed b i v) (ih _ _)

/-- A burst inside the power table is a store for each level (rule R130). -/
theorem State.writeLevels_observed (s : State) {i : Nat} {levels : List Byte} (h : i + levels.length ≤ 8) :
    s.observed.Change handler loud
      ({ s with chip := { s.chip with paTable := Memory.writeRun s.chip.paTable i levels } } : State).observed := by
  induction levels generalizing s i with
  | nil => exact .none _
  | cons v levels ih =>
    rw [List.length_cons] at h
    have hstore := Observed.Change.store (handler := handler) (loud := false) s.observed (sp := .chipLevels) (a := i) v
      (show i < 8 by omega)
    refine .quietFirst (s.observed_chipLevels (Memory.write s.chip.paTable i v) ▸ hstore) ?_
    exact ih { s with chip := { s.chip with paTable := Memory.write s.chip.paTable i v } } (by omega)

/-- After its reset what the chip's two spaces hold is chip-defined (rules R37, R38, R122). -/
theorem State.chipDefined_observed (s : State) (k : Nat) :
    s.observed.Change handler loud ({ s with chip := Chip.chipDefined k } : State).observed := by
  have hlevels := Observed.Change.forget (handler := handler) (loud := false) s.observed .chipLevels
  rw [← State.observed_chipLevels] at hlevels
  have hregs := Observed.Change.forget (handler := handler) (loud := loud)
    ({ s with chip := { s.chip with paTable := [] } } : State).observed .chipRegs
  rw [← State.observed_chipRegs] at hregs
  exact .quietFirst hlevels hregs

/-- A taken instruction stores in the chip's spaces inside them only (rules R37, R38, R129, R130). -/
theorem State.takeInstr_observed (s : State) (k : Nat) (i : Instr) :
    s.observed.Change handler loud ({ s with chip := s.chip.takeInstr k i } : State).observed := by
  cases i with
  | sres => exact s.chipDefined_observed k
  | wreg a v =>
    have hstore := Observed.Change.store (handler := handler) (loud := loud) s.observed (sp := .chipRegs) v a.isLt
    exact s.observed_chipRegs (Memory.write s.chip.cfgRegs a.val v) ▸ hstore
  | wburstPatable levels =>
    change Observed.Change handler loud s.observed ({ s with chip := s.chip.takeLevels k levels } : State).observed
    unfold Chip.takeLevels
    split
    next hlen => exact s.writeLevels_observed (i := 0) (by omega)
    next => exact s.observed_chipLevels [] ▸ .forget s.observed .chipLevels
  | rburst a n =>
    rw [Chip.takeInstr]
    split <;> exact .none _
  | scal | srx | stx | sidle | sfrx | snop | wburstFifo | rfifo1 => exact .none _
  | rstatusMarcstate | rstatusTxbytes | rstatusRxbytes => exact .none _
  | hostConfig | hostData | hostBootnote | hostOther | configure | writeConfig | transmit | syncEdge => exact .none _
  | rxStep | rxLast | rxComplete | rxService | csmaService | hostRxByte | hostDispatch | hostTxDrain => exact .none _

theorem State.take_observed (s : State) (k : Nat) (tx : List Byte) :
    s.observed.Change handler loud ({ s with chip := s.chip.take k tx } : State).observed := by
  unfold Chip.take
  split
  · exact s.takeInstr_observed k _
  · exact s.chipDefined_observed k

/-- A transaction is one event, and the chip takes its bytes or not (rules R68, R120). -/
theorem State.xact_observed (s : State) (tx : List Byte) : s.observed.Change handler true (s.xact tx).observed := by
  have hevent := Observed.Change.event (handler := handler) s.observed (.xact tx (s.received tx.length))
  cases htaken : answerTaken s.nextAnswer with
  | true =>
    have hchip : (s.xact tx).chip = s.chip.take s.env.draws tx := by rw [State.xact_chip, if_pos htaken]
    refine .quietLast hevent ?_
    have htake := State.take_observed (handler := handler) (loud := false) (s.log (.xact tx (s.received tx.length)))
      s.env.draws tx
    change Observed.Change handler false _
      ({ s.log (.xact tx (s.received tx.length)) with chip := (s.xact tx).chip } : State).observed
    rwa [hchip]
  | false =>
    have hchip : (s.xact tx).chip = s.chip := by rw [State.xact_chip, htaken]; rfl
    change Observed.Change handler true _
      ({ s.log (.xact tx (s.received tx.length)) with chip := (s.xact tx).chip } : State).observed
    rwa [hchip]

/-- An entry of writeConfig is a transaction, or a mark (rule R134). -/
theorem State.writeEntry_observed (s : State) (i : Fin 39) :
    s.observed.Change handler true (s.writeEntry i).observed := by
  unfold State.writeEntry
  split
  · exact s.xact_observed _
  · exact .none _

/-- A masked edge reaches no flag of the handler (rules R29, R191). -/
theorem State.takeSyncEdge_observed (s : State) (h : s.irqEn = true → handler) :
    s.observed.Change handler loud s.takeSyncEdge.observed := by
  obtain ⟨hen, heq⟩ | ⟨-, heq⟩ | ⟨-, heq⟩ := s.takeSyncEdge_cases <;> rw [heq]
  · exact .handle _ (h hen)
  · exact .none _
  · exact .none _

/-- Re-arming may deliver a remembered edge (rule R29). -/
theorem State.rearm_observed (s : State) (h : handler) : s.observed.Change handler loud s.rearm.observed := by
  obtain ⟨-, heq⟩ | ⟨-, -, heq⟩ | ⟨-, -, heq⟩ := s.rearm_cases <;> rw [heq]
  · exact .none _
  · exact .handle _ h
  · exact .none _

theorem State.byteHandler_observed (s : State) (b : Byte) :
    s.observed.Change handler loud (s.byteHandler b).observed := by
  unfold State.byteHandler
  split
  · exact s.writeBuf_observed .hrx _ b
  · exact .none _

theorem State.storeRx_observed (s : State) (b : Byte) : s.observed.Change handler loud (s.storeRx b).observed := by
  unfold State.storeRx
  split
  · exact s.writeBuf_observed .rxbuf _ b
  · exact .none _

/-- S4 clears `new_packet`, or stores a byte (rule R192). -/
theorem State.takeFifoByte_observed (s : State) : s.observed.Change handler loud s.takeFifoByte.observed := by
  unfold State.takeFifoByte
  split
  · exact .clearFlags _ nofun id id
  · exact s.storeRx_observed _

theorem State.markLenZero_observed (s : State) : s.markLenZero.observed = s.observed := by
  unfold State.markLenZero
  split <;> rfl

theorem State.markHostTx_observed (s : State) : s.markHostTx.observed = s.observed := by
  unfold State.markHostTx
  split <;> rfl

theorem State.markTx_observed (s : State) : s.markTx.observed = s.observed := by
  unfold State.markTx
  split <;> rfl

theorem State.queueToHost_observed (s : State) (bytes : List Byte) :
    s.observed.Change handler loud (s.queueToHost bytes).observed :=
  s.writeRun_observed .htx 0 bytes

/-- A hand-off is one event, and the frame is stored for the host (rule R235). -/
theorem State.handoff_observed (s : State) (bytes : List Byte) :
    s.observed.Change handler true (s.handoff bytes).observed :=
  .quietLast (s.markHostTx_observed ▸ .event s.markHostTx.observed (.handoff bytes)) (State.queueToHost_observed _ bytes)

theorem State.loadTx_observed (s : State) (frame : List Byte) :
    s.observed.Change handler loud (s.loadTx frame).observed :=
  .quietFirst (s.markTx_observed ▸ s.markTx.writeBuf_observed .txbuf 1 _) (State.writeRun_observed _ .txbuf 2 frame)

theorem State.refill_observed (s : State) : s.observed.Change handler true s.refill.observed := by
  unfold State.refill
  split
  · exact s.xact_observed _
  · exact .none _

/-- A byte to the host is one event (rules R236, R260). -/
theorem State.sendNext_observed (s : State) : s.observed.Change handler true s.sendNext.observed := by
  unfold State.sendNext
  split
  · exact .event _ _
  · exact .none _

theorem State.endDrain_observed (s : State) : s.endDrain.observed = s.observed := by
  unfold State.endDrain
  split <;> rfl

/-! ## What a micro-step of each operation does to it -/

/-- C13 alone may run the handler (rules R72, R153). -/
theorem configureStep_observed (csc : Byte) (l : CfgLabel) (s : State) (h : l = .c13 → handler) :
    s.observed.Change handler true (configureStep csc l s).observed := by
  cases l with
  | c0 | c1 | c14 => exact .none _
  | c2 | c4 | c9 => exact .event _ _
  | c3 | c6 | c7 | c8 | c10 | c11 | c12 => exact s.xact_observed _
  | c5 i => exact s.writeEntry_observed i
  | c13 => exact s.rearm_observed (h rfl)

theorem writeConfigStep_observed (l : WcLabel) (s : State) :
    s.observed.Change handler true (writeConfigStep l s).observed := by
  cases l with
  | entry i => exact s.writeEntry_observed i
  | done => exact .none _

theorem transmitStep_observed (l : TxLabel) (s : State) :
    s.observed.Change handler true (transmitStep l s).observed := by
  cases l with
  | t1 | t2 | t3 | t4 | t2p | t3p | t4pa | t5 | t6 | t7 => exact s.xact_observed _
  | t4pb => exact s.refill_observed
  | t4p | t8 => exact .none _

/-- A6 alone may run the handler (rules R72, R224). -/
theorem csmaStep_observed (l : CsmaLabel) (s : State) (h : l = .a6 → handler) :
    s.observed.Change handler true (csmaStep l s).observed := by
  cases l with
  | a1 | a2 | a3 | a4 | a7 | a8 | a9 | a10 | a11 | a12 => exact .none _
  | a5 => exact transmitStep_observed .t1 (s.callFrom (.csma .a6))
  | a6 => exact s.rearm_observed (h rfl)

theorem rxStepStep_observed (l : RxStepLabel) (s : State) :
    s.observed.Change handler true (rxStepStep l s).observed := by
  cases l with
  | s1 | s3 => exact s.xact_observed _
  | s2 | s5 => exact .none _
  | s4 => exact s.takeFifoByte_observed

theorem rxLastStep_observed (l : RxLastLabel) (s : State) :
    s.observed.Change handler true (rxLastStep l s).observed := by
  cases l with
  | z1 | z3 => exact s.xact_observed _
  | z2 => exact s.storeRx_observed _
  | z4 => exact .none _

/-- K2 and K5 clear flags (rule R196). -/
theorem rxCompleteStep_observed (l : RxCompleteLabel) (s : State) :
    s.observed.Change handler true (rxCompleteStep l s).observed := by
  cases l with
  | k1 => exact s.handoff_observed _
  | k2 => exact .clearFlags _ id id nofun
  | k3 | k4 => exact s.xact_observed _
  | k5 => exact .clearFlags _ id nofun id
  | k6 => exact .none _

theorem rxServiceStep_observed (l : RxServiceLabel) (s : State) :
    s.observed.Change handler true (rxServiceStep l s).observed := by
  cases l with
  | v1 =>
    unfold rxServiceStep
    dsimp only
    split
    · exact rxLastStep_observed .z1 (s.callFrom (.rxService .v2))
    · exact rxStepStep_observed .s1 (s.callFrom .loop)
  | v2 => exact s.markLenZero_observed ▸ rxCompleteStep_observed .k1 s.markLenZero

theorem dispatchFrame_observed {s t : State} (h : dispatchFrame s = .next t) :
    s.observed.Change handler true t.observed := by
  unfold dispatchFrame at h
  split at h <;> cases h
  · exact .none _
  · exact s.loadTx_observed _
  · exact .none _

theorem execHostDispatch_observed {s t : State} (h : execHostDispatch s = .next t) :
    s.observed.Change handler true t.observed := by
  unfold execHostDispatch at h
  split at h
  · exact dispatchFrame_observed h
  · cases h; exact .none _
  · cases h; exact .none _
  · cases h; exact .none _

end

/-- Where an instruction may run the sync-edge handler: at an edge while the interrupt is enabled, and where an operation
re-arms it (rules R29, R72, R191). -/
def State.mayHandle (s : State) : Instr → Prop
  | .syncEdge => s.irqEn = true
  | .configure _ => s.seq = .configure .c13
  | .csmaService => s.seq = .csma .a6
  | _ => False

/-- Every instruction changes the observed part as the rules say, in every state. -/
theorem exec_observed {i : Instr} {s t : State} (h : exec i s = .next t) :
    s.observed.Change (s.mayHandle i) true t.observed := by
  cases i with
  | sres | scal | srx | stx | sidle | sfrx | snop => cases h; exact s.xact_observed _
  | wreg | wburstPatable | wburstFifo | rfifo1 | rburst => cases h; exact s.xact_observed _
  | rstatusMarcstate | rstatusTxbytes | rstatusRxbytes => cases h; exact s.xact_observed _
  | hostConfig | hostOther => cases h; exact .none _
  | hostData rest => cases h; exact s.loadTx_observed _
  | hostBootnote => cases h; exact s.queueToHost_observed _
  | configure csc =>
    change execConfigure csc s = .next t at h
    unfold execConfigure at h
    split at h <;> cases h
    next l hseq => exact configureStep_observed csc l s fun hl => hseq.trans (congrArg Pos.configure hl)
    next => exact configureStep_observed csc .c0 (s.callFrom s.seq) nofun
  | writeConfig table =>
    change execWriteConfig table s = .next t at h
    unfold execWriteConfig at h
    split at h <;> cases h
    · exact writeConfigStep_observed _ s
    · exact writeConfigStep_observed (.entry 0) ({ s with cfgTable := table }.callFrom s.seq)
  | transmit =>
    change execTransmit s = .next t at h
    unfold execTransmit at h
    split at h <;> cases h
    · exact transmitStep_observed _ s
    · exact transmitStep_observed .t1 (s.callFrom s.seq)
  | syncEdge => cases h; exact s.takeSyncEdge_observed id
  | rxStep =>
    change execRxStep s = .next t at h
    unfold execRxStep at h
    split at h <;> cases h
    · exact rxStepStep_observed _ s
    · exact rxStepStep_observed .s1 (s.callFrom s.seq)
  | rxLast =>
    change execRxLast s = .next t at h
    unfold execRxLast at h
    split at h <;> cases h
    · exact rxLastStep_observed _ s
    · exact rxLastStep_observed .z1 (s.callFrom s.seq)
  | rxComplete =>
    change execRxComplete s = .next t at h
    unfold execRxComplete at h
    split at h <;> cases h <;> exact rxCompleteStep_observed _ s
  | rxService =>
    change execRxService s = .next t at h
    unfold execRxService at h
    split at h <;> cases h <;> exact rxServiceStep_observed _ s
  | csmaService =>
    change execCsmaService s = .next t at h
    unfold execCsmaService at h
    split at h <;> cases h
    next l hseq => exact csmaStep_observed l s fun hl => hseq.trans (congrArg Pos.csma hl)
    next => exact csmaStep_observed .a1 s nofun
  | hostRxByte b => cases h; exact s.byteHandler_observed b
  | hostDispatch => exact execHostDispatch_observed h
  | hostTxDrain => cases h; exact s.sendNext.endDrain_observed ▸ s.sendNext_observed

/-! ## What a step does to it -/

/-- The positions and the mask with which a step may run the sync-edge handler. -/
def State.handlerInReach (s : State) : Prop :=
  s.irqEn = true ∨ s.seq = .configure .c13 ∨ s.seq = .csma .a6

theorem State.handlerInReach_of_mayHandle {s : State} {i : Instr} (h : s.mayHandle i) : s.handlerInReach := by
  cases i with
  | syncEdge => exact .inl h
  | configure => exact .inr (.inl h)
  | csmaService => exact .inr (.inr h)
  | _ => exact h.elim

/-- An instruction that has an encoding runs no handler. -/
theorem State.not_mayHandle_of_link {s : State} {i : Instr} {l : Link} (h : i.link = some l) : ¬ s.mayHandle i := by
  cases i with
  | syncEdge | configure | csmaService => cases h
  | _ => exact id

/-- Bytes decode to instructions of the place where they are found (rules R90, R100). -/
theorem decode_link {l : Link} {bytes : List Byte} {i : Instr} (h : decode l bytes = .ok i) : i.link = some l := by
  cases l with
  | chipBus => exact decodeBus_link h
  | hostIn =>
    change decodeHostIn bytes = .ok i at h
    unfold decodeHostIn at h
    split at h
    · cases h
    · split at h
      · split at h <;> cases h
        rfl
      · split at h <;> cases h <;> rfl
  | hostOut =>
    change decodeHostOut bytes = .ok i at h
    unfold decodeHostOut at h
    split at h
    · cases h
    · split at h <;> cases h
      rfl

/-- The action starts from, or leaves, the observed part of `s`, and runs the handler only where `s` has it in reach. -/
def Action.observedOf (s : State) : Action → Prop
  | .outside t => t.observed = s.observed
  | .run i t => t.observed = s.observed ∧ (t.mayHandle i → s.handlerInReach)
  | .refuse _ => True

theorem fetchAction_observed (l : Link) (bytes : List Byte) (s : State) : (fetchAction l bytes s).observedOf s := by
  unfold fetchAction
  split
  next i hdec =>
    refine ⟨?_, fun hmay => absurd hmay (State.not_mayHandle_of_link (decode_link hdec))⟩
    unfold State.pastFetch
    split <;> rfl
  next => trivial

theorem opAction_observed (s : State) : (opAction s).observedOf s := by
  unfold opAction
  cases s.seq with
  | loop | boot | direct => rfl
  | configure | writeConfig | transmit | rxStep => exact ⟨rfl, State.handlerInReach_of_mayHandle⟩
  | rxLast | rxComplete | rxService | csma | dispatch => exact ⟨rfl, State.handlerInReach_of_mayHandle⟩

theorem sequencerAction_observed (k : Nat) (s : State) : (sequencerAction k s).observedOf s := by
  unfold sequencerAction
  split
  · unfold loopAction
    split
    · exact ⟨rfl, State.handlerInReach_of_mayHandle⟩
    · rfl
  · split
    · exact fetchAction_observed _ _ s
    · exact opAction_observed s

/-- The move itself changes nothing that is observed: the chip's acts are on its FIFOs and its state (rules R75, R80). -/
theorem moveAction_observed (m : Move) (s : State) : (moveAction m s).observedOf s := by
  cases m with
  | loop k => exact sequencerAction_observed k s
  | syncLevel level =>
    unfold moveAction syncAction
    dsimp only
    split
    · exact ⟨rfl, State.handlerInReach_of_mayHandle⟩
    · rfl
  | hostByte b => exact ⟨rfl, State.handlerInReach_of_mayHandle⟩
  | ccaLevel | tick => rfl
  | chip act => cases act <;> rfl

theorem Observed.Change.imp {p q : Prop} {loud : Bool} {u w : Observed} (h : u.Change p loud w) (hpq : p → q) :
    u.Change q loud w := by
  induction h with
  | none w => exact .none w
  | quietFirst _ _ ihFirst ihSecond => exact .quietFirst ihFirst ihSecond
  | quietLast _ _ ihFirst ihSecond => exact .quietLast ihFirst ihSecond
  | event w e => exact .event w e
  | store w v ha => exact .store w v ha
  | forget w sp => exact .forget w sp
  | clearFlags w hnew hactive hled => exact .clearFlags w hnew hactive hled
  | handle w h => exact .handle w (hpq h)

/-- A step changes the observed part as the rules say. -/
theorem step_observed {s t : State} (h : step s = .next t) : s.observed.Change s.handlerInReach true t.observed := by
  have hmove : s.nextAction.observedOf s.afterMove := moveAction_observed s.nextMove s.afterMove
  obtain hout | ⟨i, u, hrun, hexec⟩ := step_cases h
  · rw [hout] at hmove
    have heq : t.observed = s.observed := hmove
    exact heq ▸ .none _
  · rw [hrun] at hmove
    obtain ⟨heq, hmay⟩ : u.observed = s.observed ∧ (u.mayHandle i → s.handlerInReach) := hmove
    exact heq ▸ (exec_observed hexec).imp hmay

/-! ## What every such change keeps -/

/-- Every space is in its canonical form and within its capacity. -/
def Observed.MemoryOk (w : Observed) : Prop :=
  ∀ sp, (w.space sp).wf = true ∧ (w.space sp).below sp.cap = true

theorem memoryOk_iff_observed (s : State) : MemoryOk s ↔ s.observed.MemoryOk := by
  constructor
  · rintro ⟨hwf, hbelow, hregs, hlevels⟩ sp
    cases sp with
    | buf b => exact ⟨hwf b, hbelow b⟩
    | chipRegs => exact hregs
    | chipLevels => exact hlevels
  · intro h
    exact ⟨fun b => (h (.buf b)).1, fun b => (h (.buf b)).2, h .chipRegs, h .chipLevels⟩

theorem Observed.MemoryOk.put {w : Observed} (hw : w.MemoryOk) {sp : Space} {m : Memory} (hwf : m.wf = true)
    (hbelow : m.below sp.cap = true) : (w.put sp m).MemoryOk := by
  intro x
  unfold Observed.put
  dsimp only
  split
  next heq => exact heq ▸ ⟨hwf, hbelow⟩
  next => exact hw x

theorem Observed.Change.memoryOk {handler : Prop} {loud : Bool} {u w : Observed} (h : u.Change handler loud w)
    (hu : u.MemoryOk) : w.MemoryOk := by
  induction h with
  | quietFirst _ _ ihFirst ihSecond | quietLast _ _ ihFirst ihSecond => exact ihSecond (ihFirst hu)
  | store w v ha =>
    obtain ⟨hwf, hbelow⟩ := hu _
    exact hu.put (Memory.wf_write hwf _ v) (Memory.below_write hbelow ha v)
  | forget => exact hu.put rfl rfl
  | none | event | clearFlags | handle => exact hu

/-- At most one event is appended, and none by a change that is not loud. -/
theorem Observed.Change.trace {handler : Prop} {loud : Bool} {u w : Observed} (h : u.Change handler loud w) :
    w.trace = u.trace ∨ loud = true ∧ ∃ e, w.trace = u.trace ++ [e] := by
  induction h with
  | quietFirst _ _ ihFirst ihSecond =>
    obtain hsame | ⟨hloud, -⟩ := ihFirst
    · exact hsame ▸ ihSecond
    · cases hloud
  | quietLast _ _ ihFirst ihSecond =>
    obtain hsame | ⟨hloud, -⟩ := ihSecond
    · exact hsame ▸ ihFirst
    · cases hloud
  | event w e => exact .inr ⟨rfl, e, rfl⟩
  | none | store | forget | clearFlags | handle => exact .inl rfl

/-- Without the handler no flag of it is set. -/
theorem Observed.Change.flags {handler : Prop} {loud : Bool} {u w : Observed} (h : u.Change handler loud w)
    (hno : ¬ handler) :
    (w.newPacket = true → u.newPacket = true) ∧ (w.rxActive = true → u.rxActive = true) ∧
      (w.ledRx = true → u.ledRx = true) := by
  induction h with
  | quietFirst _ _ ihFirst ihSecond | quietLast _ _ ihFirst ihSecond =>
    obtain ⟨hnew, hactive, hled⟩ := ihFirst
    obtain ⟨hnew', hactive', hled'⟩ := ihSecond
    exact ⟨hnew ∘ hnew', hactive ∘ hactive', hled ∘ hled'⟩
  | clearFlags _ hnew hactive hled => exact ⟨hnew, hactive, hled⟩
  | handle _ h => exact absurd h hno
  | none | event | store | forget => exact ⟨id, id, id⟩

/-! ## What an interrupt or an act of the outside leaves alone (rules R253, R255, R256) -/

/-- `s` with the elements that the outside and the two interrupt handlers write taken from `t`. -/
def State.withOutsideOf (s t : State) : State :=
  { s with syncIn := t.syncIn, ccaIn := t.ccaIn, tickCount := t.tickCount, backoffElapsed := t.backoffElapsed, hrx := t.hrx,
           hrxCursor := t.hrxCursor, dispatchFlag := t.dispatchFlag, newPacket := t.newPacket, rxActive := t.rxActive,
           ledRx := t.ledRx, edgePending := t.edgePending, marks := t.marks, chip := t.chip, env := t.env }

/-- `t` is `s` but for what the outside and the two interrupt handlers write. -/
def OnlyOutsideDiffers (s t : State) : Prop := t = s.withOutsideOf t

theorem OnlyOutsideDiffers.trans {s t u : State} (h : OnlyOutsideDiffers s t) (h' : OnlyOutsideDiffers t u) :
    OnlyOutsideDiffers s u := by
  have ht : t = s.withOutsideOf t := h
  calc u = t.withOutsideOf u := h'
    _ = (s.withOutsideOf t).withOutsideOf u := congrArg (State.withOutsideOf · u) ht
    _ = s.withOutsideOf u := rfl

theorem State.takeSyncEdge_onlyOutside (s : State) : OnlyOutsideDiffers s s.takeSyncEdge := by
  obtain ⟨-, heq⟩ | ⟨-, heq⟩ | ⟨-, heq⟩ := s.takeSyncEdge_cases <;> rw [heq] <;> rfl

theorem State.byteHandler_onlyOutside (s : State) (b : Byte) : OnlyOutsideDiffers s (s.byteHandler b) := by
  obtain ⟨-, heq⟩ | ⟨-, heq⟩ := s.byteHandler_cases b <;> rw [heq] <;> rfl

/-- Entry and return of an interrupt add nothing to what the handler writes (rules R255, R257). -/
theorem State.takeInterrupt_onlyOutside {s : State} {f : State → State} (h : OnlyOutsideDiffers s (f s)) :
    OnlyOutsideDiffers s (s.takeInterrupt f) := by
  have hf : f s = s.withOutsideOf (f s) := h
  exact congrArg (fun t : State => { t with seq := s.seq, caller := s.caller }) hf

/-- A step that is not the sequencer's (rules R6, R253, R256). -/
theorem step_onlyOutside {s t : State} (hm : ∀ k, s.nextMove ≠ .loop k) (h : step s = .next t) :
    OnlyOutsideDiffers s t := by
  cases hmove : s.nextMove with
  | loop k => exact absurd hmove (hm k)
  | syncLevel level =>
    have hlevel : OnlyOutsideDiffers s { s.afterMove with syncIn := level } := rfl
    by_cases hedge : level = true ∧ s.syncIn = false
    · obtain ⟨rfl, hlow⟩ := hedge
      rw [step_of_run hmove (syncAction_of_edge hlow)] at h
      cases h
      exact hlevel.trans (State.takeSyncEdge_onlyOutside _)
    · have hno : level = false ∨ s.syncIn = true := by
        rwa [not_and_or, Bool.not_eq_true, Bool.not_eq_false] at hedge
      rw [step_of_outside hmove (syncAction_of_no_edge hno)] at h
      cases h
      exact hlevel
  | hostByte b =>
    have hmoved : OnlyOutsideDiffers s s.afterMove := rfl
    rw [step_of_run hmove rfl] at h
    cases h
    exact hmoved.trans (State.takeInterrupt_onlyOutside (State.byteHandler_onlyOutside _ b))
  | ccaLevel | tick | chip =>
    rw [step_of_outside hmove rfl] at h
    cases h
    rfl

/-! ## The sequencer's discipline (rules R72, R221, R222, R231) -/

/-- The positions of which the discipline says nothing. -/
def Pos.ungoverned : Pos → Bool
  | .loop | .rxComplete _ | .rxService _ | .dispatch _ => true
  | _ => false

theorem disciplined_of_ungoverned {s : State} (h : s.seq.ungoverned = true) : Disciplined s := by
  unfold Disciplined
  cases hseq : s.seq with
  | loop | rxComplete | rxService | dispatch => trivial
  | _ => rw [hseq] at h; cases h

/-- An operation returns to a caller of which the discipline says nothing. -/
theorem disciplined_ret {s : State} {p : Pos} (hcaller : s.caller = p) (hp : p.ungoverned = true) : Disciplined s.ret :=
  disciplined_of_ungoverned (by rw [State.ret_seq, hcaller, hp])

/-- Both tables are those of CONFIGURE's operand (rules R151, R152). -/
def State.TablesBuilt (s : State) : Prop := s.cfgTable = cfgTableOf s.csc ∧ s.paTable = paTableOf s.csc

theorem State.TablesBuilt.of_same {s t : State} (h : s.TablesBuilt) (hcsc : t.csc = s.csc)
    (hcfg : t.cfgTable = s.cfgTable) (hpa : t.paTable = s.paTable) : t.TablesBuilt := by
  unfold State.TablesBuilt
  rwa [hcsc, hcfg, hpa]

theorem disciplined_configure_iff {s : State} {l : CfgLabel} (h : s.seq = .configure l) :
    Disciplined s ↔
      s.caller = .dispatch .h3 ∧ (l.masked = true → s.irqEn = false) ∧ (l ≠ .c0 → s.TablesBuilt) := by
  unfold Disciplined
  rw [h]
  rfl

theorem disciplined_transmit_iff {s : State} {l : TxLabel} (h : s.seq = .transmit l) :
    Disciplined s ↔ s.caller = .csma .a6 ∧ s.irqEn = false ∧
      (l = .t4pa ∨ l = .t4pb → s.txSent < s.txLength) := by
  unfold Disciplined
  rw [h]
  cases l <;> simp

theorem disciplined_csma_iff {s : State} {l : CsmaLabel} (h : s.seq = .csma l) :
    Disciplined s ↔ (l = .a5 ∨ l = .a6 → s.irqEn = false) := by
  unfold Disciplined
  rw [h]
  cases l <;> simp

theorem disciplined_goto_configure {s : State} {l : CfgLabel} (hcaller : s.caller = .dispatch .h3)
    (hmask : l.masked = true → s.irqEn = false) (htables : s.TablesBuilt) : Disciplined (s.goto (.configure l)) :=
  (disciplined_configure_iff rfl).mpr ⟨hcaller, hmask, fun _ => htables⟩

theorem disciplined_goto_transmit {s : State} {l : TxLabel} (hcaller : s.caller = .csma .a6) (hmask : s.irqEn = false)
    (hleft : l = .t4pa ∨ l = .t4pb → s.txSent < s.txLength) : Disciplined (s.goto (.transmit l)) :=
  (disciplined_transmit_iff rfl).mpr ⟨hcaller, hmask, hleft⟩

/-- An interrupt or an act of the outside leaves every element that the discipline speaks of (rules R253, R255). -/
theorem OnlyOutsideDiffers.disciplined {s t : State} (h : OnlyOutsideDiffers s t) (hs : Disciplined s) :
    Disciplined t := by
  have ht : t = s.withOutsideOf t := h
  rw [ht]
  exact hs

/-! ### CONFIGURE and writeConfig (rules R134, R153) -/

/-- With its own table, entry `i` of CONFIGURE is a register write (rules R134, R151). -/
theorem State.TablesBuilt.writeEntry {s : State} (h : s.TablesBuilt) (i : Fin 39) :
    ∃ v, s.writeEntry i = s.wreg (cfgAddr i) v :=
  ⟨_, s.writeEntry_in (by rw [h.1, cfgTableOf_length]; exact i.isLt)⟩

theorem State.writeEntry_caller (s : State) (i : Fin 39) : (s.writeEntry i).caller = s.caller := by
  unfold State.writeEntry
  split <;> rfl

/-- Re-arming leaves the caller, CONFIGURE's operand and its tables alone (rule R29). -/
theorem State.rearm_frame (s : State) :
    s.rearm.caller = s.caller ∧ s.rearm.csc = s.csc ∧ s.rearm.cfgTable = s.cfgTable ∧ s.rearm.paTable = s.paTable := by
  obtain ⟨-, h⟩ | ⟨-, -, h⟩ | ⟨-, -, h⟩ := s.rearm_cases <;> rw [h] <;> exact ⟨rfl, rfl, rfl, rfl⟩

theorem configureStep_disciplined {s : State} {l : CfgLabel} (hs : Disciplined s) (hseq : s.seq = .configure l) :
    Disciplined (configureStep s.csc l s) := by
  obtain ⟨hcaller, hmask, htables⟩ := (disciplined_configure_iff hseq).mp hs
  cases l with
  | c0 => exact disciplined_goto_configure hcaller nofun ⟨rfl, rfl⟩
  | c1 => exact disciplined_goto_configure hcaller (fun _ => rfl) (htables nofun)
  | c2 | c3 | c4 | c6 | c7 | c8 | c9 | c10 | c11 | c12 =>
    exact disciplined_goto_configure hcaller (fun _ => hmask rfl) ((htables nofun).of_same rfl rfl rfl)
  | c5 i =>
    have htables := htables nofun
    obtain ⟨v, heq⟩ := htables.writeEntry i
    rw [configureStep, heq]
    exact disciplined_goto_configure hcaller (fun _ => hmask rfl) (htables.of_same rfl rfl rfl)
  | c13 =>
    obtain ⟨hsame, hcsc, hcfg, hpa⟩ := s.rearm_frame
    exact disciplined_goto_configure (hsame.trans hcaller) nofun ((htables nofun).of_same hcsc hcfg hpa)
  | c14 => exact disciplined_ret hcaller rfl

theorem writeConfigStep_disciplined {s : State} {l : WcLabel} (hcaller : s.caller = .loop) :
    Disciplined (writeConfigStep l s) := by
  cases l with
  | entry i => exact (s.writeEntry_caller i).trans hcaller
  | done => exact disciplined_ret hcaller rfl

/-! ### TRANSMIT and CSMA_SERVICE (rules R171, R224) -/

/-- A top-up leaves the caller and the mask alone (rule R173). -/
theorem State.refill_frame (s : State) : s.refill.caller = s.caller ∧ s.refill.irqEn = s.irqEn := by
  unfold State.refill
  split <;> exact ⟨rfl, rfl⟩

/-- T4' goes on to a top-up only while a payload byte remains (rule R171). -/
theorem transmitStep_disciplined {s : State} {l : TxLabel} (hcaller : s.caller = .csma .a6) (hmask : s.irqEn = false)
    (hleft : l = .t4pa → s.txSent < s.txLength) : Disciplined (transmitStep l s) := by
  cases l with
  | t1 =>
    refine disciplined_goto_transmit hcaller hmask ?_
    unfold State.txPath
    split <;> nofun
  | t2 | t3 | t2p | t3p | t6 | t7 => exact disciplined_goto_transmit hcaller hmask nofun
  | t4 =>
    refine disciplined_goto_transmit hcaller hmask ?_
    split <;> nofun
  | t4p =>
    refine disciplined_goto_transmit hcaller hmask ?_
    split
    next hlt => exact fun _ => hlt
    next => nofun
  | t4pa => exact disciplined_goto_transmit hcaller hmask fun _ => hleft rfl
  | t4pb =>
    obtain ⟨hsame, hirq⟩ := s.refill_frame
    exact disciplined_goto_transmit (hsame.trans hcaller) (hirq.trans hmask) nofun
  | t5 =>
    refine disciplined_goto_transmit hcaller hmask ?_
    split <;> nofun
  | t8 => exact (disciplined_csma_iff (s := s.ret) hcaller).mpr fun _ => hmask

theorem csmaStep_disciplined {s : State} {l : CsmaLabel} (hmask : l = .a5 → s.irqEn = false) :
    Disciplined (csmaStep l s) := by
  cases l with
  | a1 | a3 =>
    refine (disciplined_csma_iff rfl).mpr ?_
    split <;> nofun
  | a2 | a6 | a7 | a8 | a9 | a10 | a11 | a12 => trivial
  | a4 => exact rfl
  | a5 => exact transmitStep_disciplined (s := s.callFrom (.csma .a6)) (l := .t1) rfl (hmask rfl) nofun

/-! ### The RX drain and the host link (rules R192 to R197, R231 to R236) -/

theorem State.storeRx_caller (s : State) (b : Byte) : (s.storeRx b).caller = s.caller := by
  unfold State.storeRx
  split
  · exact s.writeBuf_caller .rxbuf _ b
  · rfl

theorem State.takeFifoByte_caller (s : State) : s.takeFifoByte.caller = s.caller := by
  unfold State.takeFifoByte
  split
  · rfl
  · exact s.storeRx_caller _

theorem rxStepStep_disciplined {s : State} {l : RxStepLabel} (hcaller : s.caller = .loop) :
    Disciplined (rxStepStep l s) := by
  cases l with
  | s1 | s2 | s3 => exact hcaller
  | s4 => exact s.takeFifoByte_caller.trans hcaller
  | s5 => exact disciplined_ret hcaller rfl

theorem rxLastStep_disciplined {s : State} {l : RxLastLabel} (hcaller : s.caller = .rxService .v2) :
    Disciplined (rxLastStep l s) := by
  cases l with
  | z1 | z3 => exact hcaller
  | z2 => exact (s.storeRx_caller _).trans hcaller
  | z4 => exact disciplined_ret hcaller rfl

theorem rxCompleteStep_disciplined (l : RxCompleteLabel) (s : State) : Disciplined (rxCompleteStep l s) := by
  cases l <;> trivial

/-- V1 starts the chosen operation with its caller (rule R197). -/
theorem rxServiceStep_disciplined (l : RxServiceLabel) (s : State) : Disciplined (rxServiceStep l s) := by
  cases l with
  | v1 =>
    unfold rxServiceStep
    dsimp only
    split
    · exact rxLastStep_disciplined (s := s.callFrom (.rxService .v2)) (l := .z1) rfl
    · exact rxStepStep_disciplined (s := s.callFrom .loop) (l := .s1) rfl
  | v2 => exact rxCompleteStep_disciplined .k1 _

/-- A configuration command calls CONFIGURE from H2; any other frame leads to H3 (rules R231 to R234). -/
theorem exec_hostIn_disciplined {i : Instr} {s t : State} (hlink : i.link = some .hostIn) (h : exec i s = .next t) :
    Disciplined t := by
  cases i with
  | hostConfig csc backoff => cases h; exact ⟨rfl, nofun, fun hne => absurd rfl hne⟩
  | hostData rest => cases h; trivial
  | hostOther tag rest => cases h; trivial
  | _ => cases hlink

theorem execHostDispatch_disciplined {s t : State} (hne : s.seq ≠ .dispatch .h2) (h : exec .hostDispatch s = .next t) :
    Disciplined t := by
  change execHostDispatch s = .next t at h
  unfold execHostDispatch at h
  split at h
  next hseq => exact absurd hseq hne
  all_goals cases h; trivial

theorem State.drain_seq (s : State) : s.sendNext.endDrain.seq = s.seq := by
  unfold State.sendNext State.endDrain
  split <;> split <;> rfl

/-! ### The instruction that a step runs (rules R30, R97, R231, R287) -/

theorem exec_writeConfig_of_seq {s : State} {l : WcLabel} (table : List Byte) (h : s.seq = .writeConfig l) :
    exec (.writeConfig table) s = .next (writeConfigStep l s) := by
  change execWriteConfig table s = _
  unfold execWriteConfig
  rw [h]

theorem exec_transmit_of_seq {s : State} {l : TxLabel} (h : s.seq = .transmit l) :
    exec .transmit s = .next (transmitStep l s) := by
  change execTransmit s = _
  unfold execTransmit
  rw [h]

theorem exec_rxStep_of_seq {s : State} {l : RxStepLabel} (h : s.seq = .rxStep l) :
    exec .rxStep s = .next (rxStepStep l s) := by
  change execRxStep s = _
  unfold execRxStep
  rw [h]

theorem exec_rxLast_of_seq {s : State} {l : RxLastLabel} (h : s.seq = .rxLast l) :
    exec .rxLast s = .next (rxLastStep l s) := by
  change execRxLast s = _
  unfold execRxLast
  rw [h]

theorem exec_rxComplete_disciplined {s t : State} (h : exec .rxComplete s = .next t) : Disciplined t := by
  change execRxComplete s = .next t at h
  unfold execRxComplete at h
  split at h <;> cases h <;> exact rxCompleteStep_disciplined _ s

theorem exec_rxService_disciplined {s t : State} (h : exec .rxService s = .next t) : Disciplined t := by
  change execRxService s = .next t at h
  unfold execRxService at h
  split at h <;> cases h <;> exact rxServiceStep_disciplined _ s

/-- Outside its own positions CSMA_SERVICE is started, with A1 (rule R224). -/
theorem exec_csmaService_of_loop {s : State} (h : s.seq = .loop) : exec .csmaService s = .next (csmaStep .a1 s) := by
  change execCsmaService s = _
  unfold execCsmaService
  rw [h]

/-- Neither a bus transaction nor the boot notification moves the sequencer. -/
theorem exec_seq_of_link {i : Instr} {s t : State} (hlink : i.link = some .chipBus ∨ i.link = some .hostOut)
    (h : exec i s = .next t) : t.seq = s.seq := by
  obtain hbus | hout := hlink
  · rw [exec_of_chipBus s hbus] at h
    cases h
    rfl
  · cases i with
    | hostBootnote => cases h; exact s.writeRun_seq .htx 0 _
    | _ => cases hout

/-- Whatever the action leads to is disciplined. -/
def Action.KeepsDiscipline : Action → Prop
  | .outside t => Disciplined t
  | .run i u => ∀ t, exec i u = .next t → Disciplined t
  | .refuse _ => True

/-- A service of the main loop starts with a micro-step of its own (rule R287). -/
theorem loopAction_keepsDiscipline (k : Nat) {s : State} (hseq : s.seq = .loop) : (loopAction k s).KeepsDiscipline := by
  unfold loopAction
  split
  next i hpick =>
    intro t h
    obtain ⟨rfl, -⟩ | ⟨rfl, -⟩ | ⟨rfl, -⟩ | ⟨rfl, -⟩ := State.pickService_cases hpick
    · exact exec_rxService_disciplined h
    · rw [exec_csmaService_of_loop hseq] at h
      cases h
      exact csmaStep_disciplined nofun
    · exact execHostDispatch_disciplined (by rw [hseq]; nofun) h
    · cases h
      exact disciplined_of_ungoverned (by rw [State.drain_seq, hseq]; rfl)
  next => exact disciplined_of_ungoverned (by rw [hseq]; rfl)

/-- A frame at H2 leads to CONFIGURE or to H3; anything else that is fetched leads to where the fetch goes on. -/
theorem fetchAction_keepsDiscipline {l : Link} {bytes : List Byte} {s : State}
    (hpast : l = .hostIn ∨ s.pastFetch.seq = .loop) : (fetchAction l bytes s).KeepsDiscipline := by
  unfold fetchAction
  split
  next i hdec =>
    intro t h
    have hlink : i.link = some l := decode_link hdec
    cases l with
    | hostIn => exact exec_hostIn_disciplined hlink h
    | chipBus =>
      have hloop : s.pastFetch.seq = .loop := hpast.resolve_left nofun
      exact disciplined_of_ungoverned (by rw [exec_seq_of_link (.inl hlink) h, hloop]; rfl)
    | hostOut =>
      have hloop : s.pastFetch.seq = .loop := hpast.resolve_left nofun
      exact disciplined_of_ungoverned (by rw [exec_seq_of_link (.inr hlink) h, hloop]; rfl)
  next => trivial

/-- Inside an operation each micro-step takes the discipline of its label to that of the next one. -/
theorem opAction_keepsDiscipline {s : State} (hs : Disciplined s) (hin : s.seq.inOperation = true) :
    (opAction s).KeepsDiscipline := by
  unfold opAction
  cases hseq : s.seq with
  | loop | boot | direct => exact hs
  | configure l =>
    intro t h
    rw [exec_configure_of_seq _ hseq] at h
    cases h
    exact configureStep_disciplined hs hseq
  | writeConfig l =>
    intro t h
    rw [exec_writeConfig_of_seq _ hseq] at h
    cases h
    have hcaller : s.caller = .loop := by simpa only [Disciplined, hseq] using hs
    exact writeConfigStep_disciplined hcaller
  | transmit l =>
    intro t h
    rw [exec_transmit_of_seq hseq] at h
    cases h
    obtain ⟨hcaller, hmask, hleft⟩ := (disciplined_transmit_iff hseq).mp hs
    exact transmitStep_disciplined hcaller hmask fun hl => hleft (.inl hl)
  | rxStep l =>
    intro t h
    rw [exec_rxStep_of_seq hseq] at h
    cases h
    have hcaller : s.caller = .loop := by simpa only [Disciplined, hseq] using hs
    exact rxStepStep_disciplined hcaller
  | rxLast l =>
    intro t h
    rw [exec_rxLast_of_seq hseq] at h
    cases h
    have hcaller : s.caller = .rxService .v2 := by simpa only [Disciplined, hseq] using hs
    exact rxLastStep_disciplined hcaller
  | rxComplete l => exact fun t h => exec_rxComplete_disciplined h
  | rxService l => exact fun t h => exec_rxService_disciplined h
  | csma l =>
    intro t h
    rw [exec_csmaService_of_seq hseq] at h
    cases h
    exact csmaStep_disciplined fun hl => (disciplined_csma_iff hseq).mp hs (.inl hl)
  | dispatch l =>
    refine fun t h => execHostDispatch_disciplined (fun hh2 => ?_) h
    rw [hh2] at hin
    cases hin

theorem sequencerAction_keepsDiscipline (k : Nat) {s : State} (hs : Disciplined s) :
    (sequencerAction k s).KeepsDiscipline := by
  by_cases hin : s.seq.inOperation = true
  · exact sequencerAction_of_inOperation k hin ▸ opAction_keepsDiscipline hs hin
  · unfold sequencerAction State.fetchBytes
    cases hseq : s.seq with
    | loop => exact loopAction_keepsDiscipline k hseq
    | boot => exact fetchAction_keepsDiscipline (.inr (by unfold State.pastFetch; rw [hseq]; rfl))
    | direct =>
      have hcaller : s.caller = .loop := by simpa only [Disciplined, hseq] using hs
      exact fetchAction_keepsDiscipline (.inr (by unfold State.pastFetch; rw [hseq]; exact hcaller))
    | dispatch l =>
      cases l with
      | h2 => exact fetchAction_keepsDiscipline (.inl rfl)
      | _ => exact absurd (by rw [hseq]; rfl) hin
    | _ => exact absurd (by rw [hseq]; rfl) hin

theorem step_keepsDiscipline_of_sequencer {s t : State} {k : Nat} (hm : s.nextMove = .loop k) (hs : Disciplined s)
    (h : step s = .next t) : Disciplined t := by
  have hkeeps : s.nextAction.KeepsDiscipline := by
    unfold State.nextAction
    rw [hm]
    exact sequencerAction_keepsDiscipline k (s := s.afterMove) hs
  obtain hout | ⟨i, u, hrun, hexec⟩ := step_cases h
  · rwa [hout] at hkeeps
  · rw [hrun] at hkeeps
    exact hkeeps t hexec

end Sys2Proof.Machine

namespace Sys2Proof.Proofs

open Sys2Proof Sys2Proof.Machine

/-- Settles O53: each change a step can make stores inside a space or empties it. -/
theorem stepKeepsMemoryCanonical : Obligations.StepKeepsMemoryCanonical := by
  intro s t hs hstep
  rw [memoryOk_iff_observed] at hs ⊢
  exact (step_observed hstep).memoryOk hs

/-- Settles O55: the sequencer's micro-steps hand the discipline on, and no one else touches what it speaks of. -/
theorem stepKeepsDiscipline : Obligations.StepKeepsDiscipline := by
  intro s t hs hstep
  by_cases hm : ∃ k, s.nextMove = .loop k
  · obtain ⟨k, hm⟩ := hm
    exact step_keepsDiscipline_of_sequencer hm hs hstep
  · exact (step_onlyOutside (not_exists.mp hm) hstep).disciplined hs

/-- Settles O58: a step is loud at most once, and only the sequencer's is loud at all. -/
theorem traceGrowsByAtMostOne : Obligations.TraceGrowsByAtMostOne := by
  intro s t hstep
  by_cases hm : ∃ k, s.nextMove = .loop k
  · obtain hsame | ⟨-, e, he⟩ := (step_observed hstep).trace
    · exact .inl hsame
    · exact .inr ⟨e, he, fun _ => hm⟩
  · have ht : t = s.withOutsideOf t := step_onlyOutside (not_exists.mp hm) hstep
    have htrace : t.trace = (s.withOutsideOf t).trace := congrArg State.trace ht
    exact .inl htrace

/-- Settles O59: masked and away from the two re-arming labels, a step has the handler out of reach. -/
theorem maskHoldsOffTheHandler : Obligations.MaskHoldsOffTheHandler := by
  intro s t hmask hc13 ha6 hstep
  refine (step_observed hstep).flags ?_
  rintro (hen | hseq | hseq)
  · rw [hmask] at hen
    cases hen
  · exact hc13 hseq
  · exact ha6 hseq

/-- Settles O9: the exchange reads the answer's bytes alike, and only its mark and the chip's side tell the two apart. -/
theorem timeoutChangesNothingElse : Obligations.TimeoutChangesNothingElse := by
  intro i s bytes rest taken hlink
  refine ⟨_, exec_of_chipBus _ hlink, ?_⟩
  rw [exec_of_chipBus _ hlink]
  cases taken <;> rfl

end Sys2Proof.Proofs
end

section
/-! PROOFS. The encodings: the kind each header announces, the round trip on the three links, and what rule R97 says of
every header and the bytes after it. -/

namespace Sys2Proof.Machine

/-! ## Header bytes (rules R91 to R97) -/

/-- A configuration register's address is its own single-write header (rules R91, R93). -/
theorem hdrSingleWrite_cfg (a : Fin 41) : hdrSingleWrite (BitVec.ofNat 8 a.val) = BitVec.ofNat 8 a.val := by
  revert a
  decide

/-- A burst-read header is its address with both flag bits set (rule R95). -/
theorem hdrBurstRead_cfg (a : Fin 41) :
    hdrBurstRead ((BitVec.ofNat 6 a.val).zeroExtend 8) = BitVec.ofNat 8 (0xC0 + a.val) := by
  revert a
  decide

/-- The addresses a well-formed burst read has announce a burst read of that address (case 7 of rule R97). -/
theorem classify_burstRead {a : ChipAddr} (h : a.toNat < 41 ∨ a.toNat = 0x3F) :
    classify (hdrBurstRead (a.zeroExtend 8)) = some (.burstRead a) := by
  revert a
  decide

/-- The headers of cases 1 to 7 of rule R97. -/
def isIssuedHeader (h : Byte) : Prop :=
  h.toNat ≤ 0x28 ∨ h.toNat ∈ [0x30, 0x33, 0x34, 0x35, 0x36, 0x3A, 0x3D, 0x7E, 0x7F, 0xBF, 0xF5, 0xFA, 0xFB, 0xFF] ∨
    (0xC0 ≤ h.toNat ∧ h.toNat ≤ 0xC0 + 0x28)

/-- Case 8 of rule R97 is every header that the other cases do not have. -/
theorem classify_eq_none_iff (h : Byte) : classify h = none ↔ ¬ isIssuedHeader h := by
  revert h
  unfold isIssuedHeader
  decide

/-- `h` is the header of the instructions of this kind, and an instruction without operands has as many further bytes as
the kind says. -/
def announces (h : Byte) : Header → Bool
  | .fixed i n => decide ((encode i).length = n + 1 ∧ (encode i).head? = some h)
  | .paWrite => decide (h = hdrPaWb)
  | .fifoWrite => decide (h = hdrFifoWb)
  | .cfgWrite a => decide (h = hdrSingleWrite (BitVec.ofNat 8 a.val))
  | .burstRead a => decide (h = hdrBurstRead (a.zeroExtend 8))

theorem announces_of_classify {h : Byte} {k : Header} (hk : classify h = some k) : announces h k = true := by
  have hall : ∀ h : Byte, (classify h).all (announces h) = true := by decide
  have hannounced := hall h
  rw [hk] at hannounced
  exact hannounced

/-! ## Decoding on the chip bus (rules R97, R98) -/

/-- What decodes has a header of a known kind, and as many bytes after it as that kind takes. -/
theorem decodeBus_eq_ok_iff {bytes : List Byte} {i : Instr} :
    decodeBus bytes = .ok i ↔ ∃ h d k, bytes = h :: d ∧ classify h = some k ∧ decodeData h d k = .ok i := by
  constructor
  · intro hdec
    cases bytes with
    | nil => cases hdec
    | cons h d =>
      cases hk : classify h with
      | none => simp only [decodeBus, hk] at hdec; cases hdec
      | some k => exact ⟨h, d, k, rfl, hk, (decodeBus_cons d hk).symm.trans hdec⟩
  · rintro ⟨h, d, k, rfl, hk, hdata⟩
    exact (decodeBus_cons d hk).trans hdata

/-- A header of a known kind is never refused as not issued, whatever follows it. -/
theorem decodeData_ne_notIssued (h : Byte) (d : List Byte) (k : Header) : decodeData h d k ≠ .error (.notIssued h) := by
  unfold decodeData
  cases k with
  | fixed | paWrite | fifoWrite | cfgWrite | burstRead =>
    dsimp only
    split <;> nofun

theorem decodeBus_notIssued_iff (h : Byte) (d : List Byte) :
    decodeBus (h :: d) = .error (.notIssued h) ↔ classify h = none := by
  cases hk : classify h with
  | none => simp only [decodeBus, hk]
  | some k => rw [decodeBus_cons d hk]; exact iff_of_false (decodeData_ne_notIssued h d k) nofun

/-- The bytes after a header are taken exactly where they meet the condition of its kind. -/
theorem ite_ok_eq_ok_iff {p : Prop} [Decidable p] {i j : Instr} {e : Reject} :
    (if p then Except.ok j else Except.error e) = Except.ok i ↔ p ∧ j = i := by
  by_cases hp : p <;> simp [hp]

/-- A header and the data it takes are as long as the encoding of their instruction, which begins with it (rule R98). -/
theorem decodeData_shape {h : Byte} {d : List Byte} {k : Header} {i : Instr} (hk : announces h k = true)
    (hdata : decodeData h d k = .ok i) : (encode i).length = d.length + 1 ∧ (encode i).head? = some h := by
  cases k with
  | fixed j n =>
    obtain ⟨rfl, rfl⟩ := ite_ok_eq_ok_iff.mp hdata
    exact of_decide_eq_true hk
  | paWrite | fifoWrite =>
    obtain ⟨-, rfl⟩ := ite_ok_eq_ok_iff.mp hdata
    obtain rfl := of_decide_eq_true hk
    exact ⟨rfl, rfl⟩
  | cfgWrite a =>
    obtain ⟨hlen, rfl⟩ := ite_ok_eq_ok_iff.mp hdata
    obtain rfl := of_decide_eq_true hk
    exact ⟨congrArg (· + 1) hlen.symm, rfl⟩
  | burstRead a =>
    obtain ⟨-, rfl⟩ := ite_ok_eq_ok_iff.mp hdata
    obtain rfl := of_decide_eq_true hk
    exact ⟨congrArg (· + 1) List.length_replicate, rfl⟩

/-! ## The round trip on each link (rules R90, R97, R100, R231) -/

/-- Where a well-formed burst read may start (rule R133). -/
theorem wf_rburst_iff {a : ChipAddr} {n : Nat} :
    (Instr.rburst a n).wf = true ↔ 1 ≤ n ∧ (a.toNat < 41 ∨ a.toNat = 0x3F) := by
  simp [Instr.wf, Config.codes]

theorem decodeBus_encode {i : Instr} (hlink : i.link = some .chipBus) (hwf : i.wf = true) :
    decodeBus (encode i) = .ok i := by
  cases i with
  | sres | scal | srx | stx | sidle | sfrx | snop => rfl
  | rfifo1 | rstatusMarcstate | rstatusTxbytes | rstatusRxbytes => rfl
  | wreg a v => exact decodeBus_encode_wreg a v
  | wburstPatable levels =>
    have hlen : 1 ≤ levels.length ∧ levels.length ≤ 8 := of_decide_eq_true hwf
    exact decodeBus_encode_wburstPatable hlen.1
  | wburstFifo data =>
    have hlen : 1 ≤ data.length ∧ data.length ≤ 64 := of_decide_eq_true hwf
    exact decodeBus_encode_wburstFifo hlen.1
  | rburst a n =>
    obtain ⟨hn, ha⟩ := wf_rburst_iff.mp hwf
    exact decodeBus_encode_rburst (classify_burstRead ha) hn
  | hostConfig | hostData | hostBootnote | hostOther => cases hlink
  | configure | writeConfig | transmit | syncEdge | rxStep | rxLast | rxComplete | rxService => cases hlink
  | csmaService | hostRxByte | hostDispatch | hostTxDrain => cases hlink

/-- A well-formed frame of another command has neither of the two known tags (rule R234). -/
theorem tags_of_wf_hostOther {tag : Byte} {rest : List Byte} (h : (Instr.hostOther tag rest).wf = true) :
    tag ≠ Config.tagCfg ∧ tag ≠ Config.tagData := by
  simp only [Instr.wf, Bool.and_eq_true, decide_eq_true_eq] at h
  exact h.1

theorem decodeHostIn_encode {i : Instr} (hlink : i.link = some .hostIn) (hwf : i.wf = true) :
    decodeHostIn (encode i) = .ok i := by
  cases i with
  | hostConfig | hostData => rfl
  | hostOther tag rest =>
    obtain ⟨hcfg, hdata⟩ := tags_of_wf_hostOther hwf
    simp only [encode, decodeHostIn, if_neg hcfg, if_neg hdata]
  | _ => cases hlink

theorem decodeHostOut_encode {i : Instr} (hlink : i.link = some .hostOut) : decodeHostOut (encode i) = .ok i := by
  cases i with
  | hostBootnote => rfl
  | _ => cases hlink

end Sys2Proof.Machine

namespace Sys2Proof.Proofs

open Sys2Proof Sys2Proof.Machine

/-- Settles O1: on each link the first byte tells the instruction's kind, and the rest are its operands. -/
theorem decodeEncodeRoundTrip : Obligations.DecodeEncodeRoundTrip := by
  intro i l hlink hwf
  cases l with
  | chipBus => exact decodeBus_encode hlink hwf
  | hostIn => exact decodeHostIn_encode hlink hwf
  | hostOut => exact decodeHostOut_encode hlink

/-- Settles O2: each sample is the encoding of its instruction. -/
theorem sampleEncodingsDecode : Obligations.SampleEncodingsDecode :=
  ⟨decodeBus_encode (i := .sidle) rfl rfl, decodeBus_encode (i := .snop) rfl rfl,
    decodeBus_encode (i := .wreg 0x0A 0x03) rfl rfl,
    decodeBus_encode (i := .wburstPatable [0xC0, 0xC1, 0xC2, 0xC3, 0xC4, 0xC5, 0xC6, 0xC7]) rfl rfl,
    decodeBus_encode (i := .wburstFifo [0x02, 0xAA, 0xBB]) rfl rfl, decodeBus_encode (i := .rfifo1) rfl rfl,
    decodeBus_encode (i := .rstatusTxbytes) rfl rfl, decodeBus_encode (i := .rburst 0x3F 2) rfl rfl,
    decodeHostIn_encode (i := .hostConfig 0x03 0x0A) rfl rfl,
    decodeHostIn_encode (i := .hostData [0x48, 0x69, 0xFF]) rfl rfl, decodeHostOut_encode (i := .hostBootnote) rfl⟩

/-- Settles O3: a header's kind says which bytes may follow it, and case 8 is the headers of no kind. -/
theorem headerClassification : Obligations.HeaderClassification := by
  refine ⟨?cfgWrite, ⟨rfl, rfl, rfl, rfl, rfl, rfl, rfl⟩, fun _ => decodeBus_encode_wburstPatable,
    fun _ => decodeBus_encode_wburstFifo, fun _ => rfl, fun _ _ => ⟨rfl, rfl, rfl⟩, ?burstRead, ?notIssued, ?shape⟩
  case cfgWrite => exact fun a v => hdrSingleWrite_cfg a ▸ decodeBus_encode_wreg a v
  case burstRead =>
    intro d hd
    refine ⟨(decodeBus_cons d (by decide : classify 0xFF = some (.burstRead 0x3F))).trans (if_pos hd), fun a => ?_⟩
    rw [← hdrBurstRead_cfg a]
    exact (decodeBus_cons d (classify_burstRead_cfg a)).trans (if_pos hd)
  case notIssued => exact fun h d => (decodeBus_notIssued_iff h d).trans (classify_eq_none_iff h)
  case shape =>
    intro bytes i hdec
    obtain ⟨h, d, k, rfl, hk, hdata⟩ := decodeBus_eq_ok_iff.mp hdec
    obtain ⟨hlen, hhead⟩ := decodeData_shape (announces_of_classify hk) hdata
    exact ⟨hlen.symm, hhead.symm⟩

end Sys2Proof.Proofs
end

section
/-! PROOFS. Where a step finds its instruction, and that it never faults; and the transactions that a step can put on
the bus. -/

namespace Sys2Proof.Machine

/-! ## Where the sequencer finds its instruction (rules R97, R231, R287) -/

theorem fetchAction_of_ok {l : Link} {bytes : List Byte} {i : Instr} (s : State) (h : decode l bytes = .ok i) :
    fetchAction l bytes s = .run i s.pastFetch := by
  simp only [fetchAction, h]

/-- At `direct` the bytes of `request` are fetched (log entry 11). -/
theorem sequencerAction_of_direct {s : State} (k : Nat) (h : s.seq = .direct) :
    sequencerAction k s = fetchAction .chipBus s.request s := by
  simp only [sequencerAction, State.fetchBytes, h]

/-- A transaction fetched at `direct` finds the position at the caller already (log entry 11). -/
theorem sequencerAction_of_request {s : State} {i : Instr} (k : Nat) (h : s.seq = .direct)
    (hdec : decodeBus s.request = .ok i) : sequencerAction k s = .run i s.ret := by
  have hpast : s.pastFetch = s.ret := by simp only [State.pastFetch, h]
  rw [sequencerAction_of_direct k h, fetchAction_of_ok (l := .chipBus) (bytes := s.request) s hdec, hpast]

/-- At `boot` the notification is fetched and run (rule R281; log entry 13). -/
theorem sequencerAction_of_boot {s : State} (k : Nat) (h : s.seq = .boot) :
    sequencerAction k s = .run .hostBootnote (s.goto .loop) := by
  have hfetch : sequencerAction k s = fetchAction .hostOut (encode .hostBootnote) s := by
    simp only [sequencerAction, State.fetchBytes, h]
    rfl
  have hpast : s.pastFetch = s.goto .loop := by simp only [State.pastFetch, h]
  rw [hfetch, fetchAction_of_ok (i := .hostBootnote) s rfl, hpast]

/-- At H2 the accumulated frame is fetched, and the instruction it stands for finds the position at H2 (rule R231). -/
theorem sequencerAction_of_h2 {s : State} {i : Instr} (k : Nat) (h : s.seq = .dispatch .h2)
    (hdec : decodeHostIn s.hostFrame = .ok i) : sequencerAction k s = .run i s := by
  have hfetch : sequencerAction k s = fetchAction .hostIn s.hostFrame s := by
    simp only [sequencerAction, State.fetchBytes, h]
  have hpast : s.pastFetch = s := by simp only [State.pastFetch, h]
  rw [hfetch, fetchAction_of_ok (l := .hostIn) (bytes := s.hostFrame) s hdec, hpast]

theorem sequencerAction_of_loop {s : State} (k : Nat) (h : s.seq = .loop) : sequencerAction k s = loopAction k s := by
  simp only [sequencerAction, h]

/-- Outside an operation that goes on by itself the sequencer is at one of four positions. -/
theorem Pos.cases_of_not_inOperation {p : Pos} (h : p.inOperation = false) :
    p = .loop ∨ p = .boot ∨ p = .direct ∨ p = .dispatch .h2 := by
  cases p with
  | loop | boot | direct => simp
  | dispatch l =>
    cases l with
    | h2 => simp
    | h1 | h3 | h4 => cases h
  | configure | writeConfig | transmit | rxStep | rxLast | rxComplete | rxService | csma => cases h

/-- Nothing but bytes at `direct` that are no transaction is ever refused (rule R101; log entry 19). -/
theorem sequencerAction_refuse {s : State} {k : Nat} {r : Refusal} (h : sequencerAction k s = .refuse r) :
    s.seq = .direct ∧ ∃ why, decodeBus s.request = .error why ∧ r = .notATransaction why := by
  cases hin : s.seq.inOperation with
  | true =>
    rw [sequencerAction_of_inOperation k hin] at h
    unfold opAction at h
    split at h <;> cases h
  | false =>
    obtain hseq | hseq | hseq | hseq := Pos.cases_of_not_inOperation hin
    · rw [sequencerAction_of_loop k hseq] at h
      unfold loopAction at h
      split at h <;> cases h
    · rw [sequencerAction_of_boot k hseq] at h
      cases h
    · rw [sequencerAction_of_direct k hseq] at h
      unfold fetchAction at h
      split at h
      next => cases h
      next why hdec => cases h; exact ⟨hseq, why, hdec, rfl⟩
    · obtain ⟨i, hdec⟩ := decodeHostIn_hostFrame s
      rw [sequencerAction_of_h2 k hseq hdec] at h
      cases h

theorem moveAction_refuse {s : State} {m : Move} {r : Refusal} (h : moveAction m s = .refuse r) :
    s.seq = .direct ∧ ∃ why, decodeBus s.request = .error why ∧ r = .notATransaction why := by
  by_cases hm : ∃ k, m = .loop k
  · obtain ⟨k, rfl⟩ := hm
    exact sequencerAction_refuse h
  · obtain ⟨t, heq, -, -⟩ | ⟨level, heq⟩ | ⟨b, heq⟩ := moveAction_outside s m (not_exists.mp hm)
    all_goals rw [heq] at h; cases h

/-! ## Every instruction answers a next state (rule R250) -/

/-- RX_SERVICE makes a micro-step of its own in every state: the one of its label, or its first. -/
theorem exec_rxService_eq (s : State) : ∃ l, exec .rxService s = .next (rxServiceStep l s) := by
  change ∃ l, execRxService s = _
  unfold execRxService
  split <;> exact ⟨_, rfl⟩

/-- CSMA_SERVICE makes a micro-step of its own in every state. -/
theorem exec_csmaService_eq (s : State) : ∃ l, exec .csmaService s = .next (csmaStep l s) := by
  change ∃ l, execCsmaService s = _
  unfold execCsmaService
  split <;> exact ⟨_, rfl⟩

/-- RX_COMPLETE makes a micro-step of its own in every state. -/
theorem exec_rxComplete_eq (s : State) : ∃ l, exec .rxComplete s = .next (rxCompleteStep l s) := by
  change ∃ l, execRxComplete s = _
  unfold execRxComplete
  split <;> exact ⟨_, rfl⟩

theorem dispatchFrame_next (s : State) : ∃ t, dispatchFrame s = .next t := by
  unfold dispatchFrame
  split <;> exact ⟨_, rfl⟩

/-- No arm of `exec` stops: the block has no fault, and a meaning refuses nothing (rule R250; log entry 19). -/
theorem exec_next (i : Instr) (s : State) : ∃ t, exec i s = .next t := by
  cases i with
  | sres | scal | srx | stx | sidle | sfrx | snop => exact ⟨_, rfl⟩
  | wreg | wburstPatable | wburstFifo | rfifo1 | rburst => exact ⟨_, rfl⟩
  | rstatusMarcstate | rstatusTxbytes | rstatusRxbytes => exact ⟨_, rfl⟩
  | hostConfig | hostData | hostBootnote | hostOther => exact ⟨_, rfl⟩
  | syncEdge | hostRxByte | hostTxDrain => exact ⟨_, rfl⟩
  | rxComplete => exact (exec_rxComplete_eq s).imp' _ fun _ h => h
  | rxService => exact (exec_rxService_eq s).imp' _ fun _ h => h
  | csmaService => exact (exec_csmaService_eq s).imp' _ fun _ h => h
  | configure csc =>
    change ∃ t, execConfigure csc s = .next t
    unfold execConfigure
    split <;> exact ⟨_, rfl⟩
  | writeConfig table =>
    change ∃ t, execWriteConfig table s = .next t
    unfold execWriteConfig
    split <;> exact ⟨_, rfl⟩
  | transmit =>
    change ∃ t, execTransmit s = .next t
    unfold execTransmit
    split <;> exact ⟨_, rfl⟩
  | rxStep =>
    change ∃ t, execRxStep s = .next t
    unfold execRxStep
    split <;> exact ⟨_, rfl⟩
  | rxLast =>
    change ∃ t, execRxLast s = .next t
    unfold execRxLast
    split <;> exact ⟨_, rfl⟩
  | hostDispatch =>
    change ∃ t, execHostDispatch s = .next t
    unfold execHostDispatch
    split
    · exact dispatchFrame_next s
    all_goals exact ⟨_, rfl⟩

/-! ## The transactions of rule R97 cases 1 to 6, MARCSTATE apart (rule R101) -/

/-- The instructions whose transactions the TLC's sequences send (rules R101, R131, R133): no MARCSTATE, no burst read,
and the power table only whole. -/
def isListed : Instr → Bool
  | .rstatusMarcstate | .rburst _ _ => false
  | .wburstPatable levels => decide (levels.length = 8)
  | _ => true

theorem isListed_spec {i : Instr} (h : isListed i = true) :
    i ≠ .rstatusMarcstate ∧ (∀ a n, i ≠ .rburst a n) ∧ ∀ levels, i = .wburstPatable levels → levels.length = 8 := by
  refine ⟨?_, ?_, ?_⟩
  · rintro rfl; cases h
  · rintro a n rfl; cases h
  · rintro levels rfl; exact of_decide_eq_true h

/-- If `t` has one transaction more than `s`, then it is a listed one. -/
def IssuesListed (s t : State) : Prop :=
  ∀ tx rx, t.trace = s.trace ++ [.xact tx rx] → ∃ i, decodeBus tx = .ok i ∧ isListed i = true

theorem issuesListed_of_trace_eq {s t : State} (h : t.trace = s.trace) : IssuesListed s t := by
  intro tx rx htrace
  rw [h] at htrace
  simp at htrace

/-- An event of another kind is no transaction. -/
theorem issuesListed_of_event {s t : State} {e : Event} (h : t.trace = s.trace ++ [e]) (he : e.isXact = false) :
    IssuesListed s t := by
  intro tx rx htrace
  obtain rfl : e = .xact tx rx := by simpa [h] using htrace
  cases he

theorem IssuesListed.of_trace_eq {s u t : State} (h : IssuesListed u t) (hu : u.trace = s.trace) :
    IssuesListed s t := by
  intro tx rx htrace
  exact h tx rx (htrace.trans (by rw [hu]))

/-- A transaction of a listed instruction's encoding is that instruction's. -/
theorem State.xact_issuesListed (s : State) {i : Instr} (hdec : decodeBus (encode i) = .ok i)
    (hi : isListed i = true) : IssuesListed s (s.xact (encode i)) := by
  intro tx rx htrace
  obtain ⟨rfl, -⟩ : encode i = tx ∧ s.received (encode i).length = rx := by simpa using htrace
  exact ⟨i, hdec, hi⟩

/-! ### What the shared operations send -/

/-- A change that is not loud leaves the trace alone. -/
theorem Observed.Change.trace_eq {handler : Prop} {u w : Observed} (h : u.Change handler false w) :
    w.trace = u.trace :=
  h.trace.resolve_right nofun

/-- An entry of writeConfig is a register write, or a mark (rule R134). -/
theorem State.writeEntry_issuesListed (s : State) (i : Fin 39) : IssuesListed s (s.writeEntry i) := by
  unfold State.writeEntry
  split
  · exact s.xact_issuesListed (decodeBus_encode_wreg _ _) rfl
  · exact issuesListed_of_trace_eq rfl

theorem paLevels_length (kind : Kind) : (paLevels kind).length = 8 := by
  cases kind <;> simp [paLevels]

/-- CONFIGURE's power table is a whole one (rules R130, R152). -/
theorem State.TablesBuilt.powerTable_issuesListed {s : State} (h : s.TablesBuilt) :
    IssuesListed s (s.xact s.paTable) := by
  obtain ⟨-, hpa⟩ := h
  have hlen : (paLevels (kindOf s.csc)).length = 8 := paLevels_length _
  rw [hpa]
  exact s.xact_issuesListed (i := .wburstPatable (paLevels (kindOf s.csc)))
    (decodeBus_encode_wburstPatable (by omega)) (decide_eq_true hlen)

/-- With the tag in place a burst of TXBUF from its start is a FIFO write of the bytes after the tag (rules R21,
R171). -/
theorem TagInPlace.readRun {s : State} (h : TagInPlace s) (n : Nat) :
    s.readRun .txbuf 0 (n + 1) = encode (.wburstFifo (s.readRun .txbuf 1 n)) :=
  congrArg (· :: s.readRun .txbuf 1 n) h

theorem TagInPlace.xact_issuesListed {s : State} (h : TagInPlace s) {n : Nat} (hn : 1 ≤ n) :
    IssuesListed s (s.xact (s.readRun .txbuf 0 (n + 1))) := by
  rw [h.readRun n]
  exact s.xact_issuesListed (decodeBus_encode_wburstFifo (by rwa [State.readRun_length])) rfl

/-- While payload bytes are left to send, a top-up has some (rule R173). -/
theorem State.refill_issuesListed {s : State} (h : s.txSent < s.txLength) : IssuesListed s s.refill := by
  have hchunk : 1 ≤ s.chunkSize := by
    unfold State.chunkSize Config.txChunk
    omega
  unfold State.refill
  split
  · exact s.xact_issuesListed (i := .wburstFifo (s.readRun .txbuf (2 + s.txSent) s.chunkSize))
      (decodeBus_encode_wburstFifo (by rwa [State.readRun_length])) rfl
  · exact issuesListed_of_trace_eq rfl

/-- A byte to the host is no transaction, nor is the end of the drain (rules R236, R260). -/
theorem State.drain_issuesListed (s : State) : IssuesListed s s.sendNext.endDrain := by
  have hend : s.sendNext.endDrain.trace = s.sendNext.trace := congrArg Observed.trace s.sendNext.endDrain_observed
  by_cases hlt : s.htxCursor < s.htxLen
  · have hsend : s.sendNext.trace = s.trace ++ [.sendByte (s.readBuf .htx s.htxCursor)] := by
      rw [State.sendNext, if_pos hlt]
      rfl
    exact issuesListed_of_event (hend.trans hsend) rfl
  · have hsend : s.sendNext.trace = s.trace := by rw [State.sendNext, if_neg hlt]
    exact issuesListed_of_trace_eq (hend.trans hsend)

/-! ### What a micro-step of each operation sends -/

theorem configureStep_issuesListed {s : State} (csc : Byte) {l : CfgLabel} (htables : l ≠ .c0 → s.TablesBuilt) :
    IssuesListed s (configureStep csc l s) := by
  cases l with
  | c0 | c1 | c14 => exact issuesListed_of_trace_eq rfl
  | c2 | c4 | c9 => exact issuesListed_of_event rfl rfl
  | c3 => exact s.xact_issuesListed (i := .sres) rfl rfl
  | c5 i => exact s.writeEntry_issuesListed i
  | c6 => exact (htables nofun).powerTable_issuesListed
  | c7 | c10 => exact s.xact_issuesListed (i := .sidle) rfl rfl
  | c8 => exact s.xact_issuesListed (i := .scal) rfl rfl
  | c11 => exact s.xact_issuesListed (i := .sfrx) rfl rfl
  | c12 => exact s.xact_issuesListed (i := .srx) rfl rfl
  | c13 => exact issuesListed_of_trace_eq (s.rearm_observed trivial).trace_eq

theorem writeConfigStep_issuesListed (l : WcLabel) (s : State) : IssuesListed s (writeConfigStep l s) := by
  cases l with
  | entry i => exact s.writeEntry_issuesListed i
  | done => exact issuesListed_of_trace_eq rfl

theorem transmitStep_issuesListed {s : State} {l : TxLabel} (htag : TagInPlace s)
    (hleft : l = .t4pb → s.txSent < s.txLength) : IssuesListed s (transmitStep l s) := by
  cases l with
  | t1 => exact s.xact_issuesListed (i := .sidle) rfl rfl
  | t2 => exact htag.xact_issuesListed (n := s.txLength + 1) (by omega)
  | t2p => exact htag.xact_issuesListed (n := 64) (by omega)
  | t3 | t3p => exact s.xact_issuesListed (i := .stx) rfl rfl
  | t4 | t4pa => exact s.xact_issuesListed (i := .rstatusTxbytes) rfl rfl
  | t4pb => exact State.refill_issuesListed (hleft rfl)
  | t4p | t8 => exact issuesListed_of_trace_eq rfl
  | t5 => exact s.xact_issuesListed (i := .snop) rfl rfl
  | t6 => exact s.xact_issuesListed (i := .sfrx) rfl rfl
  | t7 => exact s.xact_issuesListed (i := .srx) rfl rfl

theorem csmaStep_issuesListed (l : CsmaLabel) (s : State) : IssuesListed s (csmaStep l s) := by
  cases l with
  | a1 | a2 | a3 | a4 | a7 | a8 | a9 | a10 | a11 | a12 => exact issuesListed_of_trace_eq rfl
  | a5 => exact s.xact_issuesListed (i := .sidle) rfl rfl
  | a6 => exact issuesListed_of_trace_eq (s.rearm_observed trivial).trace_eq

theorem rxStepStep_issuesListed (l : RxStepLabel) (s : State) : IssuesListed s (rxStepStep l s) := by
  cases l with
  | s1 => exact s.xact_issuesListed (i := .rstatusRxbytes) rfl rfl
  | s3 => exact s.xact_issuesListed (i := .rfifo1) rfl rfl
  | s4 => exact issuesListed_of_trace_eq (s.takeFifoByte_observed (handler := False)).trace_eq
  | s2 | s5 => exact issuesListed_of_trace_eq rfl

theorem rxLastStep_issuesListed (l : RxLastLabel) (s : State) : IssuesListed s (rxLastStep l s) := by
  cases l with
  | z1 => exact s.xact_issuesListed (i := .rfifo1) rfl rfl
  | z2 => exact issuesListed_of_trace_eq (s.storeRx_observed (handler := False) s.fifoByte).trace_eq
  | z3 => exact s.xact_issuesListed (i := .sidle) rfl rfl
  | z4 => exact issuesListed_of_trace_eq rfl

theorem rxCompleteStep_issuesListed (l : RxCompleteLabel) (s : State) : IssuesListed s (rxCompleteStep l s) := by
  cases l with
  | k1 =>
    have htrace : (s.handoff s.rxFrame).trace = s.trace ++ [.handoff s.rxFrame] := by
      rw [State.handoff_eq s s.rxFrame_length_le]
    exact issuesListed_of_event htrace rfl
  | k3 => exact s.xact_issuesListed (i := .sfrx) rfl rfl
  | k4 => exact s.xact_issuesListed (i := .srx) rfl rfl
  | k2 | k5 | k6 => exact issuesListed_of_trace_eq rfl

theorem rxServiceStep_issuesListed (l : RxServiceLabel) (s : State) : IssuesListed s (rxServiceStep l s) := by
  cases l with
  | v1 =>
    unfold rxServiceStep
    dsimp only
    split
    · exact rxLastStep_issuesListed .z1 (s.callFrom (.rxService .v2))
    · exact rxStepStep_issuesListed .s1 (s.callFrom .loop)
  | v2 =>
    exact (rxCompleteStep_issuesListed .k1 s.markLenZero).of_trace_eq (congrArg Observed.trace s.markLenZero_observed)

/-- The commands of H2 send nothing themselves (rules R232 to R234). -/
theorem exec_hostIn_trace {i : Instr} {s t : State} (hlink : i.link = some .hostIn) (h : exec i s = .next t) :
    t.trace = s.trace := by
  cases i with
  | hostConfig | hostOther => cases h; rfl
  | hostData rest => cases h; exact (s.loadTx_observed (handler := False) (Config.tagData :: rest)).trace_eq
  | _ => cases hlink

/-- HOST_DISPATCH sends nothing at its own labels (rule R231). -/
theorem exec_hostDispatch_trace {s t : State} (hne : s.seq ≠ .dispatch .h2) (h : exec .hostDispatch s = .next t) :
    t.trace = s.trace := by
  change execHostDispatch s = .next t at h
  unfold execHostDispatch at h
  split at h
  next hseq => exact absurd hseq hne
  all_goals cases h; rfl

/-! ### What a step sends -/

/-- Whatever the action leads to has at most a listed transaction more than `s`. -/
def Action.IssuesListedFrom (s : State) : Action → Prop
  | .outside t => IssuesListed s t
  | .run i u => ∀ t, exec i u = .next t → IssuesListed s t
  | .refuse _ => True

theorem loopAction_issuesListed (k : Nat) {s : State} (hseq : s.seq = .loop) : (loopAction k s).IssuesListedFrom s := by
  unfold loopAction
  split
  next i hpick =>
    intro t h
    obtain ⟨rfl, -⟩ | ⟨rfl, -⟩ | ⟨rfl, -⟩ | ⟨rfl, -⟩ := State.pickService_cases hpick
    · obtain ⟨l, heq⟩ := exec_rxService_eq s
      cases heq.symm.trans h
      exact rxServiceStep_issuesListed l s
    · obtain ⟨l, heq⟩ := exec_csmaService_eq s
      cases heq.symm.trans h
      exact csmaStep_issuesListed l s
    · exact issuesListed_of_trace_eq (exec_hostDispatch_trace (by rw [hseq]; nofun) h)
    · cases h
      exact s.drain_issuesListed
  next => exact issuesListed_of_trace_eq rfl

/-- Inside an operation the discipline gives what its bursts rest on: the tables of CONFIGURE, and payload bytes left
for a top-up (rules R72, R171, R173). -/
theorem opAction_issuesListed {s : State} (hs : Disciplined s) (htag : TagInPlace s) (hin : s.seq.inOperation = true) :
    (opAction s).IssuesListedFrom s := by
  unfold opAction
  cases hseq : s.seq with
  | loop | boot | direct => exact issuesListed_of_trace_eq rfl
  | configure l =>
    intro t h
    cases (exec_configure_of_seq _ hseq).symm.trans h
    obtain ⟨-, -, htables⟩ := (disciplined_configure_iff hseq).mp hs
    exact configureStep_issuesListed s.csc htables
  | writeConfig l =>
    intro t h
    cases (exec_writeConfig_of_seq _ hseq).symm.trans h
    exact writeConfigStep_issuesListed l s
  | transmit l =>
    intro t h
    cases (exec_transmit_of_seq hseq).symm.trans h
    obtain ⟨-, -, hleft⟩ := (disciplined_transmit_iff hseq).mp hs
    exact transmitStep_issuesListed htag fun hl => hleft (.inr hl)
  | rxStep l =>
    intro t h
    cases (exec_rxStep_of_seq hseq).symm.trans h
    exact rxStepStep_issuesListed l s
  | rxLast l =>
    intro t h
    cases (exec_rxLast_of_seq hseq).symm.trans h
    exact rxLastStep_issuesListed l s
  | rxComplete =>
    intro t h
    obtain ⟨l, heq⟩ := exec_rxComplete_eq s
    cases heq.symm.trans h
    exact rxCompleteStep_issuesListed l s
  | rxService =>
    intro t h
    obtain ⟨l, heq⟩ := exec_rxService_eq s
    cases heq.symm.trans h
    exact rxServiceStep_issuesListed l s
  | csma =>
    intro t h
    obtain ⟨l, heq⟩ := exec_csmaService_eq s
    cases heq.symm.trans h
    exact csmaStep_issuesListed l s
  | dispatch l =>
    refine fun t h => issuesListed_of_trace_eq (exec_hostDispatch_trace (fun hh2 => ?_) h)
    rw [hh2] at hin
    cases hin

/-- At `direct` alone the bytes on the bus are not of the TLC's own making (log entry 11). -/
theorem sequencerAction_issuesListed (k : Nat) {s : State} (hs : Disciplined s) (htag : TagInPlace s)
    (hdirect : s.seq ≠ .direct) : (sequencerAction k s).IssuesListedFrom s := by
  cases hin : s.seq.inOperation with
  | true => exact sequencerAction_of_inOperation k hin ▸ opAction_issuesListed hs htag hin
  | false =>
    obtain hseq | hseq | hseq | hseq := Pos.cases_of_not_inOperation hin
    · exact sequencerAction_of_loop k hseq ▸ loopAction_issuesListed k hseq
    · rw [sequencerAction_of_boot k hseq]
      rintro t ⟨⟩
      exact issuesListed_of_trace_eq
        ((s.goto .loop).queueToHost_observed (handler := False) [Config.tagBoot, Config.sentinel]).trace_eq
    · exact absurd hseq hdirect
    · obtain ⟨i, hdec⟩ := decodeHostIn_hostFrame s
      rw [sequencerAction_of_h2 k hseq hdec]
      have hlink : i.link = some .hostIn := decode_link (l := .hostIn) (bytes := s.hostFrame) hdec
      exact fun t h => issuesListed_of_trace_eq (exec_hostIn_trace hlink h)

theorem step_issuesListed {s t : State} {k : Nat} (hm : s.nextMove = .loop k) (hs : Disciplined s) (htag : TagInPlace s)
    (hdirect : s.seq ≠ .direct) (h : step s = .next t) : IssuesListed s t := by
  have hissues : s.nextAction.IssuesListedFrom s := by
    unfold State.nextAction
    rw [hm]
    exact sequencerAction_issuesListed k (s := s.afterMove) hs htag hdirect
  obtain hout | ⟨i, u, hrun, hexec⟩ := step_cases h
  · rwa [hout] at hissues
  · rw [hrun] at hissues
    exact hissues t hexec

end Sys2Proof.Machine

namespace Sys2Proof.Proofs

open Sys2Proof Sys2Proof.Machine

/-- Settles O4: only the sequencer puts a transaction on the bus, and each of its micro-steps sends a listed one. -/
theorem onlyListedTransactionsIssued : Obligations.OnlyListedTransactionsIssued := by
  intro s t hs htag hdirect hstep tx rx htrace
  have hmove : ∃ k, s.nextMove = .loop k := by
    obtain hsame | ⟨e, he, hxact⟩ := traceGrowsByAtMostOne s t hstep
    · rw [hsame] at htrace
      simp at htrace
    · obtain rfl : e = .xact tx rx := by simpa [he] using htrace
      exact hxact rfl
  obtain ⟨k, hm⟩ := hmove
  obtain ⟨i, hdec, hi⟩ := step_issuesListed hm hs htag hdirect hstep tx rx htrace
  exact ⟨i, hdec, isListed_spec hi⟩

/-- Settles O47: the only refusal is the fetch's, and what a step runs answers a next state. -/
theorem stepNeverFaults : Obligations.StepNeverFaults := by
  intro s
  unfold step
  cases hact : s.nextAction with
  | outside t => exact .inl ⟨t, rfl⟩
  | run i u => exact .inl (exec_next i u)
  | refuse r =>
    obtain ⟨hseq, why, hdec, rfl⟩ := moveAction_refuse hact
    exact .inr ⟨hseq, why, hdec, rfl⟩

/-- Settles O48: each of the three positions has its own fetch, whose bytes decode to what the step runs. -/
theorem stepRunsDecodedInstruction : Obligations.StepRunsDecodedInstruction := by
  intro s k i hm
  refine ⟨fun hseq hdec => ?direct, fun hseq hdec => ?h2, fun hseq => ?boot⟩
  case direct => exact step_of_run hm (sequencerAction_of_request (s := s.afterMove) k hseq hdec)
  case h2 => exact step_of_run hm (sequencerAction_of_h2 (s := s.afterMove) k hseq hdec)
  case boot => exact step_of_run hm (sequencerAction_of_boot (s := s.afterMove) k hseq)

end Sys2Proof.Proofs
end

section
/-! PROOFS. The whole run of writeConfig, the micro-steps of TRANSMIT's chunked path, and CSMA_SERVICE on a busy
channel. -/

namespace Sys2Proof.Machine

/-! ## Several transactions in a row (rules R120, R136) -/

theorem Marks.add_add (ms : Marks) (m : Mark) : (ms.add m).add m = ms.add m := by
  cases m <;> rfl

theorem OnlyBusDiffers.of_transacts {tx : List Byte} {s t : State} (h : Transacts tx s t) : OnlyBusDiffers s t := by
  obtain ⟨rx, led0, led1, chip, marks, env, ht, -, hmarks, hmoves, -⟩ := h
  exact ⟨true, rx, _, led0, led1, chip, marks, env, ht, hmarks, hmoves⟩

/-- The informational mark set twice is set once. -/
theorem OnlyBusDiffers.trans {s t u : State} (h : OnlyBusDiffers s t) (h' : OnlyBusDiffers t u) :
    OnlyBusDiffers s u := by
  obtain ⟨_, _, _, _, _, _, marks, _, rfl, hmarks, hmoves⟩ := h
  obtain ⟨csN, rx, trace, led0, led1, chip, marks', env, rfl, hmarks', hmoves'⟩ := h'
  refine ⟨csN, rx, trace, led0, led1, chip, marks', env, rfl, ?_, hmoves'.trans hmoves⟩
  obtain rfl | rfl := hmarks'
  · exact hmarks
  · obtain rfl | rfl := hmarks
    · exact .inr rfl
    · exact .inr (Marks.add_add s.marks .busTimeout)

/-- The return moves the sequencer alone. -/
theorem OnlyBusDiffers.ret {s t : State} (h : OnlyBusDiffers s t) : OnlyBusDiffers s.ret t.ret := by
  obtain ⟨csN, rx, trace, led0, led1, chip, marks, env, rfl, hmarks, hmoves⟩ := h
  exact ⟨csN, rx, trace, led0, led1, chip, marks, env, rfl, hmarks, hmoves⟩

/-- A transaction shows the bytes that it sends (rules R7, R120). -/
theorem State.xact_outward (s : State) (tx : List Byte) :
    outward (s.xact tx).trace = outward s.trace ++ [sends tx] := by
  simp [outward, Event.outward, sends]

/-! ## writeConfig (rule R134) -/

/-- What entry `i` of a table shows to the outside. -/
def entryEvent (table : List Byte) (i : Fin 39) : Event :=
  sends [BitVec.ofNat 8 (cfgAddr i).val, table.getD i.val 0]

/-- An entry of a whole table is the transaction of its address and its value. -/
theorem State.writeEntry_eq_xact {s : State} {i : Fin 39} (h : s.cfgTable.length = 39) :
    s.writeEntry i = s.xact [BitVec.ofNat 8 (cfgAddr i).val, s.cfgTable.getD i.val 0] := by
  have hlt : i.val < s.cfgTable.length := by omega
  rw [State.writeEntry_in s hlt, State.wreg_eq_xact, hdrSingleWrite_cfg, List.getD_eq_getElem _ _ hlt]

/-- After entry `i` comes entry `i + 1`. -/
theorem wcAfterEntry_of_succ {i j : Fin 39} (h : i.val + 1 = j.val) : wcAfterEntry i = .entry j := by
  have hlt : i.val + 1 < 39 := h ▸ j.isLt
  obtain rfl : j = ⟨i.val + 1, hlt⟩ := Fin.ext h.symm
  exact dif_pos hlt

theorem wcAfterEntry_last {i : Fin 39} (h : i.val = 38) : wcAfterEntry i = .done :=
  dif_neg (by omega)

/-- The micro-step of one entry of a whole table: its transaction, and on to the next label. -/
theorem writeConfigStep_entry (i : Fin 39) {s : State} (h : s.cfgTable.length = 39) :
    outward (writeConfigStep (.entry i) s).trace = outward s.trace ++ [entryEvent s.cfgTable i] ∧
      OnlyBusDiffers s.ret (writeConfigStep (.entry i) s).ret ∧
      (writeConfigStep (.entry i) s).cfgTable = s.cfgTable ∧
      (writeConfigStep (.entry i) s).seq = .writeConfig (wcAfterEntry i) := by
  rw [writeConfigStep, State.writeEntry_eq_xact h]
  exact ⟨s.xact_outward _, (OnlyBusDiffers.of_transacts (s.xact_transacts _)).ret, rfl, rfl⟩

theorem drop_finRange (i : Fin 39) :
    (List.finRange 39).drop i.val = i :: (List.finRange 39).drop (i.val + 1) := by
  rw [List.drop_eq_getElem_cons (by simp)]
  simp

/-- From entry `i` on: the entries that are left are written in order, and the last micro-step returns. -/
theorem writeConfig_run_from (later : Nat) {i : Fin 39} (hi : i.val + later = 38) {s : State}
    (h : s.cfgTable.length = 39) :
    ∃ t, runInstr (.writeConfig s.cfgTable) (later + 1) (writeConfigStep (.entry i) s) = .next t ∧
      outward t.trace = outward s.trace ++ ((List.finRange 39).drop i.val).map (entryEvent s.cfgTable) ∧
      OnlyBusDiffers s.ret t := by
  induction later generalizing i s with
  | zero =>
    obtain ⟨hshown, hbus, -, hseq⟩ := writeConfigStep_entry i h
    rw [wcAfterEntry_last (by omega)] at hseq
    refine ⟨_, runInstr_of_next (exec_writeConfig_of_seq _ hseq), ?_, hbus⟩
    rw [drop_finRange, List.drop_of_length_le (by simp; omega)]
    exact hshown
  | succ later ih =>
    obtain ⟨hshown, hbus, htable, hseq⟩ := writeConfigStep_entry i h
    obtain ⟨j, hj⟩ : ∃ j : Fin 39, i.val + 1 = j.val := ⟨⟨i.val + 1, by omega⟩, rfl⟩
    rw [wcAfterEntry_of_succ hj] at hseq
    obtain ⟨t, hrun, htrace, hrest⟩ := ih (i := j) (by omega) (htable ▸ h)
    refine ⟨t, (runInstr_of_next (exec_writeConfig_of_seq _ hseq)).trans (htable ▸ hrun), ?_, hbus.trans hrest⟩
    rw [htrace, hshown, htable, drop_finRange i, hj, List.append_assoc]
    rfl

/-- Outside its own positions writeConfig is started, with entry 0 and its operand as the table (log entry 7). -/
theorem exec_writeConfig_start (table : List Byte) {s : State} (h : ∀ l, s.seq ≠ .writeConfig l) :
    exec (.writeConfig table) s = .next (writeConfigStep (.entry 0) ({ s with cfgTable := table }.callFrom s.seq)) := by
  change execWriteConfig table s = _
  unfold execWriteConfig
  split
  next l hseq => exact absurd hseq (h l)
  next => rfl

/-! ## TRANSMIT's chunked path (rules R171, R173) -/

/-- The occupancy is the byte that came back after the header (rule R131; no masking, log entry 22). -/
theorem State.occupancy_of_rx {s : State} {b : Byte} (h : s.rx[1]? = some b) : s.occupancy = b.toNat := by
  have hbyte : s.statusByte0 = b := by
    unfold State.statusByte0 State.rxAt
    rw [List.getD_eq_getElem?_getD, h]
    rfl
  have hmask : ∀ x : Byte, x &&& Config.occMask = x := fun _ => BitVec.and_allOnes
  rw [State.occupancy, hbyte, hmask]

/-- With room in the FIFO T4'b sends and counts a top-up (rule R173). -/
theorem State.refill_of_room {s : State} (h : s.occupancy ≤ 32) :
    s.refill = { s.xact s.topUp with txSent := s.txSent + s.chunkSize } :=
  if_pos h

theorem State.refill_of_full {s : State} (h : 32 < s.occupancy) : s.refill = s :=
  if_neg (Nat.not_le.mpr h)

/-! ## CSMA_SERVICE on a busy channel (rules R224, R226) -/

/-- A micro-step of CSMA_SERVICE at its label, in a run. -/
theorem runInstr_csma_of_seq {n : Nat} {s : State} {l : CsmaLabel} (h : s.seq = .csma l) :
    runInstr .csmaService (n + 1) s = runInstr .csmaService n (csmaStep l s) :=
  runInstr_of_next (exec_csmaService_of_seq h)

/-- A1 with no backoff: the sample is next. -/
theorem csmaStep_a1_of_idle {s : State} (h : s.backingOff = false) : csmaStep .a1 s = s.goto (.csma .a2) := by
  simp [csmaStep, h]

/-- A3 with a sample that is not the clear level: the backoff is next. -/
theorem csmaStep_a3_of_busy {s : State} (h : s.ccaSample ≠ Config.ccaClearLevel) :
    csmaStep .a3 s = s.goto (.csma .a8) := by
  simp [csmaStep, State.channelClear, h]

/-- A8 to A12 in a row: the backoff is armed with the period of `backoff_byte` (rules R99 f, R224). -/
theorem runInstr_csma_armBackoff {s : State} (h : s.seq = .csma .a8) :
    runInstr .csmaService 4 s =
      .next
        ({ s with backoffElapsed := 0, backoffPeriod := periodOf s.backoffByte, backingOff := true }.goto .loop) := by
  rw [runInstr_csma_of_seq h, runInstr_csma_of_seq rfl, runInstr_csma_of_seq rfl, runInstr_csma_of_seq rfl]
  rfl

end Sys2Proof.Machine

namespace Sys2Proof.Proofs

open Sys2Proof Sys2Proof.Machine

/-- Settles O15: the start is the micro-step of entry 0, and from there the run writes every entry that is left. -/
theorem writeConfigWholeRun : Obligations.WriteConfigWholeRun := by
  intro table s hlen hout
  have hstart := exec_writeConfig_start table hout
  refine ⟨⟨_, s.xact_transacts _, ?_⟩, ?_⟩
  · rw [hstart, writeConfigStep, State.writeEntry_eq_xact hlen, cfgAddr_first, wcAfterEntry_of_succ (j := 1) rfl]
    rfl
  · obtain ⟨t, hrun, htrace, hbus⟩ :=
      writeConfig_run_from 38 (i := 0) rfl (s := { s with cfgTable := table }.callFrom s.seq) hlen
    exact ⟨t, (runInstr_of_next hstart).trans hrun, htrace, hbus⟩

/-- Settles O17: each label is one transaction or none, and at T4'b the occupancy read before decides. -/
theorem transmitChunkedPathSteps : Obligations.TransmitChunkedPathSteps := by
  intro s
  refine ⟨fun h => ⟨_, s.xact_transacts _, exec_transmit_of_seq h⟩,
    fun h => ⟨_, s.xact_transacts _, exec_transmit_of_seq h⟩, exec_transmit_of_seq,
    fun h => ⟨_, s.xact_transacts _, exec_transmit_of_seq h⟩, ?full, ?room⟩
  case full =>
    intro b h hrx hb
    rw [exec_transmit_of_seq h, transmitStep, State.refill_of_full (by rwa [State.occupancy_of_rx hrx])]
    rfl
  case room =>
    intro b h hrx hb
    refine ⟨_, s.xact_transacts _, ?_⟩
    rw [exec_transmit_of_seq h, transmitStep, State.refill_of_room (by rwa [State.occupancy_of_rx hrx])]
    rfl

/-- Settles O35: A1, A2 and A3 lead to A8, and from A8 on the backoff is armed. -/
theorem csmaBusyArmsBackoff : Obligations.CsmaBusyArmsBackoff := by
  intro s hseq hidle hbusy
  have hA3 : csmaStep .a3 ({ s with ccaSample := s.ccaIn }.goto (.csma .a3)) =
      { s with ccaSample := s.ccaIn }.goto (.csma .a8) := csmaStep_a3_of_busy hbusy
  rw [runInstr_of_next (exec_csmaService_of_loop hseq), csmaStep_a1_of_idle hidle, runInstr_csma_of_seq rfl]
  change runInstr .csmaService 5 ({ s with ccaSample := s.ccaIn }.goto (.csma .a3)) = _
  rw [runInstr_csma_of_seq rfl, hA3, runInstr_csma_armBackoff rfl, ← hseq]
  rfl

end Sys2Proof.Proofs
end

section
/-! PROOFS. Each strobe, write and read is one transaction of the bytes its rule prints, and what a read returns. -/

namespace Sys2Proof.Machine

/-! ## The bytes a bus instruction sends (rules R91 to R95, R121 to R133) -/

/-- A burst-read header sets both flag bits beside any chip address (rule R95). -/
theorem hdrBurstRead_chipAddr (a : ChipAddr) : hdrBurstRead (a.zeroExtend 8) = 0xC0#8 ||| a.zeroExtend 8 := by
  revert a
  decide

/-- A register write sends the bare address and the value (rules R93, R129). -/
theorem encode_wreg (a : Fin 41) (v : Byte) : encode (.wreg a v) = [BitVec.ofNat 8 a.val, v] :=
  congrArg (fun h => [h, v]) (hdrSingleWrite_cfg a)

/-- A burst read sends its header and a fill byte for each byte it reads (rules R95, R133). -/
theorem encode_rburst (a : ChipAddr) (n : Nat) :
    encode (.rburst a n) = (0xC0#8 ||| a.zeroExtend 8) :: List.replicate n 0x00 :=
  congrArg (fun h => h :: List.replicate n 0x00) (hdrBurstRead_chipAddr a)

/-- The status reads send their header and two fill bytes (rules R94, R131). -/
theorem encode_rstatus {c : Instr × Byte}
    (h : c ∈ [(.rstatusMarcstate, 0xF5), (.rstatusTxbytes, 0xFA), (.rstatusRxbytes, 0xFB)]) :
    c.1.link = some .chipBus ∧ encode c.1 = [c.2, 0x00, 0x00] := by
  simp only [List.mem_cons, List.not_mem_nil, or_false] at h
  rcases h with rfl | rfl | rfl <;> exact ⟨rfl, rfl⟩

/-- A bus instruction with this encoding answers a next state, one transaction of these bytes away (rule R120). -/
theorem exec_transacts {i : Instr} {tx : List Byte} (s : State) (hlink : i.link = some .chipBus) (htx : encode i = tx) :
    ∃ t : State, exec i s = .next t ∧ Transacts tx s t :=
  htx ▸ ⟨_, exec_of_chipBus s hlink, s.xact_transacts _⟩

/-! ## What a read returns (rules R120, R131, R132) -/

/-- Where a byte was received, the result read there is that byte and no free one. -/
theorem State.rx_getElem?_rxAt {s : State} {k : Nat} (h : k < s.rx.length) : s.rx[k]? = some (s.rxAt k) := by
  rw [State.rxAt, List.getD_eq_getElem _ _ h, List.getElem?_eq_getElem h]

/-- A transaction receives a byte for every byte it sends. -/
theorem Transacts.rx_length {tx : List Byte} {s t : State} (h : Transacts tx s t) : t.rx.length = tx.length := by
  obtain ⟨rx, led0, led1, chip, marks, env, rfl, hlen, -⟩ := h
  exact hlen

/-- A bus instruction with this encoding returns what it received at each place where it sent a byte. -/
theorem exec_transacts_returns {i : Instr} {tx : List Byte} (s : State) (hlink : i.link = some .chipBus)
    (htx : encode i = tx) :
    ∃ t : State, exec i s = .next t ∧ Transacts tx s t ∧ ∀ k < tx.length, t.rx[k]? = some (t.rxAt k) := by
  obtain ⟨t, hexec, htrans⟩ := exec_transacts s hlink htx
  exact ⟨t, hexec, htrans, fun k hk => State.rx_getElem?_rxAt (htrans.rx_length ▸ hk)⟩

end Sys2Proof.Machine

namespace Sys2Proof.Proofs

open Sys2Proof Sys2Proof.Machine

/-- Settles O5: each strobe's encoding is its one header byte. -/
theorem strobesComplete : Obligations.StrobesComplete := fun s =>
  ⟨exec_transacts s rfl rfl, exec_transacts s rfl rfl, exec_transacts s rfl rfl, exec_transacts s rfl rfl,
    exec_transacts s rfl rfl, exec_transacts s rfl rfl, exec_transacts s rfl rfl⟩

/-- Settles O6: a write's encoding is its header and its data. -/
theorem writesComplete : Obligations.WritesComplete := fun s =>
  ⟨fun a v => exec_transacts s rfl (encode_wreg a v), fun _ => exec_transacts s rfl rfl,
    fun _ => exec_transacts s rfl rfl⟩

/-- Settles O7: a read's encoding has a byte for each byte of its result, which is thus a received one. -/
theorem readsComplete : Obligations.ReadsComplete := by
  intro s
  refine ⟨?rfifo1, fun a n => exec_transacts s rfl (encode_rburst a n), ?rstatus⟩
  case rfifo1 =>
    obtain ⟨t, hexec, htrans, hrx⟩ := exec_transacts_returns (i := .rfifo1) (tx := [0xBF, 0x00]) s rfl rfl
    exact ⟨t, hexec, htrans, hrx 1 (by decide)⟩
  case rstatus =>
    intro c hc
    obtain ⟨hlink, htx⟩ := encode_rstatus hc
    obtain ⟨t, hexec, htrans, hrx⟩ := exec_transacts_returns s hlink htx
    exact ⟨t, hexec, htrans, hrx 1 (by simp), hrx 2 (by simp)⟩

end Sys2Proof.Proofs
end

section
/-! PROOFS. The tables of CONFIGURE, its start, masking, re-arming and end, and its whole run. -/

namespace Sys2Proof.Machine

/-! ## The tables (rules R150 to R152) -/

/-- Entry `i` of the register table is the profile's value there. -/
theorem cfgTableOf_getElem? (csc : Byte) (i : Fin 39) :
    (cfgTableOf csc)[i.val]? = some (profile (kindOf csc) (Config.chanOf csc) i) := by
  simp [cfgTableOf]

theorem profile_idxChan (k : Kind) (c : Byte) : profile k c Config.idxChan = Config.profileChan c :=
  if_pos rfl

theorem profile_of_ne_idxChan {i : Fin 39} (k : Kind) (c : Byte) (h : i ≠ Config.idxChan) :
    profile k c i = if Config.idxMod i then Config.profileMod k i else Config.profileConst i :=
  if_neg h

/-- The level that a code's kind has at `k` is the power table's entry behind the header (rules R150, R152). -/
theorem paTableOf_getElem?_succ (csc : Byte) (k : Fin 8) :
    (paTableOf csc)[k.val + 1]? = some (if csc.toNat ≤ 7 then Config.paFsk k else Config.paOok k) := by
  unfold paTableOf kindOf
  by_cases h : csc.toNat ≤ 7 <;> simp [h, paLevels]

/-! ## Starting CONFIGURE (rule R153 C0; log entry 7) -/

/-- The state that CONFIGURE's start leads to: the way back is kept, and both tables are built. -/
def State.configureStarted (s : State) (csc : Byte) : State :=
  { s with caller := s.seq, csc := csc, cfgTable := cfgTableOf csc, paTable := paTableOf csc, seq := .configure .c1 }

/-- Outside its own positions CONFIGURE is started. -/
theorem exec_configure_start (csc : Byte) {s : State} (h : ∀ l, s.seq ≠ .configure l) :
    exec (.configure csc) s = .next (s.configureStarted csc) := by
  change execConfigure csc s = _
  unfold execConfigure
  split
  next l hseq => exact absurd hseq (h l)
  next => rfl

/-- C1 masks the interrupt (rule R153). -/
theorem exec_configure_c1 (csc : Byte) {s : State} (h : s.seq = .configure .c1) :
    exec (.configure csc) s = .next { s with irqEn := false, seq := .configure .c2 } :=
  exec_configure_of_seq csc h

/-! ## Re-arming with a known fate of the remembered edge (rule R29) -/

/-- With no remembered edge re-arming unmasks and does nothing else. -/
theorem State.rearm_of_no_edge {s : State} (h : s.edgePending = false) : s.rearm = { s with irqEn := true } := by
  simp [State.rearm, h]

/-- The state with the interrupt unmasked and the latch empty, where `edge` says whether the handler has run. -/
def State.rearmedAs (s : State) (edge : Bool) : State :=
  { s with irqEn := true, edgePending := false, newPacket := edge || s.newPacket, rxActive := edge || s.rxActive,
           ledRx := edge || s.ledRx }

theorem OnlyBusDiffers.refl (s : State) : OnlyBusDiffers s s :=
  ⟨_, _, _, _, _, _, _, _, rfl, .inl rfl, rfl⟩

/-- The bus changes neither CONFIGURE's operand and tables nor the edge latch. -/
theorem OnlyBusDiffers.frame {s t : State} (h : OnlyBusDiffers s t) :
    t.csc = s.csc ∧ t.cfgTable = s.cfgTable ∧ t.paTable = s.paTable ∧ t.edgePending = s.edgePending := by
  obtain ⟨_, _, _, _, _, _, _, _, rfl, -, -⟩ := h
  exact ⟨rfl, rfl, rfl, rfl⟩

/-- Re-arming delivers an edge or none, and only a remembered one; it moves the choice script on and nothing else. -/
theorem State.rearm_eq_rearmedAs (s : State) :
    ∃ edge, (s.edgePending = false → edge = false) ∧ OnlyBusDiffers (s.rearmedAs edge) s.rearm := by
  cases h : s.edgePending with
  | false =>
    have hsame : s.rearm = s.rearmedAs false := by simp [State.rearm_of_no_edge h, State.rearmedAs, h]
    exact ⟨false, fun _ => rfl, hsame ▸ .refl _⟩
  | true =>
    refine ⟨s.nextChoice, nofun, ?_⟩
    rw [State.rearm_of_pending h]
    exact ⟨_, _, _, _, _, _, _, _, rfl, .inl rfl, rfl⟩

theorem State.rearm_trace (s : State) : s.rearm.trace = s.trace := by
  obtain ⟨-, h⟩ | ⟨-, -, h⟩ | ⟨-, -, h⟩ := s.rearm_cases <;> rw [h] <;> rfl

theorem OnlyBusDiffers.rearmedAs {s t : State} (h : OnlyBusDiffers s t) (edge : Bool) :
    OnlyBusDiffers (s.rearmedAs edge) (t.rearmedAs edge) := by
  obtain ⟨csN, rx, trace, led0, led1, chip, marks, env, rfl, hmarks, hmoves⟩ := h
  exact ⟨csN, rx, trace, led0, led1, chip, marks, env, rfl, hmarks, hmoves⟩

/-- Where two states differ in the position and the bus side alone, they still do after re-arming and returning (rule R153
C13, C14), once the fate of the remembered edge is known. -/
theorem OnlyBusDiffers.rearm_ret {s t : State} (h : OnlyBusDiffers s.ret t.ret) :
    ∃ edge, (s.edgePending = false → edge = false) ∧ OnlyBusDiffers (s.rearmedAs edge).ret t.rearm.ret := by
  obtain ⟨-, -, -, hpending⟩ := h.frame
  obtain ⟨edge, hedge, hrearm⟩ := t.rearm_eq_rearmedAs
  exact ⟨edge, fun hs => hedge (hpending.trans hs), (h.rearmedAs edge).trans hrearm.ret⟩

/-! ## Several micro-steps of CONFIGURE in a row (rules R153 to R156) -/

/-- The sequencer stands at label `l` of CONFIGURE with operand `csc`, its tables built. -/
structure State.InConfigure (csc : Byte) (l : CfgLabel) (s : State) : Prop where
  seq : s.seq = .configure l
  operand : s.csc = csc
  tables : s.TablesBuilt

/-- `n` micro-steps lead CONFIGURE from label `l` to label `l'`; they show `events` to the outside, and beside the position
they change the bus side alone. -/
def ConfigureLeg (csc : Byte) (n : Nat) (l l' : CfgLabel) (events : List Event) : Prop :=
  ∀ s : State, s.InConfigure csc l →
    ∃ t : State, t.InConfigure csc l' ∧ (∀ m, runInstr (.configure csc) (m + n) s = runInstr (.configure csc) m t) ∧
      outward t.trace = outward s.trace ++ events ∧ OnlyBusDiffers s.ret t.ret

theorem ConfigureLeg.trans {csc : Byte} {n n' : Nat} {l l' l'' : CfgLabel} {events events' : List Event}
    (h : ConfigureLeg csc n l l' events) (h' : ConfigureLeg csc n' l' l'' events') :
    ConfigureLeg csc (n' + n) l l'' (events ++ events') := by
  intro s hs
  obtain ⟨t, ht, hrun, htrace, hbus⟩ := h s hs
  obtain ⟨u, hu, hrun', htrace', hbus'⟩ := h' t ht
  refine ⟨u, hu, fun m => ?_, ?_, hbus.trans hbus'⟩
  · rw [← Nat.add_assoc, hrun, hrun']
  · rw [htrace', htrace, List.append_assoc]

/-- What changes the bus side alone leaves CONFIGURE's operand and its tables. -/
theorem State.InConfigure.of_bus {csc : Byte} {l l' : CfgLabel} {s t : State} (h : s.InConfigure csc l)
    (hbus : OnlyBusDiffers s.ret t.ret) (hseq : t.seq = .configure l') : t.InConfigure csc l' := by
  obtain ⟨hcsc, hcfg, hpa, -⟩ := hbus.frame
  exact ⟨hseq, hcsc.trans h.operand, h.tables.of_same hcsc hcfg hpa⟩

/-- A label whose micro-step changes the bus side and moves on is a leg of one micro-step. -/
theorem ConfigureLeg.of_step {csc : Byte} {l l' : CfgLabel} {events : List Event}
    (h : ∀ s : State, s.InConfigure csc l → ∃ u : State, configureStep csc l s = u.goto (.configure l') ∧
      outward u.trace = outward s.trace ++ events ∧ OnlyBusDiffers s u) :
    ConfigureLeg csc 1 l l' events := by
  intro s hs
  obtain ⟨u, hstep, htrace, hbus⟩ := h s hs
  have hnext : exec (.configure csc) s = .next (u.goto (.configure l')) :=
    (exec_configure_of_seq csc hs.seq).trans (congrArg _ hstep)
  exact ⟨u.goto (.configure l'), hs.of_bus hbus.ret rfl, fun _ => runInstr_of_next hnext, htrace, hbus.ret⟩

/-- A label that is one transaction. -/
theorem ConfigureLeg.of_xact {csc : Byte} {l l' : CfgLabel} (tx : List Byte)
    (h : ∀ s : State, s.InConfigure csc l → configureStep csc l s = (s.xact tx).goto (.configure l')) :
    ConfigureLeg csc 1 l l' [sends tx] :=
  .of_step fun s hs => ⟨_, h s hs, s.xact_outward tx, .of_transacts (s.xact_transacts tx)⟩

/-- A label that is one settle delay (rule R154). -/
theorem ConfigureLeg.of_delay {csc : Byte} {l l' : CfgLabel} (d : Settle)
    (h : ∀ s : State, configureStep csc l s = (s.delay d).goto (.configure l')) :
    ConfigureLeg csc 1 l l' [.delay d] :=
  .of_step fun s _ => ⟨_, h s, List.map_append, _, _, _, _, _, _, _, _, rfl, .inl rfl, rfl⟩

/-! ### C2 to C4: the chip's reset -/

theorem configureLeg_reset (csc : Byte) :
    ConfigureLeg csc 3 .c2 (.c5 0) [.delay .resetPulse, sends [0x30], .delay .postReset] :=
  have hC2 : ConfigureLeg csc 1 .c2 .c3 [.delay .resetPulse] := .of_delay _ fun _ => rfl
  have hC3 : ConfigureLeg csc 1 .c3 .c4 [sends [0x30]] := .of_xact _ fun _ _ => rfl
  have hC4 : ConfigureLeg csc 1 .c4 (.c5 0) [.delay .postReset] := .of_delay _ fun _ => rfl
  (hC2.trans hC3).trans hC4

/-! ### C5: the 39 register writes (rules R134, R151) -/

/-- After C5.i comes C5.(i + 1). -/
theorem cfgAfterEntry_of_succ {i j : Fin 39} (h : i.val + 1 = j.val) : cfgAfterEntry i = .c5 j := by
  have hlt : i.val + 1 < 39 := h ▸ j.isLt
  obtain rfl : j = ⟨i.val + 1, hlt⟩ := Fin.ext h.symm
  exact dif_pos hlt

theorem cfgAfterEntry_last {i : Fin 39} (h : i.val = 38) : cfgAfterEntry i = .c6 :=
  dif_neg (by omega)

theorem configureLeg_entry (csc : Byte) (i : Fin 39) :
    ConfigureLeg csc 1 (.c5 i) (cfgAfterEntry i) [entryEvent (cfgTableOf csc) i] :=
  .of_xact _ fun s hs => by
    have htable : s.cfgTable = cfgTableOf csc := hs.tables.1.trans (congrArg cfgTableOf hs.operand)
    rw [configureStep, State.writeEntry_eq_xact (by rw [htable, cfgTableOf_length]), htable]

/-- From C5.i on: the entries that are left are written in order. -/
theorem configureLeg_entries_from (csc : Byte) (later : Nat) {i : Fin 39} (hi : i.val + later = 38) :
    ConfigureLeg csc (later + 1) (.c5 i) .c6
      (((List.finRange 39).drop i.val).map (entryEvent (cfgTableOf csc))) := by
  have hentry := configureLeg_entry csc i
  induction later generalizing i with
  | zero =>
    rw [cfgAfterEntry_last (by omega)] at hentry
    rwa [drop_finRange, List.drop_of_length_le (by simp; omega)]
  | succ later ih =>
    obtain ⟨j, hj⟩ : ∃ j : Fin 39, i.val + 1 = j.val := ⟨⟨i.val + 1, by omega⟩, rfl⟩
    rw [cfgAfterEntry_of_succ hj] at hentry
    rw [drop_finRange, hj]
    exact hentry.trans (ih (by omega) (configureLeg_entry csc j))

/-- What entry `i` of CONFIGURE's own table shows is its profile's value. -/
theorem entryEvent_cfgTableOf (csc : Byte) (i : Fin 39) :
    entryEvent (cfgTableOf csc) i =
      sends [BitVec.ofNat 8 (cfgAddr i).val, profile (kindOf csc) (Config.chanOf csc) i] := by
  rw [entryEvent, List.getD_eq_getElem?_getD, cfgTableOf_getElem?, Option.getD_some]

/-! ### C6 to C12: the power table, the calibration, the RX start -/

theorem configureLeg_paTable (csc : Byte) : ConfigureLeg csc 1 .c6 .c7 [sends (0x7E :: paLevels (kindOf csc))] :=
  .of_xact _ fun s hs => by
    have htable : s.paTable = paTableOf csc := hs.tables.2.trans (congrArg paTableOf hs.operand)
    rw [configureStep, htable]
    rfl

theorem configureLeg_calibrate (csc : Byte) :
    ConfigureLeg csc 6 .c7 .c13
      [sends [0x36], sends [0x33], .delay .postCal, sends [0x36], sends [0x3A], sends [0x34]] :=
  have hC7 : ConfigureLeg csc 1 .c7 .c8 [sends [0x36]] := .of_xact _ fun _ _ => rfl
  have hC8 : ConfigureLeg csc 1 .c8 .c9 [sends [0x33]] := .of_xact _ fun _ _ => rfl
  have hC9 : ConfigureLeg csc 1 .c9 .c10 [.delay .postCal] := .of_delay _ fun _ => rfl
  have hC10 : ConfigureLeg csc 1 .c10 .c11 [sends [0x36]] := .of_xact _ fun _ _ => rfl
  have hC11 : ConfigureLeg csc 1 .c11 .c12 [sends [0x3A]] := .of_xact _ fun _ _ => rfl
  have hC12 : ConfigureLeg csc 1 .c12 .c13 [sends [0x34]] := .of_xact _ fun _ _ => rfl
  ((((hC7.trans hC8).trans hC9).trans hC10).trans hC11).trans hC12

/-- C2 to C12 show all that CONFIGURE shows. -/
theorem configureLeg_shown (csc : Byte) : ConfigureLeg csc 49 .c2 .c13 (configureTrace csc) := by
  have hentries := configureLeg_entries_from csc 38 (i := 0) rfl
  rw [funext (entryEvent_cfgTableOf csc)] at hentries
  exact ((configureLeg_reset csc).trans hentries).trans ((configureLeg_paTable csc).trans (configureLeg_calibrate csc))

/-! ### The counts of the trace -/

theorem configureTrace_length (csc : Byte) : (configureTrace csc).length = 49 := by
  simp [configureTrace]

theorem configureTrace_xacts (csc : Byte) : (configureTrace csc).countP Event.isXact = 46 := by
  have hwrites : ∀ f : Fin 39 → List Byte, ((List.finRange 39).map fun i => sends (f i)).countP Event.isXact = 39 := by
    intro f
    rw [List.countP_eq_length.mpr (by simp [sends, Event.isXact]), List.length_map, List.length_finRange]
  rw [configureTrace, List.countP_append, List.countP_append, hwrites]
  rfl

end Sys2Proof.Machine

namespace Sys2Proof.Proofs

open Sys2Proof Sys2Proof.Machine

/-- Settles O13: C0 and C1 lead to C2, the legs from there to C13 show the whole trace, and C13 and C14 re-arm and
return. -/
theorem configureWholeRun : Obligations.ConfigureWholeRun := by
  intro csc s hout
  have hC0 := exec_configure_start csc hout
  have hC1 := exec_configure_c1 csc (s := s.configureStarted csc) rfl
  obtain ⟨t, ht, hrun, htrace, hbus⟩ :=
    configureLeg_shown csc { s.configureStarted csc with irqEn := false, seq := .configure .c2 } ⟨rfl, rfl, rfl, rfl⟩
  have hC13 : exec (.configure csc) t = .next (t.rearm.goto (.configure .c14)) := exec_configure_of_seq csc ht.seq
  have hC14 : exec (.configure csc) (t.rearm.goto (.configure .c14)) = .next t.rearm.ret :=
    exec_configure_of_seq (l := .c14) csc rfl
  have hwhole : runInstr (.configure csc) 53 s = .next t.rearm.ret :=
    calc runInstr (.configure csc) 53 s
      _ = runInstr (.configure csc) 52 (s.configureStarted csc) := runInstr_of_next hC0
      _ = runInstr (.configure csc) 2 t := (runInstr_of_next hC1).trans (hrun 2)
      _ = runInstr (.configure csc) 1 (t.rearm.goto (.configure .c14)) := runInstr_of_next hC13
      _ = .next t.rearm.ret := runInstr_of_next hC14
  have hshown : outward t.rearm.ret.trace = outward s.trace ++ configureTrace csc :=
    (congrArg outward t.rearm_trace).trans htrace
  obtain ⟨edge, hedge, hframe⟩ := hbus.rearm_ret
  exact ⟨_, hwhole, hshown, configureTrace_xacts csc, configureTrace_length csc, edge, hedge, hframe⟩

/-- Settles O12: the profile's two tests decide what an entry depends on, and the tables are its values in order. -/
theorem configurationTables : Obligations.ConfigurationTables := by
  refine ⟨fun _ => rfl, fun csc => ⟨cfgTableOf_length csc, cfgTableOf_getElem? csc⟩, ?fixed, ?atChan, ?offChan,
    fun csc => ⟨paTableOf_length csc, rfl, paTableOf_getElem?_succ csc⟩⟩
  case fixed =>
    intro k k' c c' i
    by_cases hchan : i = Config.idxChan
    · exact .inl hchan
    · by_cases hmod : Config.idxMod i = true
      · exact .inr (.inl hmod)
      · rw [profile_of_ne_idxChan k c hchan, profile_of_ne_idxChan k' c' hchan, if_neg hmod, if_neg hmod]
        exact .inr (.inr rfl)
  case atChan => exact fun k k' c => (profile_idxChan k c).trans (profile_idxChan k' c).symm
  case offChan =>
    intro k c c' i
    by_cases hchan : i = Config.idxChan
    · exact .inl hchan
    · exact .inr ((profile_of_ne_idxChan k c hchan).trans (profile_of_ne_idxChan k c' hchan).symm)

/-- Settles O14: CONFIGURE's start is C0, and at a label it runs that label; C13 needs that there is no edge to deliver. That
C14 returns to the caller is log entry 8. -/
theorem configureStartMaskRearm : Obligations.ConfigureStartMaskRearm := by
  intro csc s
  refine ⟨exec_configure_start csc, exec_configure_of_seq csc, exec_configure_c1 csc, ?_, exec_configure_of_seq csc⟩
  intro hseq hedge
  rw [exec_configure_of_seq csc hseq, configureStep, State.rearm_of_no_edge hedge]
  rfl

end Sys2Proof.Proofs
end

section
/-! PROOFS. TRANSMIT: each of its micro-steps keeps the account of what stands in the TX FIFO, whatever the outside does in
between, and changes nothing but the bus side and its own counter. -/

namespace Sys2Proof.Machine

/-! ## What a transaction puts into the TX FIFO (rules R38, R130) -/

/-- A transaction puts its bytes into the TX FIFO where its header is the FIFO's burst write. -/
theorem State.xact_fifoData (s : State) (h : Byte) (d : List Byte) :
    fifoData (s.xact (h :: d)).trace = fifoData s.trace ++ if h = hdrFifoWb then d else [] := by
  simp [fifoData, Event.fifoData]

theorem State.strobe_fifoData (s : State) (a : Byte) : fifoData (s.strobe a).trace = fifoData s.trace := by
  rw [State.strobe, State.xact_fifoData, ite_self, List.append_nil]

theorem State.rstatus_txbytes_fifoData (s : State) :
    fifoData (s.rstatus Config.codes.aTxbytes).trace = fifoData s.trace := by
  rw [State.rstatus, State.xact_fifoData, if_neg (by decide), List.append_nil]

/-- With the tag in place a burst of TXBUF from its start fills the TX FIFO with the bytes after the tag (rules R21,
R171). -/
theorem TagInPlace.burst_fifoData {s : State} (h : TagInPlace s) (n : Nat) :
    fifoData (s.xact (s.readRun .txbuf 0 (n + 1))).trace = fifoData s.trace ++ s.readRun .txbuf 1 n := by
  rw [h.readRun n, encode, State.xact_fifoData, if_pos rfl]

/-! ## What TRANSMIT reads of the state: TXBUF and `tx_sent` -/

theorem State.readRun_of_txbuf_eq {s t : State} (h : t.txbuf = s.txbuf) (i n : Nat) :
    t.readRun .txbuf i n = s.readRun .txbuf i n :=
  State.readRun_congr fun k _ => congrArg (fun m => (Memory.read m (i + k)).getD (Config.unwrittenByte .txbuf (i + k))) h

theorem State.txLength_of_txbuf_eq {s t : State} (h : t.txbuf = s.txbuf) : t.txLength = s.txLength :=
  congrArg (fun m => ((Memory.read m 1).getD (Config.unwrittenByte .txbuf 1)).toNat) h

theorem TagInPlace.of_txbuf_eq {s t : State} (h : TagInPlace s) (hbuf : t.txbuf = s.txbuf) : TagInPlace t :=
  (congrArg (fun m => (Memory.read m 0).getD (Config.unwrittenByte .txbuf 0)) hbuf).trans h

/-- TRANSMIT's account is told by its position, the trace, TXBUF and `tx_sent`. -/
theorem TxProgress.of_same {base : List Byte} {s t : State} (h : TxProgress base s) (hseq : t.seq = s.seq)
    (htrace : t.trace = s.trace) (hbuf : t.txbuf = s.txbuf) (hsent : t.txSent = s.txSent) : TxProgress base t := by
  unfold TxProgress
  simp only [hseq, htrace, hsent, State.readRun_of_txbuf_eq hbuf, State.txLength_of_txbuf_eq hbuf]
  exact h

/-! ## The account from label to label (rules R171 to R173, R177) -/

/-- T1 puts nothing into the TX FIFO, and the path it chooses fits the length. -/
theorem transmitStep_t1_txProgress (s : State) : TxProgress (fifoData s.trace) (transmitStep .t1 s) := by
  have hdata : fifoData (s.strobe Config.codes.aSidle).trace = fifoData s.trace := s.strobe_fifoData _
  rw [transmitStep]
  unfold State.txPath
  split
  next hle => exact ⟨hdata, hle⟩
  next hgt => exact ⟨hdata, Nat.lt_of_not_le hgt⟩

/-- A top-up puts the next bytes of the payload into the TX FIFO (rule R173). -/
theorem State.topUp_fifoData (s : State) :
    fifoData (s.xact s.topUp).trace = fifoData s.trace ++ s.readRun .txbuf (2 + s.txSent) s.chunkSize := by
  rw [State.topUp, State.xact_fifoData, if_pos rfl]

/-- T4'b puts the next chunk into the TX FIFO and counts it, or nothing and does not count (rules R171, R173). -/
theorem State.refill_account {base : List Byte} {s : State}
    (hdata : fifoData s.trace = base ++ s.readRun .txbuf 1 (1 + s.txSent)) :
    fifoData s.refill.trace = base ++ s.readRun .txbuf 1 (1 + s.refill.txSent) := by
  by_cases hroom : s.occupancy ≤ 32
  · have hrun : s.readRun .txbuf 1 (1 + (s.txSent + s.chunkSize)) =
        s.readRun .txbuf 1 (1 + s.txSent) ++ s.readRun .txbuf (2 + s.txSent) s.chunkSize := by
      rw [← Nat.add_assoc, State.readRun_add, ← Nat.add_assoc]
    rw [State.refill_of_room hroom]
    change fifoData (s.xact s.topUp).trace = base ++ s.readRun .txbuf 1 (1 + (s.txSent + s.chunkSize))
    rw [hrun, s.topUp_fifoData, hdata, List.append_assoc]
  · rwa [State.refill_of_full (Nat.lt_of_not_le hroom)]

/-- A top-up never counts bytes beyond the payload (rule R99 d). -/
theorem State.refill_txSent_bounds {s : State} (h : s.txSent ≤ s.txLength) :
    s.txSent ≤ s.refill.txSent ∧ s.refill.txSent ≤ s.txLength := by
  by_cases hroom : s.occupancy ≤ 32
  · rw [State.refill_of_room hroom]
    change s.txSent ≤ s.txSent + s.chunkSize ∧ s.txSent + s.chunkSize ≤ s.txLength
    unfold State.chunkSize
    omega
  · rw [State.refill_of_full (Nat.lt_of_not_le hroom)]
    exact ⟨Nat.le_refl _, h⟩

theorem State.refill_txbuf (s : State) : s.refill.txbuf = s.txbuf := by
  unfold State.refill
  split <;> rfl

/-- TRANSMIT leaves TXBUF alone (rule R170). -/
theorem transmitStep_txbuf (l : TxLabel) (s : State) : (transmitStep l s).txbuf = s.txbuf := by
  cases l with
  | t4pb => exact s.refill_txbuf
  | _ => rfl

/-- The account where the whole frame has been written: the length byte and all of the payload. -/
theorem TxProgress.of_whole {base : List Byte} {s t : State} {l : TxLabel} (hbuf : t.txbuf = s.txbuf)
    (hl : l = .t3 ∨ l = .t4 ∨ l = .t5 ∨ l = .t6 ∨ l = .t7 ∨ l = .t8)
    (h : fifoData t.trace = base ++ s.readRun .txbuf 1 (1 + s.txLength)) : TxProgress base (t.goto (.transmit l)) := by
  have hbuf' : (t.goto (.transmit l)).txbuf = s.txbuf := hbuf
  rw [← State.readRun_of_txbuf_eq hbuf', ← State.txLength_of_txbuf_eq hbuf'] at h
  rcases hl with rfl | rfl | rfl | rfl | rfl | rfl <;> exact h

/-- The account of the top-up loop: the length byte and the payload bytes that `tx_sent` counts. -/
theorem TxProgress.of_chunks {base : List Byte} {s t : State} {l : TxLabel} (hbuf : t.txbuf = s.txbuf)
    (hl : l = .t4p ∨ l = .t4pa ∨ l = .t4pb) (h : fifoData t.trace = base ++ s.readRun .txbuf 1 (1 + t.txSent))
    (hfirst : 63 ≤ t.txSent) (hmost : t.txSent ≤ s.txLength) : TxProgress base (t.goto (.transmit l)) := by
  have hbuf' : (t.goto (.transmit l)).txbuf = s.txbuf := hbuf
  rw [← State.readRun_of_txbuf_eq hbuf'] at h
  rw [← State.txLength_of_txbuf_eq hbuf'] at hmost
  rcases hl with rfl | rfl | rfl <;> exact ⟨h, hfirst, hmost⟩

/-- Each label's account is that of the next label after its micro-step; the return at T8 leaves TRANSMIT. -/
theorem transmitStep_txProgress {base : List Byte} {s : State} {l : TxLabel} (hseq : s.seq = .transmit l) (hl : l ≠ .t8)
    (htag : TagInPlace s) (h : TxProgress base s) : TxProgress base (transmitStep l s) := by
  unfold TxProgress at h
  rw [hseq] at h
  cases l with
  | t1 =>
    obtain rfl : fifoData s.trace = base := h
    exact transmitStep_t1_txProgress s
  | t2 =>
    obtain ⟨rfl, -⟩ : fifoData s.trace = base ∧ s.txLength ≤ 63 := h
    have hburst : fifoData (s.xact s.singleBurst).trace =
        fifoData s.trace ++ s.readRun .txbuf 1 (1 + s.txLength) := by
      rw [Nat.add_comm 1]
      exact htag.burst_fifoData (s.txLength + 1)
    exact .of_whole (s := s) rfl (by simp) hburst
  | t2p =>
    obtain ⟨rfl, hlong⟩ : fifoData s.trace = base ∧ 63 < s.txLength := h
    have hburst : fifoData (s.xact s.firstBurst).trace = fifoData s.trace ++ s.readRun .txbuf 1 64 :=
      htag.burst_fifoData 64
    rw [← State.readRun_of_txbuf_eq (transmitStep_txbuf .t2p s)] at hburst
    exact ⟨hburst, hlong⟩
  | t3p =>
    obtain ⟨hdata, hlong⟩ : fifoData s.trace = base ++ s.readRun .txbuf 1 (1 + 63) ∧ 63 < s.txLength := h
    exact .of_chunks (s := s) (t := s.startChunks) rfl (by simp) ((s.strobe_fifoData _).trans hdata) (Nat.le_refl 63)
      (Nat.le_of_lt hlong)
  | t4p =>
    obtain ⟨hdata, hfirst, hmost⟩ :
      fifoData s.trace = base ++ s.readRun .txbuf 1 (1 + s.txSent) ∧ 63 ≤ s.txSent ∧ s.txSent ≤ s.txLength := h
    rw [transmitStep]
    split
    next => exact .of_chunks (s := s) rfl (by simp) hdata hfirst hmost
    next hdone =>
      have hall : s.txSent = s.txLength := Nat.le_antisymm hmost (Nat.le_of_not_lt hdone)
      exact .of_whole (s := s) rfl (by simp) (hall ▸ hdata)
  | t4pa =>
    obtain ⟨hdata, hfirst, hmost⟩ :
      fifoData s.trace = base ++ s.readRun .txbuf 1 (1 + s.txSent) ∧ 63 ≤ s.txSent ∧ s.txSent ≤ s.txLength := h
    exact .of_chunks (s := s) rfl (by simp) (s.rstatus_txbytes_fifoData.trans hdata) hfirst hmost
  | t4pb =>
    obtain ⟨hdata, hfirst, hmost⟩ :
      fifoData s.trace = base ++ s.readRun .txbuf 1 (1 + s.txSent) ∧ 63 ≤ s.txSent ∧ s.txSent ≤ s.txLength := h
    obtain ⟨hmore, hmost'⟩ := State.refill_txSent_bounds hmost
    exact .of_chunks s.refill_txbuf (by simp) (State.refill_account hdata) (hfirst.trans hmore) hmost'
  | t3 => exact .of_whole (s := s) rfl (by simp) ((s.strobe_fifoData _).trans h)
  | t4 =>
    refine .of_whole (s := s) rfl ?_ (s.rstatus_txbytes_fifoData.trans h)
    split <;> simp
  | t5 =>
    refine .of_whole (s := s) rfl ?_ ((s.strobe_fifoData _).trans h)
    split <;> simp
  | t6 | t7 => exact .of_whole (s := s) rfl (by simp) ((s.strobe_fifoData _).trans h)
  | t8 => exact absurd rfl hl

/-! ## A step of the machine inside TRANSMIT (rules R173, R253, R255) -/

/-- Only inside TRANSMIT is there an account. -/
theorem TxProgress.inTransmit {base : List Byte} {s : State} (h : TxProgress base s) : ∃ l, s.seq = .transmit l := by
  cases hseq : s.seq with
  | transmit l => exact ⟨l, rfl⟩
  | _ =>
    unfold TxProgress at h
    rw [hseq] at h
    exact h.elim

/-- Inside TRANSMIT the sequencer's step is the micro-step of the label. -/
theorem step_of_transmit {s : State} {k : Nat} {l : TxLabel} (hm : s.nextMove = .loop k) (hseq : s.seq = .transmit l) :
    step s = .next (transmitStep l s.afterMove) :=
  (step_of_inOperation hm hseq rfl rfl).trans (exec_transmit_of_seq (s := s.afterMove) hseq)

/-- An interrupt or an act of the outside leaves the account alone (rules R253, R255). -/
theorem OnlyOutsideDiffers.txProgress {base : List Byte} {s t : State} (h : OnlyOutsideDiffers s t)
    (hs : TxProgress base s) : TxProgress base t := by
  have ht : t = s.withOutsideOf t := h
  rw [ht]
  exact hs.of_same rfl rfl rfl rfl

end Sys2Proof.Machine

namespace Sys2Proof.Proofs

open Sys2Proof Sys2Proof.Machine

/-- Settles O21: the sequencer's step is a micro-step of TRANSMIT, not the return, and all else leaves the account alone. -/
theorem transmitFillsFifoInOrder : Obligations.TransmitFillsFifoInOrder := by
  intro base s t hs htag hprogress hstep ⟨l', hinside⟩
  by_cases hm : ∃ k, s.nextMove = .loop k
  · obtain ⟨k, hm⟩ := hm
    obtain ⟨l, hseq⟩ := hprogress.inTransmit
    rw [step_of_transmit hm hseq] at hstep
    cases hstep
    have hstays : l ≠ .t8 := by
      rintro rfl
      obtain ⟨hcaller, -, -⟩ := (disciplined_transmit_iff hseq).mp hs
      cases hcaller.symm.trans hinside
    exact transmitStep_txProgress (s := s.afterMove) hseq hstays htag (hprogress.of_same rfl rfl rfl rfl)
  · exact (step_onlyOutside (not_exists.mp hm) hstep).txProgress hprogress

end Sys2Proof.Proofs
end

section
/-! PROOFS. TRANSMIT's micro-steps off the chunked path, and its whole run with a chip that answers zeros. -/

namespace Sys2Proof.Machine

/-! ## What the answers read as (rules R131, R174) -/

/-- The idle test is on all four upper bits of the status byte (rule R174). -/
theorem chipIsIdle_iff (b : Byte) : chipIsIdle b = true ↔ b.extractLsb' 4 4 = 0#4 := by
  have hlt := b.isLt
  rw [chipIsIdle, decide_eq_true_iff, stateCode, BitVec.toNat_eq, BitVec.extractLsb'_toNat, BitVec.toNat_ushiftRight,
    Nat.shiftRight_eq_div_pow, BitVec.toNat_ofNat]
  omega

/-- The occupancy is 0 exactly where the byte after the header is (rule R131). -/
theorem State.occupancy_eq_zero_iff {s : State} (h : 1 < s.rx.length) : s.occupancy = 0 ↔ s.rx[1]? = some 0 := by
  rw [State.occupancy_of_rx (State.rx_getElem?_rxAt h), State.rx_getElem?_rxAt h, Option.some_inj, BitVec.toNat_eq]
  rfl

/-! ## The start, and the poll T5 (rules R171, R174; log entry 7) -/

/-- Outside its own positions TRANSMIT is started, with T1 (rule R171). -/
theorem exec_transmit_start {s : State} (h : ∀ l, s.seq ≠ .transmit l) :
    exec .transmit s = .next (transmitStep .t1 (s.callFrom s.seq)) := by
  change execTransmit s = _
  unfold execTransmit
  split
  next l hseq => exact absurd hseq (h l)
  next => rfl

/-- A run of the loop context begins with its first micro-step. -/
theorem State.soloRun_of_next {n : Nat} {s t : State} (h : s.solo = .next t) : s.soloRun (n + 1) = t.soloRun n := by
  simp only [State.soloRun, h]

theorem State.solo_of_transmit {s : State} {l : TxLabel} (h : s.seq = .transmit l) :
    s.solo = .next (transmitStep l s) := by
  have haction : sequencerAction 0 s = .run .transmit s := by
    rw [sequencerAction_of_inOperation 0 (by rw [h]; rfl), opAction, h]
  simp only [State.solo, haction, exec_transmit_of_seq h]

/-- A status byte with a state code other than 0 keeps TRANSMIT at T5 (rule R174). -/
theorem transmitStep_t5_of_busy {s : State} {b : Byte} {rest : List Answer} (hans : s.env.answers = .reply [b] :: rest)
    (hb : chipIsIdle b = false) : transmitStep .t5 s = (s.strobe Config.codes.aSnop).goto (.transmit .t5) := by
  have hrx : (s.strobe Config.codes.aSnop).rx = [b] := State.received_of_reply (State.nextAnswer_of_reply hans)
  have hstatus : (s.strobe Config.codes.aSnop).chipStatus = b := by
    rw [State.chipStatus, State.rxAt, hrx]
    rfl
  rw [transmitStep]
  simp only [hstatus, hb, Bool.false_eq_true, if_false]

/-- With `n` answers of a busy chip to come, T5 polls `n` times and stays: its poll has no bound (rule R174). -/
theorem soloRun_t5_of_busy (n : Nat) {s : State} {rest : List Answer} (hseq : s.seq = .transmit .t5)
    (hans : s.env.answers = List.replicate n (.reply [0x1F]) ++ rest) :
    ∃ t : State, s.soloRun n = .next t ∧ t.seq = .transmit .t5 ∧
      outward t.trace = outward s.trace ++ List.replicate n (sends [0x3D]) := by
  induction n generalizing s with
  | zero => exact ⟨s, rfl, hseq, (List.append_nil _).symm⟩
  | succ n ih =>
    rw [List.replicate_succ, List.cons_append] at hans
    have hpoll := (State.solo_of_transmit hseq).trans (congrArg _ (transmitStep_t5_of_busy hans rfl))
    obtain ⟨t, hrun, hstays, htrace⟩ :=
      ih (s := (s.strobe Config.codes.aSnop).goto (.transmit .t5)) rfl (congrArg List.tail hans)
    refine ⟨t, (State.soloRun_of_next hpoll).trans hrun, hstays, ?_⟩
    rw [htrace, State.goto_trace, State.strobe, State.xact_outward, List.append_assoc, List.replicate_succ]
    rfl

/-! ## Answers of zeros: an empty FIFO and an idle chip (rules R131, R174) -/

/-- The next `n` answers are zeros. -/
def State.ZerosNext (n : Nat) (s : State) : Prop :=
  ∃ rest, s.env.answers = List.replicate n (.reply [0x00, 0x00, 0x00]) ++ rest

theorem State.ZerosNext.mono {n k : Nat} {s : State} (h : s.ZerosNext k) (hn : n ≤ k) : s.ZerosNext n := by
  obtain ⟨rest, hrest⟩ := h
  refine ⟨List.replicate (k - n) (.reply [0x00, 0x00, 0x00]) ++ rest, ?_⟩
  rw [hrest, ← List.append_assoc, List.replicate_append_replicate, Nat.add_sub_cancel' hn]

theorem State.ZerosNext.nextAnswer {n : Nat} {s : State} (h : s.ZerosNext (n + 1)) :
    s.nextAnswer = .reply [0x00, 0x00, 0x00] := by
  obtain ⟨rest, hrest⟩ := h
  exact State.nextAnswer_of_reply hrest

/-- A transaction takes one answer. -/
theorem State.ZerosNext.of_tail {n : Nat} {s t : State} (h : s.ZerosNext (n + 1))
    (ht : t.env.answers = s.env.answers.tail) : t.ZerosNext n := by
  obtain ⟨rest, hrest⟩ := h
  refine ⟨rest, ?_⟩
  rw [ht, hrest, List.replicate_succ, List.cons_append, List.tail_cons]

/-- The status read finds the TX FIFO empty. -/
theorem State.ZerosNext.occupancy {n : Nat} {s : State} (h : s.ZerosNext (n + 1)) :
    (s.rstatus Config.codes.aTxbytes).occupancy = 0 := by
  have hrx : (s.rstatus Config.codes.aTxbytes).rx = [0x00, 0x00, 0x00] := by
    rw [State.rstatus, State.xact_rx]
    exact State.received_of_reply h.nextAnswer
  rw [State.occupancy_of_rx (b := 0x00) (by rw [hrx]; rfl)]
  rfl

/-- A strobe's status byte says that the chip is idle. -/
theorem State.ZerosNext.chipStatus {n : Nat} {s : State} (h : s.ZerosNext (n + 1)) (a : Byte) :
    (s.strobe a).chipStatus = 0x00 := by
  simp [State.chipStatus, State.rxAt, State.strobe, State.received, h.nextAnswer, answerBytes]

/-! ## What the whole of TRANSMIT changes (rules R170, R171) -/

/-- Beside the position, `t` differs from `s` on the bus side and in `tx_sent` alone. -/
def OnlyTransmitDiffers (s t : State) : Prop := OnlyBusDiffers { s.ret with txSent := t.txSent } t.ret

theorem OnlyBusDiffers.withTxSent {s t : State} (h : OnlyBusDiffers s t) (n : Nat) :
    OnlyBusDiffers { s with txSent := n } { t with txSent := n } := by
  obtain ⟨csN, rx, trace, led0, led1, chip, marks, env, rfl, hmarks, hmoves⟩ := h
  exact ⟨csN, rx, trace, led0, led1, chip, marks, env, rfl, hmarks, hmoves⟩

theorem OnlyTransmitDiffers.trans {s t u : State} (h : OnlyTransmitDiffers s t) (h' : OnlyTransmitDiffers t u) :
    OnlyTransmitDiffers s u :=
  OnlyBusDiffers.trans (OnlyBusDiffers.withTxSent h u.txSent) h'

theorem State.xact_onlyTransmitDiffers (s : State) (tx : List Byte) : OnlyTransmitDiffers s (s.xact tx) :=
  (OnlyBusDiffers.of_transacts (s.xact_transacts tx)).ret

theorem OnlyTransmitDiffers.goto {s t : State} (h : OnlyTransmitDiffers s t) (p : Pos) :
    OnlyTransmitDiffers s (t.goto p) := h

theorem OnlyTransmitDiffers.count {s t : State} (h : OnlyTransmitDiffers s t) (n : Nat) :
    OnlyTransmitDiffers s { t with txSent := n } :=
  OnlyBusDiffers.withTxSent h n

/-- A micro-step of TRANSMIT is a transaction or none, and T3' and T4'b count what is sent (rule R171). -/
theorem transmitStep_onlyTransmitDiffers (l : TxLabel) (s : State) : OnlyTransmitDiffers s (transmitStep l s) := by
  cases l with
  | t1 | t2 | t3 | t4 | t2p | t4pa | t5 | t6 | t7 => exact (s.xact_onlyTransmitDiffers _).goto _
  | t3p => exact ((s.xact_onlyTransmitDiffers _).count 63).goto _
  | t4p | t8 => exact .refl s.ret
  | t4pb =>
    change OnlyTransmitDiffers s (s.refill.goto (.transmit .t4p))
    by_cases hroom : s.occupancy ≤ 32
    · rw [State.refill_of_room hroom]
      exact ((s.xact_onlyTransmitDiffers s.topUp).count _).goto _
    · rw [State.refill_of_full (Nat.lt_of_not_le hroom)]
      exact .refl s.ret

/-! ## The run, leg by leg (rules R171 to R175) -/

/-- TRANSMIT stands at label `l` with `n` answers of zeros to come. What it has done since `start` changed what TRANSMIT
may change, and filled the TX FIFO, which had got `base` before, up to that label. -/
structure TransmitAt (start : State) (base : List Byte) (l : TxLabel) (n : Nat) (s : State) : Prop where
  seq : s.seq = .transmit l
  zeros : s.ZerosNext n
  frame : OnlyTransmitDiffers start s
  txbuf : s.txbuf = start.txbuf
  progress : TxProgress base s

/-- `n` micro-steps of TRANSMIT lead from `s` to `t`. -/
def TransmitLeads (n : Nat) (s t : State) : Prop := ∀ m, runInstr .transmit (m + n) s = runInstr .transmit m t

theorem TransmitLeads.trans {n k : Nat} {s t u : State} (h : TransmitLeads n s t) (h' : TransmitLeads k t u) :
    TransmitLeads (k + n) s u := by
  intro m
  rw [← Nat.add_assoc, h, h']

section
variable {start s : State} {base : List Byte} {l l' : TxLabel} {n k : Nat}

theorem TransmitAt.leads (h : TransmitAt start base l n s) : TransmitLeads 1 s (transmitStep l s) :=
  fun _ => runInstr_of_next (exec_transmit_of_seq h.seq)

/-- Each micro-step but the return leads to the next label's account. -/
theorem TransmitAt.step (h : TransmitAt start base l n s) (htag : TagInPlace start) (hl : l ≠ .t8)
    (hseq : (transmitStep l s).seq = .transmit l') (hzeros : (transmitStep l s).ZerosNext k) :
    TransmitAt start base l' k (transmitStep l s) where
  seq := hseq
  zeros := hzeros
  frame := h.frame.trans (transmitStep_onlyTransmitDiffers l s)
  txbuf := (transmitStep_txbuf l s).trans h.txbuf
  progress := transmitStep_txProgress h.seq hl (htag.of_txbuf_eq h.txbuf) h.progress

/-- The single path from T2 to T5 (rule R172). -/
theorem transmit_singlePath (htag : TagInPlace start) (h : TransmitAt start base .t2 (n + 3) s) :
    ∃ t, TransmitAt start base .t5 n t ∧ TransmitLeads 3 s t := by
  have hT3 := h.step (l' := .t3) htag nofun rfl (h.zeros.of_tail rfl)
  have hT4 := hT3.step (l' := .t4) htag nofun rfl (hT3.zeros.of_tail rfl)
  have hT5 := hT4.step (l' := .t5) htag nofun (congrArg Pos.transmit (if_pos hT4.zeros.occupancy)) (hT4.zeros.of_tail rfl)
  exact ⟨_, hT5, (h.leads.trans hT3.leads).trans hT4.leads⟩

/-- A round of the top-up loop sends the next chunk (rule R173). -/
theorem transmit_round (htag : TagInPlace start) (h : TransmitAt start base .t4p (n + 2) s)
    (hleft : s.txSent < start.txLength) :
    ∃ t, TransmitAt start base .t4p n t ∧ TransmitLeads 3 s t ∧
      t.txSent = s.txSent + min 24 (start.txLength - s.txSent) := by
  have hleft' : s.txSent < s.txLength := State.txLength_of_txbuf_eq h.txbuf ▸ hleft
  have hT4a := h.step (l' := .t4pa) htag nofun (congrArg Pos.transmit (if_pos hleft')) h.zeros
  have hT4b := hT4a.step (l' := .t4pb) htag nofun rfl (hT4a.zeros.of_tail rfl)
  have hempty : (transmitStep .t4pa (transmitStep .t4p s)).occupancy = 0 := hT4a.zeros.occupancy
  have hrefill := State.refill_of_room (by rw [hempty]; omega)
  have hT4 := hT4b.step (l' := .t4p) htag nofun rfl (hT4b.zeros.of_tail (congrArg (·.env.answers) hrefill))
  refine ⟨_, hT4, (h.leads.trans hT4a.leads).trans hT4b.leads, ?_⟩
  rw [← State.txLength_of_txbuf_eq hT4b.txbuf]
  exact congrArg State.txSent hrefill

/-- `r` rounds send all that is left, if that is as many chunks (rules R99 d, R173). -/
theorem transmit_rounds (htag : TagInPlace start) (r : Nat) (h : TransmitAt start base .t4p (n + 2 * r) s)
    (hmost : start.txLength - s.txSent ≤ 24 * r) (hleast : 24 * r < start.txLength - s.txSent + 24) :
    ∃ t, TransmitAt start base .t4p n t ∧ TransmitLeads (3 * r) s t ∧ start.txLength ≤ t.txSent := by
  induction r generalizing s with
  | zero => exact ⟨s, h, fun _ => rfl, by omega⟩
  | succ r ih =>
    obtain ⟨u, hu, hround, hsent⟩ := transmit_round (n := n + 2 * r) htag h (by omega)
    obtain ⟨t, ht, hrounds, hdone⟩ := ih hu (by omega) (by omega)
    exact ⟨t, ht, hround.trans hrounds, hdone⟩

/-- The chunked path from T2' to T5 (rules R171, R173). -/
theorem transmit_chunkedPath (htag : TagInPlace start) (h : TransmitAt start base .t2p (n + 18) s) :
    ∃ t r, r ≤ 8 ∧ TransmitAt start base .t5 n t ∧ TransmitLeads (3 * r + 3) s t := by
  have hlen : start.txLength ≤ 255 := Nat.le_of_lt_succ (start.readBuf .txbuf 1).isLt
  obtain ⟨r, hmost, hleast⟩ : ∃ r, start.txLength - 63 ≤ 24 * r ∧ 24 * r < start.txLength - 63 + 24 :=
    ⟨(start.txLength - 63 + 23) / 24, by omega, by omega⟩
  have hT3 := h.step (l' := .t3p) htag nofun rfl (h.zeros.of_tail rfl)
  have hT4 := hT3.step (l' := .t4p) htag nofun rfl (hT3.zeros.of_tail rfl)
  have hfirst : (transmitStep .t3p (transmitStep .t2p s)).txSent = 63 := rfl
  obtain ⟨t, ht, hrounds, hdone⟩ :=
    transmit_rounds (n := n) htag r { hT4 with zeros := hT4.zeros.mono (by omega) } hmost hleast
  have hdone' : ¬ t.txSent < t.txLength := by rw [State.txLength_of_txbuf_eq ht.txbuf]; omega
  have hT5 := ht.step (l' := .t5) htag nofun (congrArg Pos.transmit (if_neg hdone')) ht.zeros
  refine ⟨_, r, by omega, hT5, ?_⟩
  have hleads := ((h.leads.trans hT3.leads).trans hrounds).trans ht.leads
  rwa [show 3 * r + 3 = 1 + (3 * r + (1 + 1)) by omega]

/-- From T5 on: one poll, the two strobes and the return (rules R174, R175). -/
theorem transmit_end (htag : TagInPlace start) (h : TransmitAt start base .t5 3 s) :
    ∃ t, runInstr .transmit 4 s = .next t ∧
      fifoData t.trace = base ++ start.readRun .txbuf 1 (1 + start.txLength) ∧
      OnlyBusDiffers { start.ret with txSent := t.txSent } t := by
  have hidle : chipIsIdle (s.strobe Config.codes.aSnop).chipStatus = true := by rw [h.zeros.chipStatus]; rfl
  have hT6 := h.step (l' := .t6) htag nofun (congrArg Pos.transmit (if_pos hidle)) (h.zeros.of_tail rfl)
  have hT7 := hT6.step (l' := .t7) htag nofun rfl (hT6.zeros.of_tail rfl)
  have hT8 := hT7.step (l' := .t8) htag nofun rfl (hT7.zeros.of_tail rfl)
  have hleads := (h.leads.trans hT6.leads).trans hT7.leads
  have hdata := hT8.progress
  unfold TxProgress at hdata
  rw [hT8.seq] at hdata
  refine ⟨_, (hleads 1).trans (runInstr_of_next (exec_transmit_of_seq hT8.seq)), ?_, hT8.frame⟩
  rw [← State.readRun_of_txbuf_eq hT8.txbuf, ← State.txLength_of_txbuf_eq hT8.txbuf]
  exact hdata

end

end Sys2Proof.Machine

namespace Sys2Proof.Proofs

open Sys2Proof Sys2Proof.Machine

/-- Settles O18: the idle test is on the upper nibble, and a chip that never answers idle is polled for ever. -/
theorem transmitCompletionPoll : Obligations.TransmitCompletionPoll := by
  refine ⟨fun s hseq => ?_, fun n s rest hseq hans => soloRun_t5_of_busy n hseq hans⟩
  refine ⟨_, _, s.xact_transacts _, State.rx_getElem?_rxAt (by simp), ?_⟩
  simp only [← chipIsIdle_iff]
  exact exec_transmit_of_seq hseq

/-- Settles O16: each label of the single path is one transaction, and at T4 the occupancy just read decides. -/
theorem transmitSinglePathSteps : Obligations.TransmitSinglePathSteps := by
  intro s
  refine ⟨fun h => ⟨_, s.xact_transacts _, exec_transmit_of_seq h⟩,
    fun h => ⟨_, s.xact_transacts _, exec_transmit_of_seq h⟩,
    fun h => ⟨_, s.xact_transacts _, exec_transmit_of_seq h⟩, fun h => ⟨_, s.xact_transacts _, ?_⟩⟩
  simp only [← State.occupancy_eq_zero_iff (s := s.xact [0xFA, 0x00, 0x00]) (by simp)]
  exact exec_transmit_of_seq h

/-- Settles O19: T6 and T7 are a strobe each, and T8 is the return. -/
theorem transmitReturnsToReceive : Obligations.TransmitReturnsToReceive := fun s =>
  ⟨fun h => ⟨_, s.xact_transacts _, exec_transmit_of_seq h⟩, fun h => ⟨_, s.xact_transacts _, exec_transmit_of_seq h⟩,
    exec_transmit_of_seq⟩

/-- Settles O20: the start is T1 with the caller kept, which puts nothing into the TX FIFO. -/
theorem transmitStarts : Obligations.TransmitStarts := by
  intro s hout
  have hstart := exec_transmit_start hout
  refine ⟨_, s.xact_transacts _, hstart, fun u hu => ?_⟩
  cases hstart.symm.trans hu
  exact transmitStep_t1_txProgress (s.callFrom s.seq)

/-- Settles O22: after the start one of the two paths leads to T5, and from there TRANSMIT ends. -/
theorem transmitRunsToItsEnd : Obligations.TransmitRunsToItsEnd := by
  intro s rest hout htag hans
  have hstart := exec_transmit_start hout
  have htag' : TagInPlace (s.callFrom s.seq) := htag
  have hzeros : (transmitStep .t1 (s.callFrom s.seq)).ZerosNext 21 := State.ZerosNext.of_tail (s := s) ⟨rest, hans⟩ rfl
  have hT2 : TransmitAt (s.callFrom s.seq) (fifoData s.trace) s.txPath 21 (transmitStep .t1 (s.callFrom s.seq)) :=
    ⟨rfl, hzeros, transmitStep_onlyTransmitDiffers .t1 (s.callFrom s.seq), rfl, transmitStep_t1_txProgress _⟩
  have hpath : ∃ u n, n ≤ 27 ∧ TransmitAt (s.callFrom s.seq) (fifoData s.trace) .t5 3 u ∧
      TransmitLeads n (transmitStep .t1 (s.callFrom s.seq)) u := by
    unfold State.txPath at hT2
    split at hT2
    next =>
      obtain ⟨u, hu, hleads⟩ := transmit_singlePath (n := 3) htag' { hT2 with zeros := hzeros.mono (by omega) }
      exact ⟨u, 3, by omega, hu, hleads⟩
    next =>
      obtain ⟨u, r, hr, hu, hleads⟩ := transmit_chunkedPath (n := 3) htag' hT2
      exact ⟨u, 3 * r + 3, by omega, hu, hleads⟩
  obtain ⟨u, n, hn, hu, hleads⟩ := hpath
  obtain ⟨t, hend, hdata, hframe⟩ := transmit_end htag' hu
  rw [State.readRun_of_txbuf_eq (s := s) (t := s.callFrom s.seq) rfl] at hdata
  exact ⟨4 + n + 1, t, by omega, ((runInstr_of_next hstart).trans (hleads 4)).trans hend, hdata, hframe⟩

end Sys2Proof.Proofs
end

section
/-! PROOFS. The reconstruction of a packet: what each micro-step does to the account of the bytes read, and that no step
between the length byte and completion loses it. -/

namespace Sys2Proof.Machine

/-! ## What a transaction reads from the RX FIFO (rules R91 to R95, R132) -/

/-- A transaction takes a byte from the RX FIFO where its header is RFIFO1's. -/
theorem State.xact_fifoReads (s : State) (h : Byte) (d : List Byte) :
    fifoReads (s.xact (h :: d)).trace =
      fifoReads s.trace ++ if h = hdrFifoR1 then ((s.xact (h :: d)).rx.drop 1).take 1 else [] := by
  simp [fifoReads, Event.fifoRead]

/-- A strobe or a register write has no read bit (rules R92, R93). -/
theorem hdrSingleWrite_ne_fifoR1 (a : Byte) : hdrSingleWrite a ≠ hdrFifoR1 := by
  revert a
  decide

/-! ## What the reconstruction is told by (rules R22 to R24, R193) -/

/-- RXBUF, `rx_cursor`, `rx_expected`, and the bytes read from the RX FIFO so far. -/
structure RxAccount where
  rxbuf : Memory
  cursor : Nat
  expected : Byte
  reads : List Byte

def State.rxAccount (s : State) : RxAccount where
  rxbuf := s.rxbuf
  cursor := s.rxCursor
  expected := s.rxExpected
  reads := fifoReads s.trace

/-- The positions, `direct` apart, at which no byte read from the FIFO is still to be stored. -/
def Pos.offRead : Pos → Bool
  | .direct | .rxStep .s4 | .rxLast .z2 => false
  | _ => true

theorem State.rxInHand_of_offRead {s : State} (h : s.seq.offRead = true) : s.rxInHand = [] := by
  unfold State.rxInHand
  split
  next hseq => rw [hseq] at h; cases h
  next hseq => rw [hseq] at h; cases h
  next => rfl

theorem State.rxInHand_of_reading {s : State} (h : s.seq = .rxStep .s4 ∨ s.seq = .rxLast .z2) :
    s.rxInHand = (s.rx.drop 1).take 1 := by
  unfold State.rxInHand
  obtain h | h := h <;> rw [h]

/-- A run of RXBUF is told by the bytes written there. -/
theorem State.readRun_of_rxbuf_eq {s t : State} (h : t.rxbuf = s.rxbuf) (i n : Nat) :
    t.readRun .rxbuf i n = s.readRun .rxbuf i n :=
  State.readRun_congr fun k _ => congrArg (fun m => (Memory.read m (i + k)).getD (Config.unwrittenByte .rxbuf (i + k))) h

/-- The bytes that the reconstruction has placed, the length byte first. -/
def State.rxPlaced (s : State) : List Byte := s.rxExpected :: s.readRun .rxbuf 0 s.rxCursor

theorem State.rxPlaced_of_account {s t : State} (h : t.rxAccount = s.rxAccount) : t.rxPlaced = s.rxPlaced := by
  have hbuf : t.rxbuf = s.rxbuf := congrArg RxAccount.rxbuf h
  have hcursor : t.rxCursor = s.rxCursor := congrArg RxAccount.cursor h
  have hexpected : t.rxExpected = s.rxExpected := congrArg RxAccount.expected h
  unfold State.rxPlaced
  rw [hexpected, hcursor, State.readRun_of_rxbuf_eq hbuf]

/-- Where no byte is in hand, the account is: all bytes read are placed. -/
theorem RxProgress.reads_of_offRead {base : List Byte} {s : State} (h : RxProgress base s)
    (hoff : s.seq.offRead = true) : fifoReads s.trace = base ++ s.rxPlaced := by
  have hreads := h.reads
  rwa [State.rxInHand_of_offRead hoff, List.append_nil] at hreads

theorem rxProgress_of_offRead {base : List Byte} {s : State} (hoff : s.seq.offRead = true) (hnew : s.newPacket = false)
    (hreads : fifoReads s.trace = base ++ s.rxPlaced) : RxProgress base s where
  lengthKnown := hnew
  noDirect hseq := by rw [hseq] at hoff; cases hoff
  inHand hseq := by obtain hseq | hseq := hseq <;> rw [hseq] at hoff <;> cases hoff
  reads := by rw [State.rxInHand_of_offRead hoff, List.append_nil]; exact hreads

/-- The reconstruction is told by the position, the last transaction's bytes, the account and `new_packet`. -/
theorem RxProgress.of_same {base : List Byte} {s t : State} (h : RxProgress base s) (hseq : t.seq = s.seq)
    (hrx : t.rx = s.rx) (haccount : t.rxAccount = s.rxAccount) (hnew : t.newPacket = false) : RxProgress base t where
  lengthKnown := hnew
  noDirect := hseq ▸ h.noDirect
  inHand := by rw [hseq, hrx]; exact h.inHand
  reads := by
    have hreads : fifoReads t.trace = fifoReads s.trace := congrArg RxAccount.reads haccount
    have hhand : t.rxInHand = s.rxInHand := by unfold State.rxInHand; rw [hseq, hrx]
    have hplaced : t.rxPlaced = s.rxPlaced := State.rxPlaced_of_account haccount
    calc fifoReads t.trace = base ++ s.rxPlaced ++ s.rxInHand := hreads.trans h.reads
      _ = base ++ t.rxPlaced ++ t.rxInHand := by rw [hplaced, hhand]

/-! ## Micro-steps that neither read nor store -/

/-- A micro-step that leads to a position without a byte in hand and leaves the account as it is. -/
def KeepsRxAccount (s t : State) : Prop := t.seq.offRead = true ∧ t.rxAccount = s.rxAccount

/-- What a step of the machine has to give: the reconstruction goes on unless an edge is taken or a byte is lost (rules
R200, R201). -/
def RxGoesOn (base : List Byte) (t : State) : Prop :=
  t.newPacket = false → t.marks.bufOverrun = false → RxProgress base t

theorem RxProgress.goesOn {base : List Byte} {s t : State} (h : RxProgress base s) (hoff : s.seq.offRead = true)
    (hkeeps : KeepsRxAccount s t) : RxGoesOn base t := by
  obtain ⟨hoff', haccount⟩ := hkeeps
  intro hnew _
  refine rxProgress_of_offRead hoff' hnew ?_
  have hreads : fifoReads t.trace = fifoReads s.trace := congrArg RxAccount.reads haccount
  rw [hreads, State.rxPlaced_of_account haccount, h.reads_of_offRead hoff]

theorem State.xact_rxAccount (s : State) {h : Byte} (d : List Byte) (hne : h ≠ hdrFifoR1) :
    (s.xact (h :: d)).rxAccount = s.rxAccount := by
  have hreads : fifoReads (s.xact (h :: d)).trace = fifoReads s.trace := by
    rw [State.xact_fifoReads, if_neg hne, List.append_nil]
  exact congrArg (RxAccount.mk s.rxbuf s.rxCursor s.rxExpected) hreads

theorem State.strobe_rxAccount (s : State) (a : Byte) : (s.strobe a).rxAccount = s.rxAccount :=
  s.xact_rxAccount [] (hdrSingleWrite_ne_fifoR1 a)

/-- With the tag in place a burst of TXBUF is no read (rule R21). -/
theorem TagInPlace.burst_rxAccount {s : State} (h : TagInPlace s) (n : Nat) :
    (s.xact (s.readRun .txbuf 0 (n + 1))).rxAccount = s.rxAccount := by
  rw [h.readRun n]
  exact s.xact_rxAccount _ (by decide)

/-- An event that is no transaction reads nothing. -/
theorem State.log_rxAccount (s : State) {e : Event} (he : e.isXact = false) : (s.log e).rxAccount = s.rxAccount := by
  have hread : e.fifoRead = [] := by
    cases e with
    | xact => cases he
    | _ => rfl
  have hreads : fifoReads (s.log e).trace = fifoReads s.trace := by simp [fifoReads, hread]
  exact congrArg (RxAccount.mk s.rxbuf s.rxCursor s.rxExpected) hreads

/-- Writes to another buffer than RXBUF leave the account alone. -/
theorem State.writeRun_rxAccount (s : State) {b : BufId} (i : Nat) (vs : List Byte) (hb : .rxbuf ≠ b) :
    (s.writeRun b i vs).rxAccount = s.rxAccount := by
  have hbuf : (s.writeRun b i vs).rxbuf = s.rxbuf := s.bufMem_writeRun_other i vs hb
  simp [State.rxAccount, hbuf]

theorem State.writeEntry_rxAccount (s : State) (i : Fin 39) : (s.writeEntry i).rxAccount = s.rxAccount := by
  unfold State.writeEntry
  split
  · exact s.xact_rxAccount _ (hdrSingleWrite_ne_fifoR1 _)
  · rfl

theorem State.rearm_rxAccount (s : State) : s.rearm.rxAccount = s.rxAccount := by
  obtain ⟨-, h⟩ | ⟨-, -, h⟩ | ⟨-, -, h⟩ := s.rearm_cases <;> rw [h] <;> rfl

theorem State.refill_rxAccount (s : State) : s.refill.rxAccount = s.rxAccount := by
  unfold State.refill
  split
  · exact s.xact_rxAccount _ (by decide)
  · rfl

theorem State.queueToHost_rxAccount (s : State) (bytes : List Byte) : (s.queueToHost bytes).rxAccount = s.rxAccount :=
  s.writeRun_rxAccount 0 bytes (by decide)

theorem State.handoff_rxAccount (s : State) (bytes : List Byte) : (s.handoff bytes).rxAccount = s.rxAccount := by
  have hmark : s.markHostTx.rxAccount = s.rxAccount := by
    unfold State.markHostTx
    split <;> rfl
  calc (s.handoff bytes).rxAccount
    _ = (s.markHostTx.log (.handoff bytes)).rxAccount := State.queueToHost_rxAccount _ bytes
    _ = s.markHostTx.rxAccount := State.log_rxAccount _ rfl
    _ = s.rxAccount := hmark

theorem State.loadTx_rxAccount (s : State) (frame : List Byte) : (s.loadTx frame).rxAccount = s.rxAccount := by
  have hmark : s.markTx.rxAccount = s.rxAccount := by
    unfold State.markTx
    split <;> rfl
  calc (s.loadTx frame).rxAccount
    _ = (s.markTx.writeRun .txbuf 1 [BitVec.ofNat 8 frame.length]).rxAccount :=
      State.writeRun_rxAccount _ 2 frame (by decide)
    _ = s.markTx.rxAccount := State.writeRun_rxAccount _ 1 _ (by decide)
    _ = s.rxAccount := hmark

theorem State.drain_rxAccount (s : State) : s.sendNext.endDrain.rxAccount = s.rxAccount := by
  have hend : s.sendNext.endDrain.rxAccount = s.sendNext.rxAccount := by
    unfold State.endDrain
    split <;> rfl
  rw [hend]
  unfold State.sendNext
  split
  · exact s.log_rxAccount rfl
  · rfl

/-! ### The operations that do not touch the RX FIFO -/

theorem configureStep_keepsRxAccount {s : State} (csc : Byte) {l : CfgLabel} (htables : l ≠ .c0 → s.TablesBuilt)
    (hback : s.caller.offRead = true) : KeepsRxAccount s (configureStep csc l s) := by
  cases l with
  | c0 | c1 => exact ⟨rfl, rfl⟩
  | c2 | c4 | c9 => exact ⟨rfl, s.log_rxAccount rfl⟩
  | c3 | c7 | c8 | c10 | c11 | c12 => exact ⟨rfl, s.strobe_rxAccount _⟩
  | c5 i => exact ⟨rfl, s.writeEntry_rxAccount i⟩
  | c6 =>
    obtain ⟨-, hpa⟩ := htables nofun
    have hread : (s.xact s.paTable).rxAccount = s.rxAccount := by
      rw [hpa]
      exact s.xact_rxAccount _ (by decide)
    exact ⟨rfl, hread⟩
  | c13 => exact ⟨rfl, s.rearm_rxAccount⟩
  | c14 => exact ⟨hback, rfl⟩

theorem writeConfigStep_keepsRxAccount {s : State} (l : WcLabel) (hback : s.caller.offRead = true) :
    KeepsRxAccount s (writeConfigStep l s) := by
  cases l with
  | entry i => exact ⟨rfl, s.writeEntry_rxAccount i⟩
  | done => exact ⟨hback, rfl⟩

theorem transmitStep_keepsRxAccount {s : State} (l : TxLabel) (htag : TagInPlace s) (hback : s.caller.offRead = true) :
    KeepsRxAccount s (transmitStep l s) := by
  cases l with
  | t1 | t3 | t3p | t5 | t6 | t7 => exact ⟨rfl, s.strobe_rxAccount _⟩
  | t2 => exact ⟨rfl, htag.burst_rxAccount (s.txLength + 1)⟩
  | t2p => exact ⟨rfl, htag.burst_rxAccount 64⟩
  | t4 | t4pa => exact ⟨rfl, s.xact_rxAccount _ (by decide)⟩
  | t4pb => exact ⟨rfl, s.refill_rxAccount⟩
  | t4p => exact ⟨rfl, rfl⟩
  | t8 => exact ⟨hback, rfl⟩

theorem csmaStep_keepsRxAccount (l : CsmaLabel) (s : State) : KeepsRxAccount s (csmaStep l s) := by
  cases l with
  | a1 | a2 | a3 | a4 | a7 | a8 | a9 | a10 | a11 | a12 => exact ⟨rfl, rfl⟩
  | a5 => exact ⟨rfl, s.strobe_rxAccount _⟩
  | a6 => exact ⟨rfl, s.rearm_rxAccount⟩

/-- K5 alone resets the drain (rule R196). -/
theorem rxCompleteStep_keepsRxAccount {l : RxCompleteLabel} (s : State) (hl : l ≠ .k5) :
    KeepsRxAccount s (rxCompleteStep l s) := by
  cases l with
  | k1 => exact ⟨rfl, s.handoff_rxAccount _⟩
  | k3 | k4 => exact ⟨rfl, s.strobe_rxAccount _⟩
  | k2 | k6 => exact ⟨rfl, rfl⟩
  | k5 => exact absurd rfl hl

theorem exec_hostIn_keepsRxAccount {i : Instr} {s t : State} (hlink : i.link = some .hostIn) (h : exec i s = .next t) :
    KeepsRxAccount s t := by
  cases i with
  | hostConfig | hostOther => cases h; exact ⟨rfl, rfl⟩
  | hostData rest => cases h; exact ⟨rfl, s.loadTx_rxAccount _⟩
  | _ => cases hlink

theorem exec_hostDispatch_keepsRxAccount {s t : State} (hne : s.seq ≠ .dispatch .h2) (h : exec .hostDispatch s = .next t) :
    KeepsRxAccount s t := by
  change execHostDispatch s = .next t at h
  unfold execHostDispatch at h
  split at h
  next hseq => exact absurd hseq hne
  all_goals cases h; exact ⟨rfl, rfl⟩

/-! ## The micro-steps of the drain that read or store (rules R192 to R194) -/

/-- A FIFO read takes one byte in hand (rules R192, R194). -/
theorem RxProgress.of_read {base : List Byte} {s : State} {p : Pos} (h : RxProgress base s)
    (hoff : s.seq.offRead = true) (hp : p = .rxStep .s4 ∨ p = .rxLast .z2) : RxProgress base (s.rfifo1.goto p) where
  lengthKnown := h.lengthKnown
  noDirect := by obtain rfl | rfl := hp <;> nofun
  inHand _ := s.received_length 2
  reads := by
    have hhand : (s.rfifo1.goto p).rxInHand = (s.rfifo1.rx.drop 1).take 1 := State.rxInHand_of_reading hp
    have hbuf : (s.rfifo1.goto p).rxbuf = s.rxbuf := rfl
    have hplaced : (s.rfifo1.goto p).rxPlaced = s.rxPlaced :=
      congrArg (s.rxExpected :: ·) (State.readRun_of_rxbuf_eq hbuf 0 s.rxCursor)
    change fifoReads s.rfifo1.trace = base ++ (s.rfifo1.goto p).rxPlaced ++ _
    rw [hhand, hplaced, ← h.reads_of_offRead hoff, State.rfifo1, State.xact_fifoReads, if_pos rfl]

/-- Two received bytes hold the FIFO byte second (rule R132). -/
theorem State.rx_drop_take_of_length {s : State} (h : s.rx.length = 2) : (s.rx.drop 1).take 1 = [s.fifoByte] := by
  obtain ⟨x, b, hrx⟩ := List.length_eq_two.mp h
  rw [State.fifoByte, State.rxAt, hrx]
  rfl

/-- RXBUF after a store at `rx_cursor` inside it. -/
theorem State.readBuf_rxbuf_write (s : State) (c : Nat) (b : Byte) (i : Nat) :
    ({ s with rxbuf := Memory.write s.rxbuf c b } : State).readBuf .rxbuf i =
      if i = c then b else s.readBuf .rxbuf i := by
  change ((Memory.write s.rxbuf c b).read i).getD _ = _
  split
  next h => rw [h, Memory.read_write_same]; rfl
  next h => rw [Memory.read_write_other _ _ h]; rfl

/-- A stored byte is placed after those before it (rules R192 to R194). -/
theorem State.storeRx_rxPlaced {s : State} (b : Byte) (h : (s.storeRx b).marks.bufOverrun = false) :
    (s.storeRx b).rxPlaced = s.rxPlaced ++ [b] := by
  obtain ⟨-, heq⟩ | ⟨-, heq⟩ := s.storeRx_cases b
  · have hread := s.readBuf_rxbuf_write s.rxCursor b
    rw [heq, State.rxPlaced, State.rxPlaced, State.readRun_add, List.cons_append]
    congr 2
    · refine State.readRun_congr fun k hk => (hread (0 + k)).trans (if_neg (by omega))
    · exact congrArg (fun v => [v]) ((hread (0 + s.rxCursor)).trans (if_pos (Nat.zero_add _)))
  · rw [heq] at h
    cases h

/-- The byte in hand is placed, unless it is lost beyond RXBUF (rules R64, R193). -/
theorem RxProgress.of_store {base : List Byte} {s : State} {p : Pos} (h : RxProgress base s)
    (hin : s.seq = .rxStep .s4 ∨ s.seq = .rxLast .z2) (hp : p.offRead = true) :
    RxGoesOn base ((s.storeRx s.fifoByte).goto p) := by
  intro hnew hover
  refine rxProgress_of_offRead hp hnew ?_
  have hsame : ((s.storeRx s.fifoByte).goto p).rxAccount = (s.storeRx s.fifoByte).rxAccount := rfl
  have hplaced : ((s.storeRx s.fifoByte).goto p).rxPlaced = s.rxPlaced ++ [s.fifoByte] :=
    (State.rxPlaced_of_account hsame).trans (State.storeRx_rxPlaced s.fifoByte hover)
  have htrace : (s.storeRx s.fifoByte).trace = s.trace := (s.storeRx_observed (handler := False) s.fifoByte).trace_eq
  have hreads : fifoReads s.trace = base ++ s.rxPlaced ++ s.rxInHand := h.reads
  rw [hplaced, State.goto_trace, htrace, hreads, State.rxInHand_of_reading hin,
    State.rx_drop_take_of_length (h.inHand hin), List.append_assoc]

theorem rxStepStep_goesOn {base : List Byte} {s : State} {l : RxStepLabel} (h : RxProgress base s)
    (hseq : s.seq = .rxStep l) (hback : s.caller.offRead = true) : RxGoesOn base (rxStepStep l s) := by
  cases l with
  | s1 => exact h.goesOn (hseq ▸ rfl) ⟨rfl, s.xact_rxAccount _ (by decide)⟩
  | s2 =>
    refine h.goesOn (hseq ▸ rfl) ⟨?_, rfl⟩
    rw [rxStepStep, State.goto_seq]
    split <;> rfl
  | s3 => exact fun _ _ => h.of_read (hseq ▸ rfl) (.inl rfl)
  | s4 =>
    have hstores : s.takeFifoByte = s.storeRx s.fifoByte := by simp [State.takeFifoByte, h.lengthKnown]
    rw [rxStepStep, hstores]
    exact h.of_store (.inl hseq) rfl
  | s5 => exact h.goesOn (hseq ▸ rfl) ⟨hback, rfl⟩

theorem rxLastStep_goesOn {base : List Byte} {s : State} {l : RxLastLabel} (h : RxProgress base s)
    (hseq : s.seq = .rxLast l) (hback : s.caller.offRead = true) : RxGoesOn base (rxLastStep l s) := by
  cases l with
  | z1 => exact fun _ _ => h.of_read (hseq ▸ rfl) (.inr rfl)
  | z2 => exact h.of_store (.inr hseq) rfl
  | z3 => exact h.goesOn (hseq ▸ rfl) ⟨rfl, s.strobe_rxAccount _⟩
  | z4 => exact h.goesOn (hseq ▸ rfl) ⟨hback, rfl⟩

/-- V1 reads the last byte or polls, V2 hands the frame off (rule R197). -/
theorem rxServiceStep_goesOn {base : List Byte} {s : State} (l : RxServiceLabel) (h : RxProgress base s)
    (hoff : s.seq.offRead = true) : RxGoesOn base (rxServiceStep l s) := by
  cases l with
  | v1 =>
    unfold rxServiceStep
    dsimp only
    split
    · have hcalled : RxProgress base (s.callFrom (.rxService .v2)) := h.of_same rfl rfl rfl h.lengthKnown
      exact fun _ _ => hcalled.of_read hoff (.inr rfl)
    · exact h.goesOn hoff ⟨rfl, s.xact_rxAccount _ (by decide)⟩
  | v2 =>
    have hmark : s.markLenZero.rxAccount = s.rxAccount := by
      unfold State.markLenZero
      split <;> rfl
    obtain ⟨hoff', haccount⟩ := rxCompleteStep_keepsRxAccount (l := .k1) s.markLenZero nofun
    exact h.goesOn hoff ⟨hoff', haccount.trans hmark⟩

/-! ## A step of the machine (rules R30, R231, R253, R287) -/

theorem exec_rxComplete_of_seq {s : State} {l : RxCompleteLabel} (h : s.seq = .rxComplete l) :
    exec .rxComplete s = .next (rxCompleteStep l s) := by
  change execRxComplete s = _
  unfold execRxComplete
  rw [h]

theorem exec_rxService_of_seq {s : State} {l : RxServiceLabel} (h : s.seq = .rxService l) :
    exec .rxService s = .next (rxServiceStep l s) := by
  change execRxService s = _
  unfold execRxService
  rw [h]

/-- At `LOOP` RX_SERVICE is started, with V1 (rule R197). -/
theorem exec_rxService_of_loop {s : State} (h : s.seq = .loop) : exec .rxService s = .next (rxServiceStep .v1 s) := by
  change execRxService s = _
  unfold execRxService
  rw [h]

/-- Whatever the action leads to, the reconstruction goes on there. -/
def Action.RxGoesOn (base : List Byte) : Action → Prop
  | .outside t => Machine.RxGoesOn base t
  | .run i u => ∀ t, exec i u = .next t → Machine.RxGoesOn base t
  | .refuse _ => True

theorem loopAction_rxGoesOn {base : List Byte} (k : Nat) {s : State} (h : RxProgress base s) (hseq : s.seq = .loop) :
    (loopAction k s).RxGoesOn base := by
  have hoff : s.seq.offRead = true := hseq ▸ rfl
  unfold loopAction
  split
  next i hpick =>
    intro t hexec
    obtain ⟨rfl, -⟩ | ⟨rfl, -⟩ | ⟨rfl, -⟩ | ⟨rfl, -⟩ := State.pickService_cases hpick
    · cases (exec_rxService_of_loop hseq).symm.trans hexec
      exact rxServiceStep_goesOn .v1 h hoff
    · cases (exec_csmaService_of_loop hseq).symm.trans hexec
      exact h.goesOn hoff (csmaStep_keepsRxAccount .a1 s)
    · exact h.goesOn hoff (exec_hostDispatch_keepsRxAccount (by rw [hseq]; nofun) hexec)
    · cases hexec
      exact h.goesOn hoff ⟨by rw [State.drain_seq, hoff], s.drain_rxAccount⟩
  next => exact fun _ _ => h

/-- Inside an operation the discipline gives where it returns to, and what CONFIGURE and TRANSMIT send. -/
theorem opAction_rxGoesOn {base : List Byte} {s : State} (h : RxProgress base s) (hs : Disciplined s)
    (htag : TagInPlace s) (hin : s.seq.inOperation = true) (hk5 : s.seq ≠ .rxComplete .k5) :
    (opAction s).RxGoesOn base := by
  unfold opAction
  cases hseq : s.seq with
  | loop | boot | direct => exact fun _ _ => h
  | configure l =>
    intro t hexec
    cases (exec_configure_of_seq _ hseq).symm.trans hexec
    obtain ⟨hcaller, -, htables⟩ := (disciplined_configure_iff hseq).mp hs
    exact h.goesOn (hseq ▸ rfl) (configureStep_keepsRxAccount s.csc htables (hcaller ▸ rfl))
  | writeConfig l =>
    intro t hexec
    cases (exec_writeConfig_of_seq _ hseq).symm.trans hexec
    have hcaller : s.caller = .loop := by simpa only [Disciplined, hseq] using hs
    exact h.goesOn (hseq ▸ rfl) (writeConfigStep_keepsRxAccount l (hcaller ▸ rfl))
  | transmit l =>
    intro t hexec
    cases (exec_transmit_of_seq hseq).symm.trans hexec
    obtain ⟨hcaller, -, -⟩ := (disciplined_transmit_iff hseq).mp hs
    exact h.goesOn (hseq ▸ rfl) (transmitStep_keepsRxAccount l htag (hcaller ▸ rfl))
  | rxStep l =>
    intro t hexec
    cases (exec_rxStep_of_seq hseq).symm.trans hexec
    have hcaller : s.caller = .loop := by simpa only [Disciplined, hseq] using hs
    exact rxStepStep_goesOn h hseq (hcaller ▸ rfl)
  | rxLast l =>
    intro t hexec
    cases (exec_rxLast_of_seq hseq).symm.trans hexec
    have hcaller : s.caller = .rxService .v2 := by simpa only [Disciplined, hseq] using hs
    exact rxLastStep_goesOn h hseq (hcaller ▸ rfl)
  | rxComplete l =>
    intro t hexec
    cases (exec_rxComplete_of_seq hseq).symm.trans hexec
    exact h.goesOn (hseq ▸ rfl) (rxCompleteStep_keepsRxAccount s fun hl => hk5 (hseq.trans (congrArg _ hl)))
  | rxService l =>
    intro t hexec
    cases (exec_rxService_of_seq hseq).symm.trans hexec
    exact rxServiceStep_goesOn l h (hseq ▸ rfl)
  | csma l =>
    intro t hexec
    cases (exec_csmaService_of_seq hseq).symm.trans hexec
    exact h.goesOn (hseq ▸ rfl) (csmaStep_keepsRxAccount l s)
  | dispatch l =>
    refine fun t hexec => h.goesOn (hseq ▸ rfl) (exec_hostDispatch_keepsRxAccount (fun hh2 => ?_) hexec)
    rw [hh2] at hin
    cases hin

theorem sequencerAction_rxGoesOn {base : List Byte} (k : Nat) {s : State} (h : RxProgress base s) (hs : Disciplined s)
    (htag : TagInPlace s) (hk5 : s.seq ≠ .rxComplete .k5) : (sequencerAction k s).RxGoesOn base := by
  cases hin : s.seq.inOperation with
  | true => exact sequencerAction_of_inOperation k hin ▸ opAction_rxGoesOn h hs htag hin hk5
  | false =>
    obtain hseq | hseq | hseq | hseq := Pos.cases_of_not_inOperation hin
    · exact sequencerAction_of_loop k hseq ▸ loopAction_rxGoesOn k h hseq
    · rw [sequencerAction_of_boot k hseq]
      rintro t ⟨⟩
      refine h.goesOn (hseq ▸ rfl) ⟨?_, (s.goto .loop).queueToHost_rxAccount _⟩
      exact congrArg Pos.offRead ((s.goto .loop).writeRun_seq .htx 0 _)
    · exact absurd hseq h.noDirect
    · obtain ⟨i, hdec⟩ := decodeHostIn_hostFrame s
      rw [sequencerAction_of_h2 k hseq hdec]
      have hlink : i.link = some .hostIn := decode_link (l := .hostIn) (bytes := s.hostFrame) hdec
      exact fun t hexec => h.goesOn (hseq ▸ rfl) (exec_hostIn_keepsRxAccount hlink hexec)

theorem step_rxGoesOn {base : List Byte} {s t : State} {k : Nat} (hm : s.nextMove = .loop k) (h : RxProgress base s)
    (hs : Disciplined s) (htag : TagInPlace s) (hk5 : s.seq ≠ .rxComplete .k5) (hstep : step s = .next t) :
    RxGoesOn base t := by
  have hmoved : RxProgress base s.afterMove := h.of_same rfl rfl rfl h.lengthKnown
  have hgoes : s.nextAction.RxGoesOn base := by
    unfold State.nextAction
    rw [hm]
    exact sequencerAction_rxGoesOn k hmoved hs htag hk5
  obtain hout | ⟨i, u, hrun, hexec⟩ := step_cases hstep
  · rwa [hout] at hgoes
  · rw [hrun] at hgoes
    exact hgoes t hexec

/-- An interrupt or an act of the outside changes nothing of the account (rules R253, R255). -/
theorem OnlyOutsideDiffers.rxProgress {base : List Byte} {s t : State} (h : OnlyOutsideDiffers s t)
    (hs : RxProgress base s) (hnew : t.newPacket = false) : RxProgress base t := by
  have ht : t = s.withOutsideOf t := h
  rw [ht]
  exact hs.of_same rfl rfl rfl hnew

end Sys2Proof.Machine

namespace Sys2Proof.Proofs

open Sys2Proof Sys2Proof.Machine

/-- Settles O33: of the sequencer's micro-steps those that read or store a FIFO byte move it into the account, the others
leave the account alone, as does whatever is not the sequencer's. -/
theorem reconstructionKept : Obligations.ReconstructionKept := by
  intro base s t hs htag hprogress hstep hnew hover hk5
  by_cases hm : ∃ k, s.nextMove = .loop k
  · obtain ⟨k, hm⟩ := hm
    exact step_rxGoesOn hm hprogress hs htag hk5 hstep hnew hover
  · exact (step_onlyOutside (not_exists.mp hm) hstep).rxProgress hprogress hnew

end Sys2Proof.Proofs
end

section
/-! PROOFS. The sync-edge handler, RX_STEP label by label, and the last-byte path: RX_LAST and RX_COMPLETE as whole runs,
and the loop context's run through both. -/

namespace Sys2Proof.Machine

/-! ## The sync-edge handler (rules R29, R191) -/

/-- With the interrupt enabled a rising edge runs the handler. -/
theorem State.takeSyncEdge_of_enabled {s : State} (h : s.irqEn = true) :
    s.takeSyncEdge = { s with newPacket := true, rxActive := true, ledRx := true } :=
  if_pos h

/-! ## RX_STEP (rules R192, R193) -/

/-- Outside its own positions RX_STEP is started, with S1 (log entry 7). -/
theorem exec_rxStep_start {s : State} (h : ∀ l, s.seq ≠ .rxStep l) :
    exec .rxStep s = .next (startRxStep s.seq s) := by
  change execRxStep s = _
  unfold execRxStep
  split
  next l hseq => exact absurd hseq (h l)
  next => rfl

/-- A received second byte is the FIFO byte (rule R132). -/
theorem State.fifoByte_of_rx {s : State} {b : Byte} (h : s.rx[1]? = some b) : s.fifoByte = b := by
  rw [State.fifoByte, State.rxAt, List.getD_eq_getElem?_getD, h]
  rfl

theorem State.storeRx_of_room {s : State} (b : Byte) (h : s.rxCursor < 255) :
    s.storeRx b = { s with rxbuf := Memory.write s.rxbuf s.rxCursor b, rxCursor := s.rxCursor + 1 } := by
  obtain ⟨-, heq⟩ | ⟨hfull, -⟩ := s.storeRx_cases b
  · exact heq
  · omega

theorem State.storeRx_of_full {s : State} (b : Byte) (h : 255 ≤ s.rxCursor) : s.storeRx b = s.mark .bufOverrun := by
  obtain ⟨hroom, -⟩ | ⟨-, heq⟩ := s.storeRx_cases b
  · omega
  · exact heq

/-- S4's length-taking branch (rule R192). -/
theorem rxStepStep_s4_of_newPacket {s : State} {b : Byte} (hrx : s.rx[1]? = some b) (hnew : s.newPacket = true) :
    rxStepStep .s4 s = { s with rxExpected := b, newPacket := false, seq := .rxStep .s5 } := by
  rw [rxStepStep, State.takeFifoByte, if_pos hnew, State.fifoByte_of_rx hrx]
  rfl

/-- S4's storing branch (rule R192). -/
theorem rxStepStep_s4_of_known {s : State} (hnew : s.newPacket = false) :
    rxStepStep .s4 s = (s.storeRx s.fifoByte).goto (.rxStep .s5) := by
  simp [rxStepStep, State.takeFifoByte, hnew]

/-! ## RX_SERVICE's test V1 (rule R197) -/

theorem State.lastByteDue_iff (s : State) :
    s.lastByteDue = true ↔ s.newPacket = false ∧ s.rxExpected.toNat ≤ s.rxCursor + 1 := by
  simp [State.lastByteDue]

theorem rxServiceStep_v1_of_due {s : State} (h : s.lastByteDue = true) :
    rxServiceStep .v1 s = startRxLast (.rxService .v2) s :=
  if_pos h

theorem rxServiceStep_v1_of_not_due {s : State} (h : ¬ s.lastByteDue = true) :
    rxServiceStep .v1 s = startRxStep .loop s :=
  if_neg h

/-! ## What the bus side leaves alone -/

theorem Marks.add_comm (ms : Marks) (m n : Mark) : (ms.add m).add n = (ms.add n).add m := by
  cases m <;> cases n <;> rfl

/-- The bus sets no mark but the informational one (rule R136). -/
theorem OnlyBusDiffers.marks_has {s t : State} (h : OnlyBusDiffers s t) {m : Mark} (hm : m ≠ .busTimeout) :
    t.marks.has m = s.marks.has m := by
  obtain ⟨_, _, _, _, _, _, marks, _, rfl, rfl | rfl, -⟩ := h
  · rfl
  · simp [Marks.has_add, hm]

theorem OnlyBusDiffers.readBuf {s t : State} (h : OnlyBusDiffers s t) (b : BufId) (i : Nat) :
    t.readBuf b i = s.readBuf b i := by
  obtain ⟨_, _, _, _, _, _, _, _, rfl, -, -⟩ := h
  rfl

theorem OnlyBusDiffers.mark {s t : State} (h : OnlyBusDiffers s t) (m : Mark) : OnlyBusDiffers (s.mark m) (t.mark m) := by
  obtain ⟨csN, rx, trace, led0, led1, chip, marks, env, rfl, hmarks, hmoves⟩ := h
  refine ⟨csN, rx, trace, led0, led1, chip, marks.add m, env, rfl, ?_, hmoves⟩
  obtain rfl | rfl := hmarks
  · exact .inl rfl
  · exact .inr (Marks.add_comm s.marks .busTimeout m)

/-- Where two states differ on the bus side alone, they still do after storing the same byte. -/
theorem OnlyBusDiffers.storeRx {s t : State} (h : OnlyBusDiffers s t) (b : Byte) :
    OnlyBusDiffers (s.storeRx b) (t.storeRx b) := by
  have hcursor : t.rxCursor = s.rxCursor := by
    obtain ⟨_, _, _, _, _, _, _, _, rfl, -, -⟩ := h
    rfl
  by_cases hroom : s.rxCursor < 255
  · rw [State.storeRx_of_room b hroom, State.storeRx_of_room b (hcursor ▸ hroom)]
    obtain ⟨csN, rx, trace, led0, led1, chip, marks, env, rfl, hmarks, hmoves⟩ := h
    exact ⟨csN, rx, trace, led0, led1, chip, marks, env, rfl, hmarks, hmoves⟩
  · have hfull : 255 ≤ s.rxCursor := by omega
    rw [State.storeRx_of_full b hfull, State.storeRx_of_full b (hcursor ▸ hfull)]
    exact h.mark .bufOverrun

/-! ## RX_LAST (rules R194, R195) -/

/-- Outside its own positions RX_LAST is started, with Z1 (log entry 7). -/
theorem exec_rxLast_start {s : State} (h : ∀ l, s.seq ≠ .rxLast l) :
    exec .rxLast s = .next (startRxLast s.seq s) := by
  change execRxLast s = _
  unfold execRxLast
  split
  next l hseq => exact absurd hseq (h l)
  next => rfl

/-- The byte that an RFIFO1 gives next (rule R132). -/
def State.nextFifoByte (s : State) : Byte := s.rfifo1.fifoByte

/-- The state after Z2: the byte is read and stored. -/
def rxLastStored (back : Pos) (s : State) : State := rxLastStep .z2 (startRxLast back s)

theorem rxLastStored_eq (back : Pos) (s : State) :
    rxLastStored back s = ((startRxLast back s).storeRx s.nextFifoByte).goto (.rxLast .z3) := by
  have hbyte : (startRxLast back s).fifoByte = s.nextFifoByte := rfl
  rw [rxLastStored, rxLastStep, hbyte]

/-- The state after RX_LAST, run alone from its start to its return to `back`. -/
def rxLastEnd (back : Pos) (s : State) : State := rxLastStep .z4 (rxLastStep .z3 (rxLastStored back s))

theorem runInstr_rxLast {s : State} (h : ∀ l, s.seq ≠ .rxLast l) :
    runInstr .rxLast 4 s = .next (rxLastEnd s.seq s) :=
  calc runInstr .rxLast 4 s
    _ = runInstr .rxLast 3 (startRxLast s.seq s) := runInstr_of_next (exec_rxLast_start h)
    _ = runInstr .rxLast 2 (rxLastStored s.seq s) := runInstr_of_next (exec_rxLast_of_seq rfl)
    _ = runInstr .rxLast 1 (rxLastStep .z3 (rxLastStored s.seq s)) := runInstr_of_next (exec_rxLast_of_seq rfl)
    _ = .next (rxLastEnd s.seq s) := runInstr_of_next (exec_rxLast_of_seq rfl)

/-- An RFIFO1 receives the status byte and the FIFO byte (rule R132). -/
theorem State.rfifo1_rx (s : State) : ∃ x, s.rfifo1.rx = [x, s.nextFifoByte] := by
  obtain ⟨x, b, hrx⟩ := List.length_eq_two.mp (s.received_length 2)
  have hrx : s.rfifo1.rx = [x, b] := hrx
  exact ⟨x, by rw [State.nextFifoByte, State.fifoByte_of_rx (b := b) (by rw [hrx]; rfl), hrx]⟩

/-- A strobe receives the status byte (rule R121). -/
theorem State.strobe_trace (s : State) {a h : Byte} (ha : hdrSingleWrite a = h) :
    ∃ y, (s.strobe a).trace = s.trace ++ [.xact [h] [y]] := by
  obtain ⟨y, hrx⟩ := List.length_eq_one_iff.mp (s.received_length 1)
  exact ⟨y, congrArg₂ (fun tx rx => s.trace ++ [.xact tx rx]) (congrArg (fun h => [h]) ha) hrx⟩

theorem State.storeRx_trace (s : State) (b : Byte) : (s.storeRx b).trace = s.trace :=
  (s.storeRx_observed (handler := False) b).trace_eq

/-- The store and the return do not meddle with each other. -/
theorem State.storeRx_ret (s : State) (b : Byte) : (s.storeRx b).ret = s.ret.storeRx b := by
  by_cases hroom : s.rxCursor < 255
  · rw [State.storeRx_of_room b hroom, State.storeRx_of_room b (s := s.ret) hroom]
    rfl
  · have hfull : 255 ≤ s.rxCursor := by omega
    rw [State.storeRx_of_full b hfull, State.storeRx_of_full b (s := s.ret) hfull]
    rfl

/-- What RX_LAST shows: the read, which gives the byte it stores, then the idle strobe (rule R195). -/
theorem rxLastEnd_trace (back : Pos) (s : State) :
    ∃ x y, (rxLastEnd back s).trace = s.trace ++ [.xact [0xBF, 0x00] [x, s.nextFifoByte], .xact [0x36] [y]] := by
  obtain ⟨x, hread⟩ := s.rfifo1_rx
  obtain ⟨y, hidle⟩ := (rxLastStored back s).strobe_trace (a := Config.codes.aSidle) (h := 0x36) (by decide)
  have hidle : (rxLastEnd back s).trace = (rxLastStored back s).trace ++ [.xact [0x36] [y]] := hidle
  refine ⟨x, y, ?_⟩
  calc (rxLastEnd back s).trace
    _ = (rxLastStored back s).trace ++ [.xact [0x36] [y]] := hidle
    _ = (s.trace ++ [.xact [0xBF, 0x00] s.rfifo1.rx]) ++ [.xact [0x36] [y]] := by
      rw [rxLastStored_eq, State.goto_trace, State.storeRx_trace]
      rfl
    _ = s.trace ++ [.xact [0xBF, 0x00] [x, s.nextFifoByte], .xact [0x36] [y]] := by rw [hread, List.append_assoc]; rfl

/-- The state after RX_LAST but for the bus side: the return position, and the store. -/
def rxLastDone (back : Pos) (s : State) : State := ((s.callFrom back).goto back).storeRx s.nextFifoByte

theorem rxLastDone_of_room (back : Pos) {s : State} (h : s.rxCursor < 255) :
    rxLastDone back s = { s with caller := back, seq := back, rxbuf := Memory.write s.rxbuf s.rxCursor s.nextFifoByte,
                                 rxCursor := s.rxCursor + 1 } :=
  State.storeRx_of_room (s := (s.callFrom back).goto back) _ h

theorem rxLastDone_of_full (back : Pos) {s : State} (h : 255 ≤ s.rxCursor) :
    rxLastDone back s = { s with caller := back, seq := back, marks := s.marks.add .bufOverrun } :=
  State.storeRx_of_full (s := (s.callFrom back).goto back) _ h

theorem rxLastDone_rxExpected (back : Pos) (s : State) : (rxLastDone back s).rxExpected = s.rxExpected := by
  obtain ⟨-, h⟩ | ⟨-, h⟩ := ((s.callFrom back).goto back).storeRx_cases s.nextFifoByte <;> rw [rxLastDone, h] <;> rfl

theorem rxLastEnd_bus (back : Pos) (s : State) : OnlyBusDiffers (rxLastDone back s) (rxLastEnd back s) := by
  have hread : OnlyBusDiffers ((s.callFrom back).goto back) (startRxLast back s).ret :=
    .of_transacts (State.xact_transacts _ [0xBF, 0x00])
  have hidle (u : State) : OnlyBusDiffers u.ret (rxLastStep .z4 (rxLastStep .z3 u)) :=
    .of_transacts (u.ret.xact_transacts [0x36])
  have hret : (rxLastStored back s).ret = (startRxLast back s).ret.storeRx s.nextFifoByte := by
    rw [rxLastStored_eq]
    exact (startRxLast back s).storeRx_ret s.nextFifoByte
  exact (hread.storeRx _).trans (hret ▸ hidle (rxLastStored back s))

/-! ## RX_COMPLETE (rules R196, R235) -/

/-- Outside its own positions RX_COMPLETE is started, with K1 (log entry 7). -/
theorem exec_rxComplete_start {s : State} (h : ∀ l, s.seq ≠ .rxComplete l) :
    exec .rxComplete s = .next (rxCompleteStep .k1 s) := by
  change execRxComplete s = _
  unfold execRxComplete
  split
  next l hseq => exact absurd hseq (h l)
  next => rfl

/-- K1: the frame is handed off, and K2 is next (rule R235). -/
theorem rxCompleteStep_k1_eq (s : State) :
    rxCompleteStep .k1 s =
      { s with htx := Memory.writeRun s.htx 0 s.rxFrame, htxLen := s.rxExpected.toNat, htxCursor := 0, sendPending := true,
               trace := s.trace ++ [.handoff s.rxFrame],
               marks := if s.sendPending then s.marks.add .hostTxOverwrite else s.marks, seq := .rxComplete .k2 } := by
  have hlen : s.rxFrame.length = s.rxExpected.toNat := s.readRun_length .rxbuf 0 _
  rw [rxCompleteStep, State.handoff_eq s s.rxFrame_length_le, hlen]
  rfl

/-- The state after RX_COMPLETE but for its two strobes. -/
def State.completed (s : State) : State :=
  { s with htx := Memory.writeRun s.htx 0 s.rxFrame, htxLen := s.rxExpected.toNat, htxCursor := 0, sendPending := true,
           ledRx := false, rxActive := false, rxCursor := 0, seq := .loop,
           marks := if s.sendPending then s.marks.add .hostTxOverwrite else s.marks }

/-- The state after K2 to K6, from the one after K1. -/
def rxCompleteRest (s : State) : State :=
  rxCompleteStep .k6 (rxCompleteStep .k5 (rxCompleteStep .k4 (rxCompleteStep .k3 (rxCompleteStep .k2 s))))

/-- The state after RX_COMPLETE, run alone. -/
def rxCompleteEnd (s : State) : State := rxCompleteRest (rxCompleteStep .k1 s)

theorem rxCompleteEnd_eq (s : State) :
    rxCompleteEnd s = ((s.completed.log (.handoff s.rxFrame)).strobe Config.codes.aSfrx).strobe Config.codes.aSrx := by
  rw [rxCompleteEnd, rxCompleteStep_k1_eq]
  rfl

theorem runInstr_rxComplete_of_seq {n : Nat} {s : State} {l : RxCompleteLabel} (h : s.seq = .rxComplete l) :
    runInstr .rxComplete (n + 1) s = runInstr .rxComplete n (rxCompleteStep l s) :=
  runInstr_of_next (exec_rxComplete_of_seq h)

theorem runInstr_rxCompleteRest {s : State} (h : s.seq = .rxComplete .k2) :
    runInstr .rxComplete 5 s = .next (rxCompleteRest s) := by
  rw [runInstr_rxComplete_of_seq h, runInstr_rxComplete_of_seq rfl, runInstr_rxComplete_of_seq rfl,
    runInstr_rxComplete_of_seq rfl, runInstr_rxComplete_of_seq rfl]
  rfl

theorem runInstr_rxComplete {s : State} (h : ∀ l, s.seq ≠ .rxComplete l) :
    runInstr .rxComplete 6 s = .next (rxCompleteEnd s) :=
  (runInstr_of_next (exec_rxComplete_start h)).trans (runInstr_rxCompleteRest rfl)

/-- What RX_COMPLETE shows: the hand-off, then flush-RX, then enable-RX (rule R196). -/
theorem rxCompleteEnd_trace (s : State) :
    ∃ z w, (rxCompleteEnd s).trace = s.trace ++ [.handoff s.rxFrame, .xact [0x3A] [z], .xact [0x34] [w]] := by
  obtain ⟨z, hflush⟩ :=
    (s.completed.log (.handoff s.rxFrame)).strobe_trace (a := Config.codes.aSfrx) (h := 0x3A) (by decide)
  obtain ⟨w, henable⟩ := State.strobe_trace ((s.completed.log (.handoff s.rxFrame)).strobe Config.codes.aSfrx)
    (a := Config.codes.aSrx) (h := 0x34) (by decide)
  refine ⟨z, w, ?_⟩
  have hquiet : s.completed.trace = s.trace := rfl
  rw [rxCompleteEnd_eq, henable, hflush, State.log_trace, hquiet, List.append_assoc, List.append_assoc]
  rfl

theorem rxCompleteEnd_bus (s : State) : OnlyBusDiffers s.completed (rxCompleteEnd s) := by
  have hlog : OnlyBusDiffers s.completed (s.completed.log (.handoff s.rxFrame)) :=
    ⟨_, _, _, _, _, _, _, _, rfl, .inl rfl, rfl⟩
  rw [rxCompleteEnd_eq]
  exact (hlog.trans (.of_transacts (State.xact_transacts _ _))).trans (.of_transacts (State.xact_transacts _ _))

theorem State.readRun_getElem (s : State) (b : BufId) {i n k : Nat} (h : k < (s.readRun b i n).length) :
    (s.readRun b i n)[k] = s.readBuf b (i + k) := by
  induction n generalizing i k with
  | zero => cases h
  | succ n ih =>
    cases k with
    | zero => rfl
    | succ k =>
      rw [show i + (k + 1) = i + 1 + k by omega]
      exact ih (Nat.lt_of_succ_lt_succ h)

/-- HTX after the hand-off: the frame, and the rest as before (rule R235). -/
theorem State.readBuf_htx_handedOff (s : State) (i : Nat) :
    ({ s with htx := Memory.writeRun s.htx 0 s.rxFrame } : State).readBuf .htx i =
      if i < s.rxExpected.toNat then s.readBuf .rxbuf i else s.readBuf .htx i := by
  have hlen : s.rxFrame.length = s.rxExpected.toNat := s.readRun_length .rxbuf 0 _
  have hfits : 0 + s.rxFrame.length ≤ Config.cap .htx := by rw [Nat.zero_add]; exact s.rxFrame_length_le
  have hwrite : s.writeRun .htx 0 s.rxFrame = { s with htx := Memory.writeRun s.htx 0 s.rxFrame } := s.writeRun_in hfits
  rw [← hwrite]
  split
  next hi =>
    have hi' : i < s.rxFrame.length := hlen.symm ▸ hi
    have hbyte : s.rxFrame[i] = s.readBuf .rxbuf (0 + i) := s.readRun_getElem .rxbuf hi'
    have hread := s.readBuf_writeRun_in hfits hi'
    rwa [hbyte, Nat.zero_add] at hread
  next hi => exact s.readBuf_writeRun_out hfits (.inr (by omega))

/-! ## The loop context alone (rules R197, R287) -/

/-- `n` micro-steps of the loop context lead from `s` to `t`. -/
def SoloLeads (n : Nat) (s t : State) : Prop := ∀ m, s.soloRun (m + n) = t.soloRun m

theorem SoloLeads.of_solo {s t : State} (h : s.solo = .next t) : SoloLeads 1 s t :=
  fun _ => State.soloRun_of_next h

theorem SoloLeads.trans {n k : Nat} {s t u : State} (h : SoloLeads n s t) (h' : SoloLeads k t u) :
    SoloLeads (k + n) s u := by
  intro m
  rw [← Nat.add_assoc, h, h']

theorem SoloLeads.run {n : Nat} {s t : State} (h : SoloLeads n s t) : s.soloRun n = .next t := by
  have hrun := h 0
  rwa [Nat.zero_add] at hrun

/-- Inside an operation the loop context runs that operation's next micro-step (rule R30). -/
theorem State.solo_of_inOperation {s : State} {i : Instr} (hin : s.seq.inOperation = true)
    (h : opAction s = .run i s) : s.solo = exec i s := by
  simp only [State.solo, sequencerAction_of_inOperation 0 hin, h]

theorem soloLeads_of_rxLast {s : State} {l : RxLastLabel} (h : s.seq = .rxLast l) : SoloLeads 1 s (rxLastStep l s) :=
  .of_solo <| (State.solo_of_inOperation (by rw [h]; rfl) (by rw [opAction, h])).trans (exec_rxLast_of_seq h)

theorem soloLeads_of_rxService {s : State} {l : RxServiceLabel} (h : s.seq = .rxService l) :
    SoloLeads 1 s (rxServiceStep l s) :=
  .of_solo <| (State.solo_of_inOperation (by rw [h]; rfl) (by rw [opAction, h])).trans (exec_rxService_of_seq h)

theorem soloLeads_of_rxComplete {s : State} {l : RxCompleteLabel} (h : s.seq = .rxComplete l) :
    SoloLeads 1 s (rxCompleteStep l s) :=
  .of_solo <| (State.solo_of_inOperation (by rw [h]; rfl) (by rw [opAction, h])).trans (exec_rxComplete_of_seq h)

/-- At `LOOP` in a drain, RX_SERVICE is the first enabled service (rule R197). -/
theorem soloLeads_of_rxActive {s : State} (hseq : s.seq = .loop) (hactive : s.rxActive = true) :
    SoloLeads 1 s (rxServiceStep .v1 s) := by
  have hpick : s.pickService 0 = some .rxService := by
    simp [State.pickService, State.enabledServices, hactive]
  have haction : sequencerAction 0 s = .run .rxService s := by
    simp only [sequencerAction_of_loop 0 hseq, loopAction, hpick]
  exact .of_solo (by simp only [State.solo, haction, exec_rxService_of_loop hseq])

/-! ### The last-byte path (rules R195, R197) -/

/-- A drain at `LOOP` whose last-byte path is due. -/
structure State.AtLastByte (s : State) : Prop where
  seq : s.seq = .loop
  active : s.rxActive = true
  due : s.lastByteDue = true

/-- The state at V2 with the mark of an expected length 0 (rule R199). -/
def lastByteMarked (s : State) : State := (rxLastEnd (.rxService .v2) s).markLenZero

/-- The state after the last-byte path. -/
def lastByteEnd (s : State) : State := rxCompleteEnd (lastByteMarked s)

theorem State.AtLastByte.leads_stored {s : State} (h : s.AtLastByte) :
    SoloLeads 2 s (rxLastStored (.rxService .v2) s) := by
  have hstart := soloLeads_of_rxActive h.seq h.active
  rw [rxServiceStep_v1_of_due h.due] at hstart
  exact hstart.trans (soloLeads_of_rxLast rfl)

theorem State.AtLastByte.leads_idled {s : State} (h : s.AtLastByte) :
    SoloLeads 3 s (rxLastStep .z3 (rxLastStored (.rxService .v2) s)) :=
  h.leads_stored.trans (soloLeads_of_rxLast rfl)

/-- RX_LAST returns to where it was called from. -/
theorem rxLastEnd_seq (back : Pos) (s : State) : (rxLastEnd back s).seq = back := by
  have hcaller : (rxLastStored back s).caller = back :=
    (startRxLast back s).storeRx_caller (startRxLast back s).fifoByte
  have hreturn (u : State) : (rxLastStep .z4 (rxLastStep .z3 u)).seq = u.caller := rfl
  exact (hreturn _).trans hcaller

theorem State.AtLastByte.leads_rxLastEnd {s : State} (h : s.AtLastByte) :
    SoloLeads 4 s (rxLastEnd (.rxService .v2) s) :=
  h.leads_idled.trans (soloLeads_of_rxLast rfl)

/-- RX_COMPLETE follows RX_LAST directly (rule R195). -/
theorem State.AtLastByte.leads_handedOff {s : State} (h : s.AtLastByte) :
    SoloLeads 5 s (rxCompleteStep .k1 (lastByteMarked s)) :=
  h.leads_rxLastEnd.trans (soloLeads_of_rxService (rxLastEnd_seq _ s))

theorem soloLeads_rxCompleteRest {s : State} (h : s.seq = .rxComplete .k2) : SoloLeads 5 s (rxCompleteRest s) :=
  ((((soloLeads_of_rxComplete h).trans (soloLeads_of_rxComplete rfl)).trans (soloLeads_of_rxComplete rfl)).trans
    (soloLeads_of_rxComplete rfl)).trans (soloLeads_of_rxComplete rfl)

theorem State.AtLastByte.leads_end {s : State} (h : s.AtLastByte) : SoloLeads 10 s (lastByteEnd s) :=
  h.leads_handedOff.trans (soloLeads_rxCompleteRest rfl)

/-! ### What the last-byte path leaves -/

/-- The bus leaves what the drain and the host link keep of a packet. -/
theorem OnlyBusDiffers.drain_frame {s t : State} (h : OnlyBusDiffers s t) :
    t.rxExpected = s.rxExpected ∧ t.rxActive = s.rxActive ∧ t.rxCursor = s.rxCursor ∧ t.htxLen = s.htxLen ∧
      t.seq = s.seq := by
  obtain ⟨_, _, _, _, _, _, _, _, rfl, -, -⟩ := h
  exact ⟨rfl, rfl, rfl, rfl, rfl⟩

theorem OnlyBusDiffers.rxFrame {s t : State} (h : OnlyBusDiffers s t) : t.rxFrame = s.rxFrame := by
  obtain ⟨hexpected, -⟩ := h.drain_frame
  rw [State.rxFrame, hexpected]
  exact State.readRun_congr fun k _ => h.readBuf .rxbuf (0 + k)

theorem OnlyBusDiffers.markLenZero {s t : State} (h : OnlyBusDiffers s t) :
    OnlyBusDiffers s.markLenZero t.markLenZero := by
  obtain ⟨hexpected, -⟩ := h.drain_frame
  unfold State.markLenZero
  rw [hexpected]
  split
  · exact h.mark .rxLenZero
  · exact h

theorem OnlyBusDiffers.completed {s t : State} (h : OnlyBusDiffers s t) : OnlyBusDiffers s.completed t.completed := by
  have hframe := h.rxFrame
  obtain ⟨csN, rx, trace, led0, led1, chip, marks, env, rfl, hmarks, hmoves⟩ := h
  unfold State.completed
  rw [hframe]
  refine ⟨csN, rx, trace, led0, led1, chip, _, env, rfl, ?_, hmoves⟩
  cases s.sendPending with
  | false => exact hmarks
  | true =>
    obtain rfl | rfl := hmarks
    · exact .inl rfl
    · exact .inr (Marks.add_comm s.marks .busTimeout .hostTxOverwrite)

theorem State.markLenZero_marks_has (s : State) (m : Mark) :
    s.markLenZero.marks.has m = (s.marks.has m || decide (s.rxExpected = 0 ∧ m = .rxLenZero)) := by
  unfold State.markLenZero
  split
  next h => simp [Marks.has_add, h]
  next h => rw [decide_eq_false fun hzero => h hzero.1, Bool.or_false]

theorem State.completed_marks_has (s : State) (m : Mark) :
    s.completed.marks.has m = (s.marks.has m || decide (s.sendPending = true ∧ m = .hostTxOverwrite)) := by
  unfold State.completed
  dsimp only
  split
  next h => simp [Marks.has_add, h]
  next h => simp [h]

theorem State.markLenZero_frame (s : State) :
    s.markLenZero.rxExpected = s.rxExpected ∧ s.markLenZero.sendPending = s.sendPending ∧
      s.markLenZero.trace = s.trace ∧ s.markLenZero.rxbuf = s.rxbuf := by
  unfold State.markLenZero
  split
  · exact ⟨rfl, rfl, rfl, rfl⟩
  · exact ⟨rfl, rfl, rfl, rfl⟩

/-- The state after the last-byte path but for the bus side. -/
def lastByteDone (s : State) : State := (rxLastDone (.rxService .v2) s).markLenZero.completed

theorem lastByteEnd_bus (s : State) : OnlyBusDiffers (lastByteDone s) (lastByteEnd s) :=
  (rxLastEnd_bus (.rxService .v2) s).markLenZero.completed.trans (rxCompleteEnd_bus _)

theorem lastByteEnd_idle (s : State) :
    (lastByteEnd s).seq = .loop ∧ (lastByteEnd s).rxActive = false ∧ (lastByteEnd s).rxCursor = 0 := by
  obtain ⟨-, hactive, hcursor, -, hseq⟩ := (lastByteEnd_bus s).drain_frame
  exact ⟨hseq, hactive, hcursor⟩

theorem lastByteEnd_htxLen (s : State) : (lastByteEnd s).htxLen = s.rxExpected.toNat := by
  obtain ⟨-, -, -, hlen, -⟩ := (lastByteEnd_bus s).drain_frame
  obtain ⟨hmark, -⟩ := (rxLastDone (.rxService .v2) s).markLenZero_frame
  exact hlen.trans (congrArg BitVec.toNat (hmark.trans (rxLastDone_rxExpected _ s)))

theorem lastByteMarked_rxExpected (s : State) : (lastByteMarked s).rxExpected = s.rxExpected := by
  obtain ⟨hmark, -⟩ := (rxLastEnd (.rxService .v2) s).markLenZero_frame
  obtain ⟨hexpected, -⟩ := (rxLastEnd_bus (.rxService .v2) s).drain_frame
  exact hmark.trans (hexpected.trans (rxLastDone_rxExpected _ s))

/-- The frame of the last-byte path stands in RXBUF at its end. -/
theorem lastByteMarked_rxFrame (s : State) :
    (lastByteMarked s).rxFrame = (lastByteEnd s).readRun .rxbuf 0 s.rxExpected.toNat := by
  have hbus := rxCompleteEnd_bus (lastByteMarked s)
  rw [State.rxFrame, lastByteMarked_rxExpected]
  exact (State.readRun_congr (s := lastByteMarked s) (t := lastByteEnd s) fun k _ => hbus.readBuf .rxbuf (0 + k)).symm

/-- The last-byte path shows RFIFO1, SIDLE, the hand-off, SFRX and SRX, in this order (rule R195). -/
theorem lastByteEnd_trace (s : State) :
    ∃ x y z w, (lastByteEnd s).trace = s.trace ++
      [.xact [0xBF, 0x00] [x, s.nextFifoByte], .xact [0x36] [y],
       .handoff ((lastByteEnd s).readRun .rxbuf 0 s.rxExpected.toNat), .xact [0x3A] [z], .xact [0x34] [w]] := by
  obtain ⟨x, y, hlast⟩ := rxLastEnd_trace (.rxService .v2) s
  obtain ⟨-, -, hmark, -⟩ := (rxLastEnd (.rxService .v2) s).markLenZero_frame
  obtain ⟨z, w, hcomplete⟩ := rxCompleteEnd_trace (lastByteMarked s)
  refine ⟨x, y, z, w, ?_⟩
  rw [← lastByteMarked_rxFrame]
  exact hcomplete.trans (by rw [lastByteMarked, hmark, hlast, List.append_assoc]; rfl)

theorem State.storeRx_effect_of_room {s : State} (b : Byte) (h : s.rxCursor < 255) :
    (s.storeRx b).rxCursor = s.rxCursor + 1 ∧ (s.storeRx b).rxExpected = s.rxExpected ∧
      (s.storeRx b).readBuf .rxbuf s.rxCursor = b := by
  rw [State.storeRx_of_room b h]
  exact ⟨rfl, rfl, (s.readBuf_rxbuf_write s.rxCursor b s.rxCursor).trans (if_pos rfl)⟩

/-- After Z2 the byte read stands at `rx_cursor`, which is one more (rule R194). -/
theorem rxLastStored_of_room (back : Pos) {s : State} (h : s.rxCursor < 255) :
    (rxLastStored back s).rxCursor = s.rxCursor + 1 ∧ (rxLastStored back s).rxExpected = s.rxExpected ∧
      (rxLastStored back s).readBuf .rxbuf s.rxCursor = s.nextFifoByte := by
  rw [rxLastStored_eq, State.goto_rxCursor, State.goto_rxExpected, State.goto_readBuf]
  have hcursor : (startRxLast back s).rxCursor = s.rxCursor := rfl
  have hexpected : (startRxLast back s).rxExpected = s.rxExpected := rfl
  have heffect := State.storeRx_effect_of_room s.nextFifoByte (hcursor.symm ▸ h)
  rwa [hcursor, hexpected] at heffect

/-- With room in RXBUF the last-byte path leaves the byte read in it (rule R194). -/
theorem lastByteEnd_readBuf_of_room {s : State} (h : s.rxCursor < 255) :
    (lastByteEnd s).readBuf .rxbuf s.rxCursor = s.nextFifoByte := by
  obtain ⟨-, -, -, hmark⟩ := (rxLastDone (.rxService .v2) s).markLenZero_frame
  have hbuf : (lastByteDone s).rxbuf = Memory.write s.rxbuf s.rxCursor s.nextFifoByte :=
    hmark.trans (congrArg State.rxbuf (rxLastDone_of_room _ h))
  have hread : Memory.read (lastByteDone s).rxbuf s.rxCursor = some s.nextFifoByte := by
    rw [hbuf, Memory.read_write_same]
  rw [(lastByteEnd_bus s).readBuf]
  exact congrArg (·.getD (Config.unwrittenByte .rxbuf s.rxCursor)) hread

/-- With room in RXBUF the last-byte path sets RxLenZero and HostTxOverwrite where the rules say so, and no other mark of
undefined behaviour (rules R199, R235, R252). -/
theorem lastByteEnd_marks_of_room {s : State} (h : s.rxCursor < 255) {m : Mark} (hm : m ≠ .busTimeout) :
    (lastByteEnd s).marks.has m =
      (s.marks.has m || decide (s.rxExpected = 0 ∧ m = .rxLenZero) ||
        decide (s.sendPending = true ∧ m = .hostTxOverwrite)) := by
  obtain ⟨-, hpending, -⟩ := (rxLastDone (.rxService .v2) s).markLenZero_frame
  rw [(lastByteEnd_bus s).marks_has hm, lastByteDone, State.completed_marks_has, hpending, State.markLenZero_marks_has,
    rxLastDone_of_room _ h]

end Sys2Proof.Machine

namespace Sys2Proof.Proofs

open Sys2Proof Sys2Proof.Machine

/-- Settles O26: the start is the ungated read, and the run changes the bus side and what storing its byte changes. -/
theorem rxLastWholeRun : Obligations.RxLastWholeRun := by
  intro s hout
  obtain ⟨x, y, htrace⟩ := rxLastEnd_trace s.seq s
  have hbus := rxLastEnd_bus s.seq s
  refine ⟨⟨_, s.xact_transacts _, exec_rxLast_start hout⟩, _, x, s.nextFifoByte, y, runInstr_rxLast hout, htrace,
    fun hroom => ?_, fun hfull => ?_⟩
  · rw [rxLastDone_of_room _ hroom] at hbus
    exact ⟨⟨_, hbus⟩, fun i => (hbus.readBuf .rxbuf i).trans (s.readBuf_rxbuf_write s.rxCursor s.nextFifoByte i)⟩
  · rwa [rxLastDone_of_full _ hfull] at hbus

/-- Settles O27: K1 is the hand-off of a frame that fits HTX, and the labels after it show the two strobes. -/
theorem rxCompleteWholeRun : Obligations.RxCompleteWholeRun := by
  intro s hout
  obtain ⟨z, w, htrace⟩ := rxCompleteEnd_trace s
  refine ⟨Memory.writeRun s.htx 0 s.rxFrame, ?_, s.readBuf_htx_handedOff, _, runInstr_rxComplete hout, ?_,
    rxCompleteEnd_bus s⟩
  · exact (exec_rxComplete_start hout).trans (congrArg _ (rxCompleteStep_k1_eq s))
  · rw [htrace, outward, List.map_append]
    rfl

/-- Settles O29: the last byte is due at once, and the byte read is the whole frame. -/
theorem expectedLengthOne : Obligations.ExpectedLengthOne := by
  intro s hseq hactive hnew hexpected hcursor
  have hroom : s.rxCursor < 255 := by omega
  have hat : s.AtLastByte := ⟨hseq, hactive, s.lastByteDue_iff.mpr ⟨hnew, by rw [hexpected, hcursor]; decide⟩⟩
  obtain ⟨hstored, hkept, -⟩ := rxLastStored_of_room (.rxService .v2) hroom
  rw [hcursor] at hstored
  obtain ⟨hloop, hidle, hreset⟩ := lastByteEnd_idle s
  obtain ⟨x, y, z, w, htrace⟩ := lastByteEnd_trace s
  have hframe : (lastByteEnd s).readRun .rxbuf 0 s.rxExpected.toNat = [s.nextFifoByte] := by
    rw [hexpected]
    exact congrArg (fun b => [b]) (hcursor ▸ lastByteEnd_readBuf_of_room hroom)
  rw [hframe] at htrace
  refine ⟨_, _, x, s.nextFifoByte, y, z, w, hat.leads_stored.run, hstored, ?_, hat.leads_end.run, htrace, hloop, hidle,
    hreset, ?_, ?_, ?_, ?_⟩
  · rw [hstored, hkept, hexpected]
    rfl
  · refine (lastByteEnd_marks_of_room hroom (m := .rxLenZero) nofun).trans ?_
    simp [hexpected, Marks.has]
  · refine (lastByteEnd_marks_of_room hroom (m := .bufOverrun) nofun).trans ?_
    simp [Marks.has]
  · refine (lastByteEnd_marks_of_room hroom (m := .txOverwrite) nofun).trans ?_
    simp [Marks.has]
  · refine (lastByteEnd_marks_of_room hroom (m := .hostTxOverwrite) nofun).trans ?_
    simp [Marks.has, Bool.or_comm]

/-- Settles O30: the byte read is stored, and none is handed off. -/
theorem expectedLengthZero : Obligations.ExpectedLengthZero := by
  intro s hseq hactive hnew hexpected hcursor
  have hroom : s.rxCursor < 255 := by omega
  have hat : s.AtLastByte := ⟨hseq, hactive, s.lastByteDue_iff.mpr ⟨hnew, by rw [hexpected]; exact Nat.zero_le _⟩⟩
  obtain ⟨hstored, -, hbyte⟩ := rxLastStored_of_room (.rxService .v2) hroom
  rw [hcursor] at hstored hbyte
  obtain ⟨hloop, hidle, hreset⟩ := lastByteEnd_idle s
  obtain ⟨x, y, z, w, htrace⟩ := lastByteEnd_trace s
  rw [hexpected] at htrace
  refine ⟨_, _, x, s.nextFifoByte, y, z, w, hat.leads_stored.run, hstored, hbyte, hat.leads_end.run, htrace, ?_, ?_,
    hloop, hidle, hreset⟩
  · refine (lastByteEnd_marks_of_room hroom (m := .rxLenZero) nofun).trans ?_
    simp [hexpected]
  · rw [lastByteEnd_htxLen, hexpected]
    rfl

/-- Settles O31: the last-byte path is RX_LAST, then RX_COMPLETE from V2, and its trace has the order. -/
theorem idleBeforeFlush : Obligations.IdleBeforeFlush := by
  intro s hseq hactive hnew hle
  have hat : s.AtLastByte := ⟨hseq, hactive, s.lastByteDue_iff.mpr ⟨hnew, hle⟩⟩
  obtain ⟨hloop, -⟩ := lastByteEnd_idle s
  obtain ⟨x, y, z, w, htrace⟩ := lastByteEnd_trace s
  obtain ⟨x', y', hlast⟩ := rxLastEnd_trace (.rxService .v2) s
  refine ⟨_, hat.leads_end.run, hloop, ?_, ⟨_, hat.leads_idled.run, rfl, ?_⟩,
    ⟨_, hat.leads_rxLastEnd.run, rxLastEnd_seq _ s⟩, _, hat.leads_handedOff.run, rfl⟩
  · rw [htrace, outward, List.map_append]
    rfl
  · have hidled : (rxLastStep .z3 (rxLastStored (.rxService .v2) s)).trace = _ := hlast
    rw [hidled, outward, List.map_append]
    rfl

/-- Settles O23: an edge with the interrupt enabled is the handler, and so is a remembered edge that is delivered. -/
theorem syncEdgeHandler : Obligations.SyncEdgeHandler := by
  refine ⟨fun s hen => ?handler, fun s hen hm hlow => ?edge, fun s hpending hchoice => ?rearm⟩
  case handler => exact congrArg Host.Outcome.next (State.takeSyncEdge_of_enabled hen)
  case edge =>
    rw [step_of_run hm (syncAction_of_edge hlow)]
    exact congrArg Host.Outcome.next (State.takeSyncEdge_of_enabled (s := { s.afterMove with syncIn := true }) hen)
  case rearm => rw [State.rearm_of_pending hpending, hchoice]; rfl

/-- Settles O25: each label is its line of the pseudocode; the byte just received decides at S2 and is taken or stored at
S4. -/
theorem rxStepMicroSteps : Obligations.RxStepMicroSteps := by
  intro s
  refine ⟨fun hout => ⟨_, s.xact_transacts _, exec_rxStep_start hout⟩, fun b hseq hrx => ?s2,
    fun hseq => ⟨_, s.xact_transacts _, exec_rxStep_of_seq hseq⟩, fun b hseq hrx hnew => ?length,
    fun b hseq hrx hnew hroom => ?store, fun hseq hnew hfull => ?overrun, exec_rxStep_of_seq⟩
  case s2 =>
    rw [exec_rxStep_of_seq hseq, rxStepStep, State.rxGateOpen, State.occupancy_of_rx hrx]
    simp only [decide_eq_true_eq]
    rfl
  case length => rw [exec_rxStep_of_seq hseq, rxStepStep_s4_of_newPacket hrx hnew]
  case store =>
    refine ⟨_, ?_, s.readBuf_rxbuf_write s.rxCursor b⟩
    rw [exec_rxStep_of_seq hseq, rxStepStep_s4_of_known hnew, State.fifoByte_of_rx hrx, State.storeRx_of_room b hroom]
    rfl
  case overrun =>
    rw [exec_rxStep_of_seq hseq, rxStepStep_s4_of_known hnew, State.storeRx_of_full _ hfull]
    rfl

/-- Settles O28: the test V1 is the last-byte test, and the step it chooses makes its first transaction. -/
theorem rxServiceChoice : Obligations.RxServiceChoice := by
  intro s hseq
  refine ⟨fun hnew hle => ⟨_, s.xact_transacts _, ?_⟩, fun hother => ⟨_, s.xact_transacts _, ?_⟩⟩
  · rw [exec_rxService_of_loop hseq, rxServiceStep_v1_of_due (s.lastByteDue_iff.mpr ⟨hnew, hle⟩)]
    rfl
  · have hno : ¬ s.lastByteDue = true := by
      rw [s.lastByteDue_iff]
      rintro ⟨hnew, hle⟩
      obtain hnew' | hlt := hother
      · cases hnew.symm.trans hnew'
      · omega
    rw [exec_rxService_of_loop hseq, rxServiceStep_v1_of_not_due hno]
    rfl

/-- Settles O32: S4 takes the byte in hand as the length, with which the packet begins. -/
theorem lengthPrefixBeginsPacket : Obligations.LengthPrefixBeginsPacket := by
  intro base s b hseq hnew hcursor hrx hreads
  refine ⟨_, (exec_rxStep_of_seq hseq).trans (congrArg _ (rxStepStep_s4_of_newPacket hrx hnew)), ?_, rfl, hcursor,
    fun _ => rfl⟩
  refine rxProgress_of_offRead rfl rfl (hreads.trans ?_)
  rw [State.rxPlaced, hcursor]
  rfl

end Sys2Proof.Proofs
end

section
/-! PROOFS. The host link: the byte-received handler, HOST_DISPATCH with its three commands, the drain to the host; and
CSMA_SERVICE on a clear channel and while backing off. -/

namespace Sys2Proof.Machine

/-! ## A single byte written in a buffer (rules R60, R64) -/

/-- A write inside its buffer is what is read there, and the rest of the buffer is as before. -/
theorem State.readBuf_writeBuf (s : State) {b : BufId} {c : Nat} (v : Byte) (i : Nat) (h : c < Config.cap b) :
    (s.writeBuf b c v).readBuf b i = if i = c then v else s.readBuf b i := by
  rw [State.writeBuf_in s v h, State.readBuf_eq, State.setBuf_bufMem_same]
  split
  next hi => rw [hi, Memory.read_write_same]; rfl
  next hi => rw [Memory.read_write_other _ _ hi]; rfl

/-! ## The byte-received handler (rules R64, R230) -/

theorem State.byteHandler_of_room {s : State} (b : Byte) (h : s.hrxCursor < 255) :
    s.byteHandler b = { s with hrx := Memory.write s.hrx s.hrxCursor b, hrxCursor := s.hrxCursor + 1,
                               dispatchFlag := decide (b = 0xFF) || s.dispatchFlag } := by
  obtain ⟨-, heq⟩ | ⟨hfull, -⟩ := s.byteHandler_cases b
  · rw [heq]
    by_cases hb : b = 0xFF <;> simp [hb]
  · omega

theorem State.byteHandler_of_full {s : State} (b : Byte) (h : 255 ≤ s.hrxCursor) :
    s.byteHandler b = s.mark .bufOverrun := by
  obtain ⟨hroom, -⟩ | ⟨-, heq⟩ := s.byteHandler_cases b
  · omega
  · exact heq

/-- The handler's body leaves the sequencer alone by itself, so the return from the interrupt restores nothing. -/
theorem exec_hostRxByte {s t : State} {b : Byte} (h : s.byteHandler b = t) (hseq : t.seq = s.seq)
    (hcaller : t.caller = s.caller) : exec (.hostRxByte b) s = .next t := by
  change Host.Outcome.next { s.byteHandler b with seq := s.seq, caller := s.caller } = _
  rw [h, ← hseq, ← hcaller]

/-! ## HOST_DISPATCH (rules R231 to R234) -/

/-- Away from its own positions HOST_DISPATCH is started, with H1. -/
theorem exec_hostDispatch_start {s : State} (h : ∀ l, s.seq ≠ .dispatch l) :
    exec .hostDispatch s = .next (s.readCommand.goto (.dispatch .h2)) := by
  change execHostDispatch s = _
  unfold execHostDispatch
  split
  next hseq => exact absurd hseq (h _)
  next hseq => exact absurd hseq (h _)
  next hseq => exact absurd hseq (h _)
  next => rfl

/-- H3 empties the accumulator. -/
theorem exec_hostDispatch_h3 {s : State} (h : s.seq = .dispatch .h3) :
    exec .hostDispatch s = .next { s with hrxCursor := 0, dispatchFlag := false, seq := .dispatch .h4 } := by
  change execHostDispatch s = _
  unfold execHostDispatch
  rw [h]
  rfl

theorem exec_hostDispatch_h4 {s : State} (h : s.seq = .dispatch .h4) :
    exec .hostDispatch s = .next { s with seq := .loop } := by
  change execHostDispatch s = _
  unfold execHostDispatch
  rw [h]
  rfl

/-- A step of the sequencer at H2 runs what the accumulated frame stands for. -/
theorem step_of_h2 {s : State} {k : Nat} {i : Instr} (hm : s.nextMove = .loop k) (hseq : s.seq = .dispatch .h2)
    (hdec : decodeHostIn s.afterMove.hostFrame = .ok i) : step s = exec i s.afterMove :=
  step_of_run hm (sequencerAction_of_h2 (s := s.afterMove) k hseq hdec)

theorem decodeHostIn_hostFrame_of_config {s : State} (h : s.dispTag = 0x01) :
    decodeHostIn s.hostFrame = .ok (.hostConfig (s.frameByte 1) (s.frameByte 2)) := by
  rw [decodeHostIn_hostFrame_eq, if_pos h]

theorem decodeHostIn_hostFrame_of_data {s : State} (h : s.dispTag = 0x02) :
    decodeHostIn s.hostFrame = .ok (.hostData (s.readRun .hrx 1 (s.dispLen - 1))) := by
  have hne : s.dispTag ≠ 0x01 := by rw [h]; decide
  rw [decodeHostIn_hostFrame_eq, if_neg hne, if_pos h]

theorem decodeHostIn_hostFrame_of_other {s : State} (h : s.dispTag ≠ 0x01) (h' : s.dispTag ≠ 0x02) :
    decodeHostIn s.hostFrame = .ok (.hostOther s.dispTag (s.readRun .hrx 1 (s.dispLen - 1))) := by
  rw [decodeHostIn_hostFrame_eq, if_neg h, if_neg h']

/-- A byte inside the frame is the accumulator's (rule R104). -/
theorem State.frameByte_of_lt {s : State} {i : Nat} (h : i < s.dispLen) : s.frameByte i = s.readBuf .hrx i :=
  if_pos h

/-- TXBUF after a frame is loaded: its length, then the frame, and the rest as before (rule R233). -/
theorem State.readBuf_txbuf_loaded (s : State) {frame : List Byte} (h : frame.length ≤ 255) (i : Nat) :
    ((s.writeBuf .txbuf 1 (BitVec.ofNat 8 frame.length)).writeRun .txbuf 2 frame).readBuf .txbuf i =
      if i = 1 then BitVec.ofNat 8 frame.length
      else if 2 ≤ i ∧ i < frame.length + 2 then frame.getD (i - 2) 0
      else s.readBuf .txbuf i := by
  have hfits : 2 + frame.length ≤ Config.cap .txbuf := Nat.add_le_add_left h 2
  have hlength := s.readBuf_writeBuf (b := .txbuf) (c := 1) (BitVec.ofNat 8 frame.length) i (by decide)
  by_cases hin : 2 ≤ i ∧ i < frame.length + 2
  · obtain ⟨k, rfl⟩ := Nat.exists_eq_add_of_le hin.1
    have hk : k < frame.length := by omega
    rw [State.readBuf_writeRun_in _ hfits hk, if_neg (by omega), if_pos hin, Nat.add_sub_cancel_left,
      List.getD_eq_getElem _ _ hk]
  · rw [State.readBuf_writeRun_out _ hfits (by omega), hlength, if_neg hin]

/-! ### The dispatch alone (rule R231) -/

theorem soloLeads_of_h2 {s t : State} {i : Instr} (h : s.seq = .dispatch .h2) (hdec : decodeHostIn s.hostFrame = .ok i)
    (hexec : exec i s = .next t) : SoloLeads 1 s t :=
  .of_solo (by simp only [State.solo, sequencerAction_of_h2 0 h hdec, hexec])

/-- Past H2 the loop context goes on with HOST_DISPATCH's own micro-step. -/
theorem soloLeads_of_dispatch {s t : State} {l : DispatchLabel} (h : s.seq = .dispatch l) (hl : l ≠ .h2)
    (hexec : exec .hostDispatch s = .next t) : SoloLeads 1 s t := by
  have hin : s.seq.inOperation = true := by
    rw [h]
    cases l with
    | h2 => exact absurd rfl hl
    | h1 | h3 | h4 => rfl
  exact .of_solo ((State.solo_of_inOperation hin (by rw [opAction, h])).trans hexec)

/-- H3 and H4 in a row empty the accumulator and return to the main loop. -/
theorem soloLeads_of_h3 {s : State} (h : s.seq = .dispatch .h3) :
    SoloLeads 2 s { s with hrxCursor := 0, dispatchFlag := false, seq := .loop } :=
  (soloLeads_of_dispatch h nofun (exec_hostDispatch_h3 h)).trans
    (soloLeads_of_dispatch rfl nofun (exec_hostDispatch_h4 rfl))

/-! ## HOST_TX_DRAIN (rules R236, R287) -/

/-- With no byte left nothing goes out, and the drain ends (rule R236). -/
theorem exec_hostTxDrain_of_done {s : State} (h : s.htxCursor = s.htxLen) :
    exec .hostTxDrain s = .next { s with htxCursor := 0, sendPending := false } := by
  have hnone : s.sendNext = s := if_neg (by omega)
  change Host.Outcome.next s.sendNext.endDrain = _
  rw [hnone]
  exact congrArg Host.Outcome.next (if_pos h)

/-- With no other service enabled the main loop drains, or idles (rule R287). -/
theorem loopAction_of_drainOnly (k : Nat) {s : State} (hrx : s.rxActive = false) (htx : s.txPending = false)
    (hflag : s.dispatchFlag = false) :
    loopAction k s = if s.sendPending then .run .hostTxDrain s else .outside s := by
  have henabled : s.enabledServices = if s.sendPending then [.hostTxDrain] else [] := by
    simp [State.enabledServices, hrx, htx, hflag]
  unfold loopAction State.pickService
  rw [henabled]
  cases s.sendPending with
  | true => simp [Nat.mod_one]
  | false => rfl

/-! ## CSMA_SERVICE on a clear channel and while backing off (rules R224, R227) -/

/-- A3 with a sample at the clear level: the mask is next. -/
theorem csmaStep_a3_of_clear {s : State} (h : s.ccaSample = Config.ccaClearLevel) :
    csmaStep .a3 s = s.goto (.csma .a4) := by
  simp [csmaStep, State.channelClear, h]

/-- A1 while backing off: the test of the period is next. -/
theorem csmaStep_a1_of_backingOff {s : State} (h : s.backingOff = true) : csmaStep .a1 s = s.goto (.csma .a11) := by
  simp [csmaStep, h]

/-- A11 while backing off: the backoff goes on exactly while no more ticks than the period have passed (rule R227). -/
theorem csmaStep_a11_of_backingOff {s : State} (h : s.backingOff = true) :
    csmaStep .a11 s =
      { s with backingOff := decide (s.backoffElapsed ≤ s.backoffPeriod) }.goto (.csma .a12) := by
  have htest : (s.backingOff && !s.backoffOver) = decide (s.backoffElapsed ≤ s.backoffPeriod) := by
    simp [h, State.backoffOver, ← decide_not]
  rw [csmaStep, htest]

/-- A11 and A12 in a row while backing off. -/
theorem runInstr_csma_testBackoff {s : State} (h : s.seq = .csma .a11) (hback : s.backingOff = true) :
    runInstr .csmaService 2 s =
      .next ({ s with backingOff := decide (s.backoffElapsed ≤ s.backoffPeriod) }.goto .loop) := by
  rw [runInstr_csma_of_seq h, csmaStep_a11_of_backingOff hback, runInstr_csma_of_seq rfl]
  rfl

end Sys2Proof.Machine

namespace Sys2Proof.Proofs

open Sys2Proof Sys2Proof.Machine

/-- Settles O41: the frame at H2 decodes to the data command, which loads TXBUF behind the length. -/
theorem dataCommand : Obligations.DataCommand := by
  refine ⟨fun s k hm hseq htag _ => ?fetched, fun rest s hlen => ?loaded⟩
  case fetched =>
    have hrun : s.afterMove.readRun .hrx 1 (s.dispLen - 1) = s.readRun .hrx 1 (s.dispLen - 1) :=
      State.readRun_congr fun _ _ => rfl
    rw [step_of_h2 hm hseq (decodeHostIn_hostFrame_of_data htag), ← hrun]
    rfl
  case loaded =>
    have hframe : (0x02#8 :: rest).length ≤ 255 := Nat.succ_le_succ hlen
    have hload : exec (.hostData rest) s = .next ((s.loadTx (0x02#8 :: rest)).goto (.dispatch .h3)) := rfl
    rw [s.loadTx_eq hframe] at hload
    refine ⟨_, hload, fun i => ?_⟩
    have hread := s.readBuf_txbuf_loaded hframe i
    rwa [State.writeBuf_in s _ (by decide), State.writeRun_in _ (Nat.add_le_add_left hframe 2)] at hread

/-- Settles O34: the test A1, the way A2, A3, A4 with a clear sample, TRANSMIT's T1 at A5, and A6, A7, A12. -/
theorem csmaClearChannel : Obligations.CsmaClearChannel := by
  refine ⟨fun s => exec_csmaService_of_loop, fun s hseq hidle hclear => ?clear,
    fun s hseq => ⟨_, s.xact_transacts _, exec_csmaService_of_seq hseq⟩, fun s hseq hedge => ?done⟩
  case clear =>
    have hA3 : csmaStep .a3 ({ s with ccaSample := s.ccaIn }.goto (.csma .a3)) =
        { s with ccaSample := s.ccaIn }.goto (.csma .a4) := csmaStep_a3_of_clear hclear
    rw [runInstr_of_next (exec_csmaService_of_loop hseq), csmaStep_a1_of_idle hidle, runInstr_csma_of_seq rfl]
    change runInstr .csmaService 2 ({ s with ccaSample := s.ccaIn }.goto (.csma .a3)) = _
    rw [runInstr_csma_of_seq rfl, hA3, runInstr_csma_of_seq rfl]
    rfl
  case done =>
    rw [runInstr_csma_of_seq hseq, csmaStep, State.rearm_of_no_edge hedge, runInstr_csma_of_seq rfl,
      runInstr_csma_of_seq rfl]
    rfl

/-- Settles O36: A1 leads to the strict test of A11, and A12 back to the main loop. -/
theorem csmaBackoffRelease : Obligations.CsmaBackoffRelease := by
  intro s hseq hback
  rw [runInstr_of_next (exec_csmaService_of_loop hseq), csmaStep_a1_of_backingOff hback,
    runInstr_csma_testBackoff (s := s.goto (.csma .a11)) rfl hback, ← hseq]
  rfl

/-- Settles O38: a host byte is the handler's in every state, and the room in the accumulator decides. -/
theorem hostByteHandler : Obligations.HostByteHandler := by
  refine ⟨fun b s hm => step_of_run hm rfl,
    fun b s hroom => ⟨Memory.write s.hrx s.hrxCursor b, ?stored, fun i => ?read⟩, fun b s hfull => ?full⟩
  case stored => exact exec_hostRxByte (State.byteHandler_of_room b hroom) rfl rfl
  case read =>
    have hread := s.readBuf_writeBuf (b := .hrx) b i hroom
    rwa [State.writeBuf_in s b hroom] at hread
  case full => exact exec_hostRxByte (State.byteHandler_of_full b hfull) rfl rfl

/-- Settles O39: H1 is the start from outside, H3 and H4 are their labels' lines. -/
theorem hostDispatchMicroSteps : Obligations.HostDispatchMicroSteps := fun _ =>
  ⟨exec_hostDispatch_start, exec_hostDispatch_h3, exec_hostDispatch_h4⟩

/-- Settles O40: H2 stores the byte and goes to C0, C0 is CONFIGURE's own micro-step, and the bytes of the frame are the
accumulator's as far as it reaches. -/
theorem configCommand : Obligations.ConfigCommand := by
  refine ⟨fun _ _ _ => rfl, fun s k hm hseq => ?tables, fun s k hm hseq htag hlen => ?fetched⟩
  case tables => exact (step_of_inOperation hm hseq rfl rfl).trans (exec_configure_of_seq (s := s.afterMove) s.csc hseq)
  case fetched =>
    have hcode : s.afterMove.frameByte 1 = s.readBuf .hrx 1 := State.frameByte_of_lt (s := s.afterMove) hlen
    refine ⟨s.afterMove.frameByte 2, fun h3 => State.frameByte_of_lt (s := s.afterMove) h3, ?_⟩
    rw [step_of_h2 hm hseq (decodeHostIn_hostFrame_of_config htag), hcode]

/-- Settles O42: the command is the step to H3 alone, and H3 and H4 empty the accumulator. -/
theorem otherTagDiscards : Obligations.OtherTagDiscards := by
  refine ⟨fun _ _ _ => rfl, fun s hseq hconfig hdata => ?_⟩
  have hH2 : SoloLeads 1 s (s.goto (.dispatch .h3)) :=
    soloLeads_of_h2 hseq (decodeHostIn_hostFrame_of_other hconfig hdata) rfl
  exact (hH2.trans (soloLeads_of_h3 rfl)).run

/-- Settles O43: what is left of the frame decides what the drain does, and `send_pending` whether the loop runs it. -/
theorem hostTxDrain : Obligations.HostTxDrain := by
  refine ⟨fun s => exec_hostTxDrain_of_more, fun s => exec_hostTxDrain_of_last, fun s => exec_hostTxDrain_of_done,
    fun s k hm hseq hrx htx hflag => ?enabled⟩
  case enabled =>
    have haction : moveAction (.loop k) s.afterMove =
        if s.sendPending then .run .hostTxDrain s.afterMove else .outside s.afterMove :=
      (sequencerAction_of_loop (s := s.afterMove) k hseq).trans (loopAction_of_drainOnly k hrx htx hflag)
    cases hsend : s.sendPending with
    | true => exact step_of_run hm (haction.trans (by rw [hsend]; rfl))
    | false => exact step_of_outside hm (haction.trans (by rw [hsend]; rfl))

end Sys2Proof.Proofs
end

section
/-! PROOFS. The totality of `exec`; and the acts of the outside with the two interrupts, said once as a relation, with what
each of them writes. -/

namespace Sys2Proof.Machine

/-! ## The acts of the outside and the two interrupts (rules R29, R80, R82, R191, R226, R230, R253, R261) -/

/-- What a move that is not the sequencer's can make of a state from which the move has been taken. -/
inductive OutsideStep : Move → State → State → Prop where
  /-- A level of `sync_in` that is no rising edge. -/
  | pin {s : State} (level : Bool) (h : level = false ∨ s.syncIn = true) :
    OutsideStep (.syncLevel level) s { s with syncIn := level }
  /-- A rising edge whose handler is taken at once. -/
  | edgeTaken {s : State} (h : s.irqEn = true) :
    OutsideStep (.syncLevel true) s { s with syncIn := true, newPacket := true, rxActive := true, ledRx := true }
  /-- A masked rising edge that is remembered. -/
  | edgeLatched {s : State} (h : s.irqEn = false) :
    OutsideStep (.syncLevel true) s { s.dropChoice with syncIn := true, edgePending := true }
  /-- A masked rising edge that leaves nothing behind. -/
  | edgeLost {s : State} (h : s.irqEn = false) : OutsideStep (.syncLevel true) s { s.dropChoice with syncIn := true }
  | cca {s : State} (level : Bool) : OutsideStep (.ccaLevel level) s { s with ccaIn := level }
  /-- A host byte with room in the accumulator. -/
  | byteStored {s : State} (b : Byte) (h : s.hrxCursor < 255) :
    OutsideStep (.hostByte b) s
      { s with hrx := Memory.write s.hrx s.hrxCursor b, hrxCursor := s.hrxCursor + 1,
               dispatchFlag := decide (b = 0xFF) || s.dispatchFlag }
  /-- A host byte that finds the accumulator full. -/
  | byteDropped {s : State} (b : Byte) (h : 255 ≤ s.hrxCursor) :
    OutsideStep (.hostByte b) s { s with marks := s.marks.add .bufOverrun }
  | tick {s : State} :
    OutsideStep .tick s { s with tickCount := s.tickCount + 1, backoffElapsed := s.backoffElapsed + 1 }
  | chip {s : State} (c : ChipMove) : OutsideStep (.chip c) s { s with chip := s.chip.act c }

theorem outsideStep_of_edge (s : State) :
    OutsideStep (.syncLevel true) s ({ s with syncIn := true } : State).takeSyncEdge := by
  obtain ⟨hen, heq⟩ | ⟨hmask, heq⟩ | ⟨hmask, heq⟩ := ({ s with syncIn := true } : State).takeSyncEdge_cases <;> rw [heq]
  · exact .edgeTaken hen
  · exact .edgeLatched hmask
  · exact .edgeLost hmask

theorem outsideStep_of_hostByte {s t : State} {b : Byte} (h : exec (.hostRxByte b) s = .next t) :
    OutsideStep (.hostByte b) s t := by
  by_cases hroom : s.hrxCursor < 255
  · rw [exec_hostRxByte (State.byteHandler_of_room b hroom) rfl rfl] at h
    cases h
    exact .byteStored b hroom
  · have hfull : 255 ≤ s.hrxCursor := Nat.not_lt.mp hroom
    rw [exec_hostRxByte (State.byteHandler_of_full b hfull) rfl rfl] at h
    cases h
    exact .byteDropped b hfull

/-- A step that is not the sequencer's is one of these acts (rules R6, R253). -/
theorem step_outsideStep {s t : State} (hm : ∀ k, s.nextMove ≠ .loop k) (h : step s = .next t) :
    OutsideStep s.nextMove s.afterMove t := by
  cases hmove : s.nextMove with
  | loop k => exact absurd hmove (hm k)
  | syncLevel level =>
    by_cases hedge : level = true ∧ s.syncIn = false
    · obtain ⟨rfl, hlow⟩ := hedge
      rw [step_of_run hmove (syncAction_of_edge hlow)] at h
      cases h
      exact outsideStep_of_edge s.afterMove
    · have hno : level = false ∨ s.syncIn = true := by
        rwa [not_and_or, Bool.not_eq_true, Bool.not_eq_false] at hedge
      rw [step_of_outside hmove (syncAction_of_no_edge hno)] at h
      cases h
      exact .pin level hno
  | hostByte b =>
    rw [step_of_run hmove rfl] at h
    exact outsideStep_of_hostByte h
  | ccaLevel | tick | chip =>
    rw [step_of_outside hmove rfl] at h
    cases h
    constructor

/-! ### What each act writes (rules R255, R256) -/

namespace OutsideStep

variable {m : Move} {s t : State}

/-- The moves to come and the chip's answers are the sequencer's to use up (rules R11, R12). -/
theorem script_eq (h : OutsideStep m s t) : t.env.moves = s.env.moves ∧ t.env.answers = s.env.answers := by
  cases h <;> exact ⟨rfl, rfl⟩

/-- Only a host byte writes the accumulator, its flag and the marks (rules R64, R230). -/
theorem hostInput_eq (h : OutsideStep m s t) (hm : ∀ b, m ≠ .hostByte b) :
    t.hrx = s.hrx ∧ t.hrxCursor = s.hrxCursor ∧ t.dispatchFlag = s.dispatchFlag ∧ t.marks = s.marks := by
  cases h with
  | byteStored b | byteDropped b => exact absurd rfl (hm b)
  | _ => exact ⟨rfl, rfl, rfl, rfl⟩

/-- The accumulator is appended to, and nothing in it rewritten (rule R230). -/
theorem readBuf_hrx (h : OutsideStep m s t) {i : Nat} (hi : i ≠ s.hrxCursor) : t.readBuf .hrx i = s.readBuf .hrx i := by
  cases h with
  | byteStored b =>
    have hread : (Memory.write s.hrx s.hrxCursor b).read i = s.hrx.read i := Memory.read_write_other s.hrx b hi
    exact congrArg (Option.getD · (Config.unwrittenByte .hrx i)) hread
  | _ => rfl

/-- A host byte that finds room overruns nothing (rule R64). -/
theorem marks_of_room (h : OutsideStep m s t) (hroom : s.hrxCursor < 255) : t.marks = s.marks := by
  cases h with
  | byteDropped b hfull => omega
  | _ => rfl

/-- A full accumulator is not written, and at most the overrun is marked (rule R64). -/
theorem hrx_of_full (h : OutsideStep m s t) (hfull : 255 ≤ s.hrxCursor) :
    t.hrx = s.hrx ∧ (t.marks = s.marks ∨ t.marks = s.marks.add .bufOverrun) := by
  cases h with
  | byteStored b hroom => omega
  | byteDropped b => exact ⟨rfl, .inr rfl⟩
  | _ => exact ⟨rfl, .inl rfl⟩

/-- Only a level of `sync_in` writes that pin, its handler's flags and the latch, or settles a choice (rules R29, R191). -/
theorem syncInput_eq (h : OutsideStep m s t) (hm : ∀ level, m ≠ .syncLevel level) :
    t.syncIn = s.syncIn ∧ t.newPacket = s.newPacket ∧ t.rxActive = s.rxActive ∧ t.ledRx = s.ledRx ∧
      t.edgePending = s.edgePending ∧ t.env.choices = s.env.choices := by
  cases h with
  | pin | edgeTaken | edgeLatched | edgeLost => exact absurd rfl (hm _)
  | _ => exact ⟨rfl, rfl, rfl, rfl, rfl, rfl⟩

theorem ccaIn_eq (h : OutsideStep m s t) (hm : ∀ level, m ≠ .ccaLevel level) : t.ccaIn = s.ccaIn := by
  cases h with
  | cca level => exact absurd rfl (hm level)
  | _ => rfl

theorem counters_eq (h : OutsideStep m s t) (hm : m ≠ .tick) :
    t.tickCount = s.tickCount ∧ t.backoffElapsed = s.backoffElapsed := by
  cases h with
  | tick => exact absurd rfl hm
  | _ => exact ⟨rfl, rfl⟩

theorem chip_eq (h : OutsideStep m s t) (hm : ∀ c, m ≠ .chip c) : t.chip = s.chip := by
  cases h with
  | chip c => exact absurd rfl (hm c)
  | _ => rfl

end OutsideStep

end Sys2Proof.Machine

namespace Sys2Proof.Proofs

open Sys2Proof Sys2Proof.Machine

/-- Settles O46: the case split over the instructions is `exec_next`'s. -/
theorem everyInstructionAnswersNext : Obligations.EveryInstructionAnswersNext := exec_next

/-- Settles O51: the step is one of the outside's acts, and each act writes its own group of elements. -/
theorem interruptsLeaveTheSequencer : Obligations.InterruptsLeaveTheSequencer := by
  intro s t hm hstep
  have hact : OutsideStep s.nextMove s.afterMove t := step_outsideStep hm hstep
  obtain ⟨hmoves, hanswers⟩ := hact.script_eq
  exact ⟨t.syncIn, t.ccaIn, t.tickCount, t.backoffElapsed, t.hrx, t.hrxCursor, t.dispatchFlag, t.newPacket, t.rxActive,
    t.ledRx, t.edgePending, t.marks, t.chip, t.env, step_onlyOutside hm hstep, hmoves, hanswers, hact.hostInput_eq,
    fun _ hi => hact.readBuf_hrx hi, hact.marks_of_room, hact.hrx_of_full, hact.syncInput_eq, hact.ccaIn_eq,
    hact.counters_eq, hact.chip_eq⟩

end Sys2Proof.Proofs
end

section
/-! PROOFS. The main loop: the service a choice starts, the choice that starts a service, and idling with none enabled. -/

namespace Sys2Proof.Machine

/-! ## The enabled services and the choice among them (rule R287) -/

/-- With no service enabled no choice starts one. -/
theorem State.pickService_of_none {s : State} (k : Nat) (h : s.enabledServices = []) : s.pickService k = none := by
  rw [State.pickService, h]
  rfl

/-- A choice that starts nothing finds no service enabled: counted round a nonempty list, it stands inside the list. -/
theorem State.enabledServices_of_pickService_none {s : State} {k : Nat} (h : s.pickService k = none) :
    s.enabledServices = [] := by
  by_contra hne
  have hinside : k % s.enabledServices.length < s.enabledServices.length :=
    Nat.mod_lt k (List.length_pos_of_ne_nil hne)
  exact absurd (List.getElem?_eq_none_iff.mp h) (Nat.not_le.mpr hinside)

/-- Each enabled service is started by some choice: its own index among the enabled ones. -/
theorem State.exists_pickService {s : State} {i : Instr} (h : i ∈ s.enabledServices) : ∃ k, s.pickService k = some i := by
  obtain ⟨k, hk, hget⟩ := List.mem_iff_getElem.mp h
  refine ⟨k, ?_⟩
  rw [State.pickService, Nat.mod_eq_of_lt hk, List.getElem?_eq_getElem hk, hget]

/-- No service is enabled exactly when none of the four flags is set. -/
theorem State.enabledServices_eq_nil_iff (s : State) :
    s.enabledServices = [] ↔
      s.rxActive = false ∧ s.txPending = false ∧ s.dispatchFlag = false ∧ s.sendPending = false := by
  simp [State.enabledServices]

/-- A quiescent state stands at `LOOP` with no service enabled (rule R288). -/
theorem State.quiescent_iff (s : State) : s.quiescent = true ↔ s.seq = .loop ∧ s.enabledServices = [] := by
  simp [State.quiescent, s.enabledServices_eq_nil_iff, and_assoc]

/-! ## A step at `LOOP` (rule R287) -/

/-- The sequencer at `LOOP` runs the service its choice picks. -/
theorem step_of_pickService {s : State} {k : Nat} {i : Instr} (hm : s.nextMove = .loop k) (hseq : s.seq = .loop)
    (hpick : s.pickService k = some i) : step s = exec i s.afterMove := by
  have hloop : loopAction k s.afterMove = .run i s.afterMove := by
    rw [loopAction, show s.afterMove.pickService k = some i from hpick]
  exact step_of_run hm ((sequencerAction_of_loop (s := s.afterMove) k hseq).trans hloop)

/-- The sequencer at `LOOP` idles when no service is enabled. -/
theorem step_of_idle {s : State} {k : Nat} (hm : s.nextMove = .loop k) (hseq : s.seq = .loop)
    (hnone : s.enabledServices = []) : step s = .next s.afterMove := by
  have hpick : s.afterMove.pickService k = none := State.pickService_of_none k hnone
  have hloop : loopAction k s.afterMove = .outside s.afterMove := by rw [loopAction, hpick]
  exact step_of_outside hm ((sequencerAction_of_loop (s := s.afterMove) k hseq).trans hloop)

/-- At `LOOP` each enabled service is the one that some next choice starts. -/
theorem exists_choice_of_enabled {s : State} {i : Instr} (hseq : s.seq = .loop) (h : i ∈ s.enabledServices) :
    ∃ k, ∀ u, u = { s with env := { s.env with moves := .loop k :: s.env.moves } } → step u = exec i u.afterMove := by
  obtain ⟨k, hpick⟩ := State.exists_pickService h
  refine ⟨k, fun u hu => ?_⟩
  subst hu
  exact step_of_pickService rfl hseq hpick

end Sys2Proof.Machine

namespace Sys2Proof.Proofs

open Sys2Proof Sys2Proof.Machine

/-- Settles O50: the step is the run of the service its choice picks or, with none picked, idling; and an enabled service's
index is a choice that picks it. -/
theorem loopStartsAnEnabledService : Obligations.LoopStartsAnEnabledService := by
  refine ⟨fun s k hm hseq => ?runs, fun s hseq => ⟨fun h => ?rx, fun h => ?csma, fun h => ?dispatch, fun h => ?drain⟩⟩
  case runs =>
    cases hpick : s.pickService k with
    | none =>
      have hnone : s.enabledServices = [] := State.enabledServices_of_pickService_none hpick
      obtain ⟨hrx, htx, hflag, hsend⟩ := s.enabledServices_eq_nil_iff.mp hnone
      exact .inl ⟨hrx, htx, hflag, hsend, step_of_idle hm hseq hnone⟩
    | some i =>
      have hrun : step s = exec i s.afterMove := step_of_pickService hm hseq hpick
      obtain ⟨rfl, h⟩ | ⟨rfl, h⟩ | ⟨rfl, h⟩ | ⟨rfl, h⟩ := State.pickService_cases hpick
      · exact .inr (.inl ⟨h, hrun⟩)
      · exact .inr (.inr (.inl ⟨h, hrun⟩))
      · exact .inr (.inr (.inr (.inl ⟨h, hrun⟩)))
      · exact .inr (.inr (.inr (.inr ⟨h, hrun⟩)))
  case rx | csma | dispatch | drain => exact exists_choice_of_enabled hseq (by simp [State.enabledServices, h])

/-- Settles O60: a quiescent state has no service to start, so the loop idles. -/
theorem quiescentUntilTheOutsideActs : Obligations.QuiescentUntilTheOutsideActs := by
  intro s k hquiet hm
  obtain ⟨hseq, hnone⟩ := s.quiescent_iff.mp hquiet
  exact step_of_idle hm hseq hnone

end Sys2Proof.Proofs
end
